-- ==== Sys2Proof/Word.lean ====
section
/-! DEFINITION. The word types of the MBD: bytes, addresses and lengths, vector registers
(00_scope.md R5, R8, R9). -/

namespace Sys2Proof

/-- One byte of the data space (20_memory.md R60). -/
abbrev Byte := BitVec 8

/-- An address, a stride or a byte length: `AW = LW = 64` bits (00_scope.md R5, R8, R13). -/
abbrev Addr := BitVec 64

/-- A vector register, a `Bytes(16)` (10_state.md R41). Byte `k`, in memory order, is bits
`8k+7 .. 8k`; `regByte` of Machine/Bytes.lean reads it. -/
abbrev VReg := BitVec 128

end Sys2Proof
end

