-- ==== Sys2Proof/Syntax.lean ====
section
/-! DEFINITION. The operations of spec/opcode_table.json, one constructor a row. -/

namespace Sys2Proof

/-- A kernel width, counted in vector registers: 1, 2, 4 or 6 (00_scope.md R5, 30_encoding.md R106). -/
inductive Width where
  | w1 | w2 | w4 | w6
deriving DecidableEq, Repr

/-- How many vector registers a width stands for: the `w` field literally (30_encoding.md R106). -/
def Width.regs : Width → Nat
  | .w1 => 1
  | .w2 => 2
  | .w4 => 4
  | .w6 => 6

/-- The descriptor of a command, format CMD: the content of the seven operand registers, none packed
with another (30_encoding.md R91). -/
structure Descriptor where
  subkeys : Addr
  rounds  : BitVec 32
  inPtr   : Addr
  xorPtr  : Addr
  outPtr  : Addr
  length  : BitVec 64
  flags   : BitVec 32
deriving DecidableEq, Repr

/-- The operations of the MBD: the host's command and doorbells (30_encoding.md R91, R99) and the
sequencer's micro-operation words (30_encoding.md R107). A name ending in `T` is a tail form. -/
inductive Instr where
  /-- PROCESS sk, rounds, in, xor, out, len, flags (40_command_setup.md R120). -/
  | process (d : Descriptor)
  /-- START, the doorbell that starts a command (40_command_setup.md R121). -/
  | start
  /-- SRST, the doorbell that resets the instance (70_reset_and_hazards.md R241). -/
  | srst
  /-- IDLE, UOP = 0x00, no micro-operation pending (10_state.md R44). -/
  | idle
  /-- SETUP (40_command_setup.md R122). -/
  | setup
  /-- ARB (41_arbiter.md R140). -/
  | arb
  /-- TADJ (44_tail.md R181). -/
  | tadj
  /-- LDIN w (42_batch_datapath.md R150). -/
  | ldin (w : Width)
  /-- LDIN.T WN (44_tail.md R183). -/
  | ldinT (w : Width)
  /-- CTRGEN w (43_counter.md R172). -/
  | ctrgen (w : Width)
  /-- CTRGEN.T WN (43_counter.md R176). -/
  | ctrgenT (w : Width)
  /-- XORIN w (42_batch_datapath.md R152). -/
  | xorin (w : Width)
  /-- XORIN.T WN (44_tail.md R184). -/
  | xorinT (w : Width)
  /-- KCALL w (42_batch_datapath.md R154). -/
  | kcall (w : Width)
  /-- KCALL.T WN (44_tail.md R185). -/
  | kcallT (w : Width)
  /-- XOROUT w (42_batch_datapath.md R156). -/
  | xorout (w : Width)
  /-- XOROUT.T WN (44_tail.md R186). -/
  | xoroutT (w : Width)
  /-- STOUT w (42_batch_datapath.md R158). -/
  | stout (w : Width)
  /-- STOUT.T WN (44_tail.md R187). -/
  | stoutT (w : Width)
  /-- ADV w (42_batch_datapath.md R160). -/
  | adv (w : Width)
  /-- ADV.T WN (44_tail.md R188). -/
  | advT (w : Width)
  /-- FINISH (44_tail.md R190). -/
  | finish
  /-- FAULT, UOP = 0xF0, the halted sequencer (60_exceptions.md R214, 41_arbiter.md R143). -/
  | fault
deriving DecidableEq, Repr

end Sys2Proof
end

