-- ==== Sys2Proof/Config.lean ====
section
/-! DEFINITION. What an instance fixes (00_scope.md R5, 45_kernel_port.md R196, R199) and the values the
spec leaves free. -/

namespace Sys2Proof

/-- The native block size `B` in bytes, 8 or 16 (00_scope.md R5). -/
inductive BlockSize where
  | b8 | b16
deriving DecidableEq, Repr

/-- `B` as a number of bytes. -/
def BlockSize.bytes : BlockSize → Nat
  | .b8 => 8
  | .b16 => 16

/-- The treatment of `InBlockIsCounter` with `ReverseDirection` (00_scope.md R5, `CR_POLICY`;
40_command_setup.md R131). -/
inductive CrPolicy where
  | compose | refuse
deriving DecidableEq, Repr

/-- The kernel family wired to the kernel port, one per instance (45_kernel_port.md R199). -/
inductive KernelFamily where
  /-- A cipher family of which nothing is known but the lane contract (R196): `Config.cipherByte`. -/
  | family (id : Nat)
  /-- The document's test kernel `KX`, `block xor roundkey` (R201). -/
  | kx
  /-- The spec's test kernel `KA`, bytewise addition of the round key (R202). -/
  | ka
  /-- The spec's test kernel `KS`, bytewise subtraction, the inverse of `KA` (R202). -/
  | ks
deriving DecidableEq, Repr

/-- The structural parameters of one instance (00_scope.md R5): the content of the read-only register
CONFIG (10_state.md R28) and the wired kernel family. No command changes them. -/
structure Config where
  /-- `B`. -/
  block    : BlockSize
  /-- `KW`, strictly decreasing, 1 to 3 entries. -/
  kw       : List Width
  /-- `ASSERT_EN`: whether `LENGTH < B` faults. -/
  assertEn : Bool
  /-- `CTR8W = 8` (true) or 4 (false): the adder's width for 8-byte blocks. -/
  ctr8w8   : Bool
  /-- `CR_POLICY`. -/
  crPolicy : CrPolicy
  /-- The kernel family behind the kernel port. -/
  kernel   : KernelFamily
deriving DecidableEq, Repr

/-- `V`, the native vector width in bytes (00_scope.md R5). -/
def vecBytes : Nat := 16

/-- `NULLP`, the address that means null (00_scope.md R5, 20_memory.md R75). -/
def nullp : Addr := 0#64

/-- Free value: byte `i` of `E(blk)` for the kernel family `id` under the subkey table's bytes and the round
count (45_kernel_port.md R196, R197: a total function about which nothing else is assumed; entry 9). -/
opaque Config.cipherByte (id : Nat) (table : List Byte) (rnd : BitVec 32) (blk : List Byte) (i : Nat) : Byte

/-- Free value: how many bytes the subkey table of the family `id` has at round count `rnd`
(45_kernel_port.md R200: how long it is is the kernel's; entry 9). -/
opaque Config.tableLen (id : Nat) (rnd : BitVec 32) : Nat

/-- Free value: the contents a reset leaves in a vector register, 'unspecified' (10_state.md R43,
70_reset_and_hazards.md R241; entry 3). The argument is a draw number, fresh for every register and
every reset. -/
opaque Config.freeVReg (draw : Nat) : VReg

/-- The instance State.reset stands for: MBD-B16-K6.1 with the spec's values of the three policy parameters
and an unnamed kernel family. DESIGN CHOICE for B, KW and the family, which the spec leaves to the
instance (entry 1); unsafe only for statements about State.reset alone. -/
def Config.standard : Config :=
  { block := .b16, kw := [.w6, .w1], assertEn := true, ctr8w8 := false, crPolicy := .compose,
    kernel := .family 0 }

end Sys2Proof
end

