-- ==== Sys2Proof/Machine/Bytes.lean ====
section
/-! DEFINITION. `Bytes(n)` as lists of bytes and the byte-order helpers (00_scope.md R9). -/

namespace Sys2Proof.Machine

/-- The number whose least significant byte comes first. -/
def leNat : List Byte → Nat
  | [] => 0
  | b :: bs => b.toNat + 256 * leNat bs

/-- The `n` low bytes of `v`, least significant first. -/
def leBytes : Nat → Nat → List Byte
  | 0, _ => []
  | n + 1, v => BitVec.ofNat 8 v :: leBytes n (v / 256)

/-- `be_int(b)`: the number whose most significant byte is `b[0]` (00_scope.md R9). -/
def beInt (bs : List Byte) : Nat := leNat bs.reverse

/-- `be_bytes(n, v)`: the `n` bytes of `v`, most significant first (00_scope.md R9). -/
def beBytes (n v : Nat) : List Byte := (leBytes n v).reverse

/-- `zeros(n)` (00_scope.md R9). -/
def zeros (n : Nat) : List Byte := List.replicate n 0#8

/-- Byte `k` of a vector register, in memory order (10_state.md R41, 20_memory.md R64). -/
def regByte (r : VReg) (k : Nat) : Byte := r.extractLsb' (8 * k) 8

/-- The slice `r[i .. i+n)` of a vector register (00_scope.md R9). -/
def regSlice (r : VReg) (i n : Nat) : List Byte := (List.range n).map fun k => regByte r (i + k)

/-- The vector register whose bytes, in memory order, are the list's; bytes the list does not have are
zero. -/
def regOfBytes (bs : List Byte) : VReg := BitVec.ofNat 128 (leNat bs)

end Sys2Proof.Machine
end

