-- ==== Sys2Proof/Decode.lean ====
section
/-! DEFINITION. The decoders of the three formats (30_encoding.md R90), total, rejecting by name, and the encoder
written from the same tables. A format is chosen by where a word stands (the operand registers, CTRL, UOP),
never by the word itself (30_encoding.md R90). -/

namespace Sys2Proof

/-- The formats that carry an operation of the table (30_encoding.md R90). -/
inductive Format where
  /-- The command descriptor, seven registers (R91). -/
  | cmd
  /-- The doorbell word written to CTRL (R99). -/
  | db
  /-- The micro-operation word (R105). -/
  | uop
deriving DecidableEq, Repr

/-- Why a word is no operation. -/
inductive DecodeError where
  /-- Fewer bytes than the format has. -/
  | tooShort
  /-- A micro-operation word with `op` in 0xC to 0xE (30_encoding.md R108). -/
  | reservedOp
  /-- A data operation with `w` in 0, 3, 5, 7 (30_encoding.md R108). -/
  | reservedWidth
  /-- A control word with `t` or `w` not zero (30_encoding.md R108). -/
  | controlFields
  /-- A data operation of a width the instance does not have (30_encoding.md R106, 93 U45). -/
  | foreignWidth
  /-- A doorbell word with neither START nor SRST: it does nothing (30_encoding.md R99). -/
  | noDoorbell
deriving DecidableEq, Repr

/-- The `w` field literally: 1, 2, 4 or 6 (30_encoding.md R106). -/
def decodeWidth (f : BitVec 3) : Option Width :=
  match f.toNat with
  | 1 => some .w1
  | 2 => some .w2
  | 4 => some .w4
  | 6 => some .w6
  | _ => none

/-- A control word: `t` and `w` are 0 (30_encoding.md R106, R108). -/
def controlUop (w : BitVec 8) (i : Instr) : Except DecodeError Instr :=
  if w.extractLsb' 0 4 = 0#4 then .ok i else .error .controlFields

/-- A data word: bit 3 chooses the batch or the tail form, bits 2 to 0 the width (30_encoding.md R105). -/
def dataUop (w : BitVec 8) (batch tail : Width → Instr) : Except DecodeError Instr :=
  match decodeWidth (w.extractLsb' 0 3) with
  | some n => .ok (if w.getLsbD 3 then tail n else batch n)
  | none => .error .reservedWidth

/-- The micro-operation a UOP word names in the format's map (30_encoding.md R105 to R108); which of them an instance has is
`Machine.decodeUopFor`'s. -/
def decodeUop (w : BitVec 8) : Except DecodeError Instr :=
  match (w.extractLsb' 4 4).toNat with
  | 0x0 => controlUop w .idle
  | 0x1 => controlUop w .setup
  | 0x2 => controlUop w .arb
  | 0x3 => controlUop w .tadj
  | 0x4 => dataUop w .ldin .ldinT
  | 0x5 => dataUop w .ctrgen .ctrgenT
  | 0x6 => dataUop w .xorin .xorinT
  | 0x7 => dataUop w .kcall .kcallT
  | 0x8 => dataUop w .xorout .xoroutT
  | 0x9 => dataUop w .stout .stoutT
  | 0xA => dataUop w .adv .advT
  | 0xB => controlUop w .finish
  | 0xF => controlUop w .fault
  | _ => .error .reservedOp

/-- The doorbell a word written to CTRL rings: SRST wins over START, bits 31 to 2 are ignored
(30_encoding.md R99, 10_state.md R25). -/
def decodeDoorbell (w : BitVec 32) : Except DecodeError Instr :=
  if w.getLsbD 1 then .ok .srst
  else if w.getLsbD 0 then .ok .start
  else .error .noDoorbell

/-- The descriptor whose registers are laid out in one number: FLAGS in bits 31 to 0, as the opcode table
numbers the row, then SUBKEYS, ROUNDS, INPTR, XORPTR, OUTPTR, LENGTH (30_encoding.md R91; the layout is the
model's, entry 11). Every descriptor is a command: reserved flag bits are refused by SETUP, not here
(30_encoding.md R95; entry 12). -/
def descriptorOfNat (n : Nat) : Descriptor :=
  { flags   := BitVec.ofNat 32 n
    subkeys := BitVec.ofNat 64 (n / 2 ^ 32)
    rounds  := BitVec.ofNat 32 (n / 2 ^ 32 / 2 ^ 64)
    inPtr   := BitVec.ofNat 64 (n / 2 ^ 32 / 2 ^ 64 / 2 ^ 32)
    xorPtr  := BitVec.ofNat 64 (n / 2 ^ 32 / 2 ^ 64 / 2 ^ 32 / 2 ^ 64)
    outPtr  := BitVec.ofNat 64 (n / 2 ^ 32 / 2 ^ 64 / 2 ^ 32 / 2 ^ 64 / 2 ^ 64)
    length  := BitVec.ofNat 64 (n / 2 ^ 32 / 2 ^ 64 / 2 ^ 32 / 2 ^ 64 / 2 ^ 64 / 2 ^ 64) }

/-- How many bytes an operation of a format has: seven registers, the doorbell word, the UOP word. -/
def formatBytes : Format → Nat
  | .cmd => 48
  | .db => 4
  | .uop => 1

/-- The operation a number names in a format. -/
def decodeNat (fmt : Format) (n : Nat) : Except DecodeError Instr :=
  match fmt with
  | .cmd => .ok (.process (descriptorOfNat n))
  | .db => decodeDoorbell (BitVec.ofNat 32 n)
  | .uop => decodeUop (BitVec.ofNat 8 n)

/-- The operation at the head of any bytes, read in a format, and the bytes after it; least significant byte
first (20_memory.md R66; entry 11). -/
def decode (fmt : Format) (bs : List Byte) : Except DecodeError (Instr × List Byte) :=
  if bs.length < formatBytes fmt then .error .tooShort
  else match decodeNat fmt (Machine.leNat (bs.take (formatBytes fmt))) with
    | .ok i => .ok (i, bs.drop (formatBytes fmt))
    | .error e => .error e

/-! ### The encoder -/

/-- A micro-operation word `oooo t www` (30_encoding.md R105). -/
def uopWord (op : BitVec 4) (t : Bool) (w : BitVec 3) : BitVec 8 := op ++ BitVec.ofBool t ++ w

/-- The `w` field of a width. -/
def widthField (w : Width) : BitVec 3 := BitVec.ofNat 3 w.regs

/-- The UOP word of a micro-operation (30_encoding.md R107); the host's operations have none. -/
def encodeUop : Instr → Option (BitVec 8)
  | .process _ => none
  | .start => none
  | .srst => none
  | .idle => some (uopWord 0x0#4 false 0#3)
  | .setup => some (uopWord 0x1#4 false 0#3)
  | .arb => some (uopWord 0x2#4 false 0#3)
  | .tadj => some (uopWord 0x3#4 false 0#3)
  | .ldin w => some (uopWord 0x4#4 false (widthField w))
  | .ldinT w => some (uopWord 0x4#4 true (widthField w))
  | .ctrgen w => some (uopWord 0x5#4 false (widthField w))
  | .ctrgenT w => some (uopWord 0x5#4 true (widthField w))
  | .xorin w => some (uopWord 0x6#4 false (widthField w))
  | .xorinT w => some (uopWord 0x6#4 true (widthField w))
  | .kcall w => some (uopWord 0x7#4 false (widthField w))
  | .kcallT w => some (uopWord 0x7#4 true (widthField w))
  | .xorout w => some (uopWord 0x8#4 false (widthField w))
  | .xoroutT w => some (uopWord 0x8#4 true (widthField w))
  | .stout w => some (uopWord 0x9#4 false (widthField w))
  | .stoutT w => some (uopWord 0x9#4 true (widthField w))
  | .adv w => some (uopWord 0xA#4 false (widthField w))
  | .advT w => some (uopWord 0xA#4 true (widthField w))
  | .finish => some (uopWord 0xB#4 false 0#3)
  | .fault => some (uopWord 0xF#4 false 0#3)

/-- The format an operation belongs to (30_encoding.md R90). -/
def formatOf : Instr → Format
  | .process _ => .cmd
  | .start => .db
  | .srst => .db
  | .idle => .uop
  | .setup => .uop
  | .arb => .uop
  | .tadj => .uop
  | .ldin _ => .uop
  | .ldinT _ => .uop
  | .ctrgen _ => .uop
  | .ctrgenT _ => .uop
  | .xorin _ => .uop
  | .xorinT _ => .uop
  | .kcall _ => .uop
  | .kcallT _ => .uop
  | .xorout _ => .uop
  | .xoroutT _ => .uop
  | .stout _ => .uop
  | .stoutT _ => .uop
  | .adv _ => .uop
  | .advT _ => .uop
  | .finish => .uop
  | .fault => .uop

/-- The number of a descriptor, in the layout of `descriptorOfNat`. -/
def descriptorNat (d : Descriptor) : Nat :=
  d.flags.toNat + 2 ^ 32 * (d.subkeys.toNat + 2 ^ 64 * (d.rounds.toNat + 2 ^ 32 * (d.inPtr.toNat
    + 2 ^ 64 * (d.xorPtr.toNat + 2 ^ 64 * (d.outPtr.toNat + 2 ^ 64 * d.length.toNat)))))

/-- The number of a micro-operation's UOP word. -/
def uopNat (i : Instr) : Nat := ((encodeUop i).getD 0#8).toNat

/-- The number of an operation in its format: START is 0x1 and SRST is 0x2 (30_encoding.md R99). -/
def encodeNat : Instr → Nat
  | .process d => descriptorNat d
  | .start => 0x00000001
  | .srst => 0x00000002
  | .idle => uopNat .idle
  | .setup => uopNat .setup
  | .arb => uopNat .arb
  | .tadj => uopNat .tadj
  | .ldin w => uopNat (.ldin w)
  | .ldinT w => uopNat (.ldinT w)
  | .ctrgen w => uopNat (.ctrgen w)
  | .ctrgenT w => uopNat (.ctrgenT w)
  | .xorin w => uopNat (.xorin w)
  | .xorinT w => uopNat (.xorinT w)
  | .kcall w => uopNat (.kcall w)
  | .kcallT w => uopNat (.kcallT w)
  | .xorout w => uopNat (.xorout w)
  | .xoroutT w => uopNat (.xoroutT w)
  | .stout w => uopNat (.stout w)
  | .stoutT w => uopNat (.stoutT w)
  | .adv w => uopNat (.adv w)
  | .advT w => uopNat (.advT w)
  | .finish => uopNat .finish
  | .fault => uopNat .fault

/-- The bytes of an operation in its format, least significant first (entry 11). -/
def encode (i : Instr) : List Byte := Machine.leBytes (formatBytes (formatOf i)) (encodeNat i)

/-! ### The opcode table's words -/

/-- The format of a word of the opcode table. CMD and DB rows have both 32 bits and share words (0x1 is START and
the flag word of `PROCESS {C}`); only the register the word is written to tells them apart. A word whose bits
31 to 5 are 0 is read as a flag word, but for the doorbells 0x1, 0x2 and 0x3 of R99 (DESIGN CHOICE,
entry 10). -/
def tableFormat (nbits w : Nat) : Format :=
  if nbits ≤ 8 then .uop
  else if w % 2 ^ 32 < 32 ∧ w ≠ 1 ∧ w ≠ 2 ∧ w ≠ 3 then .cmd
  else .db

/-- The operation the decoder reads from a word of the opcode table, operand words above `nbits` being
zero. -/
def decodeTableWord (nbits w : Nat) : Option Instr :=
  let fmt := tableFormat nbits w
  match decode fmt (Machine.leBytes (formatBytes fmt) (w % 2 ^ nbits)) with
  | .ok (i, _) => some i
  | .error _ => none

end Sys2Proof
end

