-- ==== Sys2Proof/Machine/Operands.lean ====
section
/-! DEFINITION. What the operations draw from the configuration and how they form addresses and strides
(00_scope.md R5, R6, R8; 40_command_setup.md R126, R128; 44_tail.md R181). -/

namespace Sys2Proof.Machine

/-- `B` (00_scope.md R5). -/
def blockBytes (c : Config) : Nat := c.block.bytes

/-- `BPV = V / B`, the block lanes of a vector register (00_scope.md R5). -/
def lanesPerReg (c : Config) : Nat := vecBytes / blockBytes c

/-- `BATCHSET`: the widths whose one call consumes more than one block, `w * V > B`, in `KW` order
(00_scope.md R6). -/
def batchSet (c : Config) : List Width := c.kw.filter fun w => blockBytes c < w.regs * vecBytes

/-- `WN`, the narrowest width, the last entry of `KW` (00_scope.md R5). -/
def narrowest (c : Config) : Width := c.kw.getLastD .w1

/-- The micro-operations an instance has: batch forms of a width in `KW`, tail forms of width `WN`, the control words
(30_encoding.md R106, 93 U45; entry 14). The host's operations are no micro-operations. -/
def instanceHas (c : Config) : Instr → Bool
  | .process _ => false
  | .start => false
  | .srst => false
  | .idle => true
  | .setup => true
  | .arb => true
  | .tadj => true
  | .ldin w => c.kw.contains w
  | .ldinT w => w == narrowest c
  | .ctrgen w => c.kw.contains w
  | .ctrgenT w => w == narrowest c
  | .xorin w => c.kw.contains w
  | .xorinT w => w == narrowest c
  | .kcall w => c.kw.contains w
  | .kcallT w => w == narrowest c
  | .xorout w => c.kw.contains w
  | .xoroutT w => w == narrowest c
  | .stout w => c.kw.contains w
  | .stoutT w => w == narrowest c
  | .adv w => c.kw.contains w
  | .advT w => w == narrowest c
  | .finish => true
  | .fault => true

/-- The decoder of one instance's UOP register: the words of the map that the instance has, every other word invalid
(30_encoding.md R108, 93 U45). -/
def decodeUopFor (c : Config) (u : BitVec 8) : Except DecodeError Instr :=
  match decodeUop u with
  | .ok i => if instanceHas c i then .ok i else .error .foreignWidth
  | .error e => .error e

/-- `CTRW`, how many trailing bytes of the counter block the adder spans: 16 for `B = 16`, `CTR8W` for `B = 8`
(43_counter.md R170, R171). -/
def counterBytes (c : Config) : Nat :=
  match c.block with
  | .b16 => 16
  | .b8 => if c.ctr8w8 then 8 else 4

/-- The address of unit `i` of a cursor, `CUR + i * STR` modulo `2^64` (00_scope.md R8, 20_memory.md R63). -/
def unitAddr (cur str : Addr) (i : Nat) : Addr := cur + BitVec.ofNat 64 i * str

/-- `+V` as a stride. -/
def strideV : Addr := BitVec.ofNat 64 vecBytes

/-- `+B` as a stride. -/
def strideB (c : Config) : Addr := BitVec.ofNat 64 (blockBytes c)

/-- One increment of the stride multiplexer: 0 if frozen, else one native vector width, negated in reverse
direction (40_command_setup.md R126, R128). -/
def startStride (frozen reverse : Bool) : Addr :=
  let str := if frozen then 0#64 else strideV
  if reverse then -str else str

/-- A start cursor: the operand pointer, in reverse direction pre-advanced by `LENGTH - V`
(40_command_setup.md R127, R128). -/
def startCursor (reverse : Bool) (ptr length : Addr) : Addr :=
  if reverse then ptr + length - strideV else ptr

/-- TADJ on one stride: `+V` becomes `+B`, `-V` becomes `-B`, a frozen stride stays (44_tail.md R181). -/
def tailStride (c : Config) (str : Addr) : Addr :=
  if str = strideV then strideB c else if str = -strideV then -strideB c else str

/-- TADJ on one cursor: with stride `-V` it moves up by `V - B` to the last single block, else it stays
(44_tail.md R181). -/
def tailCursor (c : Config) (cur str : Addr) : Addr :=
  if str = -strideV then cur + (strideV - strideB c) else cur

end Sys2Proof.Machine
end

