-- ==== Sys2Proof/Machine/State.lean ====
section
/-! DEFINITION. The state of one MBD instance and of what stands at its ports: all of 10_state.md, the data space of
20_memory.md R60, the memory port's map, and the host's pending actions. Plain data. -/

namespace Sys2Proof.Machine

/-- The causes of the MBD's faults (60_exceptions.md R211). -/
inductive Cause where
  | nullSubkeys | nullIn | nullOut | lenShort | badFlags | bus | crRefused
deriving DecidableEq, Repr

/-- Why a step stops. -/
inductive Fault where
  /-- Raised by the step when UOP holds a word the instance's decoder calls invalid: 'they have no behaviour'
  (30_encoding.md R108, 93 U45). Safe: the sequencer never produces one (entry 13). -/
  | reservedUop (word : BitVec 8)
deriving DecidableEq, Repr

/-- Why the model gives no meaning. -/
inductive Refusal where
  /-- Raised by an arm of `exec` whose instruction has no meaning yet. Safe. No arm raises it. -/
  | notModelled (mnemonic : String)
  /-- Raised by an access of a micro-operation to a range of device memory: 'outside the spec; a model refuses it'
  (20_memory.md R69, 93 U25). Safe (entry 6). The address is the access's start address. -/
  | deviceMemory (addr : Addr)
  /-- Raised by the step when the host stores to a byte of the running command's footprint, counter block or subkey
  table: 'a model gives such a run no meaning' (70_reset_and_hazards.md R250, 20_memory.md R68, 93 U24). Unsafe if a
  platform lets it happen (entry 8). -/
  | hostStoreDuringCommand (addr : Addr)
deriving DecidableEq, Repr

/-- What a range of the data space answers at the memory port (20_memory.md R69, R75, R77). -/
inductive PortKind where
  /-- Reads are answered with an error. -/
  | refuseRead
  /-- Writes are answered with an error. -/
  | refuseWrite
  /-- Every request is answered with an error: unmapped. -/
  | refuseAll
  /-- Memory with read side effects. -/
  | device
deriving DecidableEq, Repr

/-- A range `[base, base + size)` of the data space that is not plain memory. -/
structure PortRegion where
  base : Nat
  size : Nat
  kind : PortKind
deriving DecidableEq, Repr

/-- What the host and the platform do to the MBD, one at a time, each between two micro-operations
(41_arbiter.md R145; entry 7). -/
inductive HostEvent where
  /-- Nothing: the sequencer executes one micro-operation. -/
  | turn
  /-- A write of `value`, `bits` wide, at a byte offset of the host port (10_state.md R21). -/
  | write (offset bits : Nat) (value : BitVec 64)
  /-- A read, `bits` wide, at a byte offset of the host port (10_state.md R21). -/
  | read (offset bits : Nat)
  /-- The pseudo-instruction PROCESS (30_encoding.md R101). -/
  | command (d : Descriptor)
  /-- A store of one byte into memory by the host (20_memory.md R72). -/
  | store (addr : Addr) (value : Byte)
  /-- The platform's reset input (70_reset_and_hazards.md R240). -/
  | resetInput
deriving DecidableEq, Repr

/-- The data space: the bytes that differ from `unwrittenByte`, by strictly rising address. -/
abbrev Memory := List Host.Cell

/-- What a byte that nothing has written reads as. DESIGN CHOICE: 0; the spec states no contents of the platform's
memory (entry 4). Unsafe. -/
def unwrittenByte : Byte := 0#8

/-- The canonical form: addresses strictly rising and below `2^64`, no entry equal to what an unlisted address reads
as. -/
def Memory.wf : Memory → Bool
  | [] => true
  | [(a, b)] => decide (a < 2 ^ 64) && decide (b ≠ unwrittenByte)
  | (a, b) :: (a', b') :: r =>
    decide (a < a') && decide (b ≠ unwrittenByte) && Memory.wf ((a', b') :: r)

/-- The state (10_state.md R20). -/
structure State where
  /-- SUBKEYS (10_state.md R21). -/
  subkeys   : Addr
  /-- ROUNDS (R21, R23). -/
  rounds    : BitVec 32
  /-- INPTR (R21). -/
  inPtr     : Addr
  /-- XORPTR (R21). -/
  xorPtr    : Addr
  /-- OUTPTR (R21). -/
  outPtr    : Addr
  /-- LENGTH (R21). -/
  length    : BitVec 64
  /-- FLAGS (R21, R24). -/
  flags     : BitVec 32
  /-- STATUS.BUSY (R26). -/
  busy      : Bool
  /-- STATUS.DONE (R26). -/
  done      : Bool
  /-- STATUS.FAULT (R26). -/
  fault     : Bool
  /-- CAUSE, shown in STATUS[7:4] (R40). -/
  cause     : BitVec 4
  /-- UOP, the word of the next micro-operation, shown in STATUS[15:8] (R44). -/
  uop       : BitVec 8
  /-- TAILMODE, shown in STATUS[3] (R38). -/
  tailMode  : Bool
  /-- REMAINDER (R27). -/
  remainder : BitVec 64
  /-- FADDR (R29, R40). -/
  fAddr     : Addr
  /-- The configuration CONFIG shows (R28, 00_scope.md R5). -/
  cfg       : Config
  /-- SK (R32). -/
  sk        : Addr
  /-- RND (R32). -/
  rnd       : BitVec 32
  /-- F (R33). -/
  f         : BitVec 5
  /-- XNULL (R34). -/
  xNull     : Bool
  /-- INCUR (R35). -/
  inCur     : Addr
  /-- XORCUR (R35). -/
  xorCur    : Addr
  /-- OUTCUR (R35). -/
  outCur    : Addr
  /-- INSTR (R36), `AW`-bit two's complement (00_scope.md R13). -/
  inStr     : Addr
  /-- XORSTR (R36). -/
  xorStr    : Addr
  /-- OUTSTR (R36). -/
  outStr    : Addr
  /-- LENREM (R37). -/
  lenRem    : BitVec 64
  /-- W (R39). -/
  w         : BitVec 3
  /-- VR[0..5] (R41). -/
  vr        : Vector VReg 6
  /-- The data space behind the memory port (20_memory.md R60). -/
  mem       : Memory
  /-- The platform's map of ranges that are not plain memory (20_memory.md R69, R75, R77; entry 5). -/
  port      : List PortRegion
  /-- The model's own: the host's pending actions (entry 7). -/
  hostq     : List HostEvent
  /-- The model's own: what the host's last register read returned (entry 18). -/
  hostData  : BitVec 64
  /-- The model's own: how many free values have been drawn (entry 3). -/
  freeIx    : Nat
deriving DecidableEq, Repr

/-- An instance of configuration `c` right after reset (10_state.md R47, 70_reset_and_hazards.md R241). VR is unspecified
there: zero is the model's choice (entry 2), as are the empty memory (entry 4), port map (entry 5) and
queue (entry 7). -/
def State.resetOf (c : Config) : State :=
  { subkeys := 0, rounds := 0, inPtr := 0, xorPtr := 0, outPtr := 0, length := 0, flags := 0
    busy := false, done := false, fault := false, cause := 0, uop := 0x00, tailMode := false
    remainder := 0, fAddr := 0, cfg := c
    sk := 0, rnd := 0, f := 0, xNull := false
    inCur := 0, xorCur := 0, outCur := 0, inStr := 0, xorStr := 0, outStr := 0
    lenRem := 0, w := 0, vr := Vector.replicate 6 0
    mem := [], port := [], hostq := [], hostData := 0, freeIx := 0 }

/-- The machine right after reset: the standard instance (entry 1). -/
def State.reset : State := State.resetOf Config.standard

end Sys2Proof.Machine
end

