-- ==== Sys2Proof/Machine/Flags.lean ====
section
/-! DEFINITION. The mode flags, the predicates drawn from them, and the composed read-only registers
(00_scope.md R11, R12; 10_state.md R24, R26, R28, R36). The MBD has no condition codes (10_state.md R45). -/

namespace Sys2Proof.Machine

/-- `C`, InBlockIsCounter: bit 0 of the latched flags (00_scope.md R11, 10_state.md R24). -/
def flagC (s : State) : Bool := s.f.getLsbD 0

/-- `D`, DontIncrementInOutPointers: bit 1. -/
def flagD (s : State) : Bool := s.f.getLsbD 1

/-- `X`, XorInput: bit 2. -/
def flagX (s : State) : Bool := s.f.getLsbD 2

/-- `R`, ReverseDirection: bit 3. -/
def flagR (s : State) : Bool := s.f.getLsbD 3

/-- `P`, AllowParallel: bit 4. -/
def flagP (s : State) : Bool := s.f.getLsbD 4

/-- `xor_in = X and not XNULL` (00_scope.md R12). -/
def xorIn (s : State) : Bool := flagX s && !s.xNull

/-- `xor_out = (not X) and not XNULL` (00_scope.md R12). -/
def xorOut (s : State) : Bool := !flagX s && !s.xNull

/-- STATUS: UOP in bits 15 to 8, CAUSE in 7 to 4, then TAILMODE, FAULT, DONE, BUSY; bits 31 to 16 read 0
(10_state.md R26). -/
def statusWord (s : State) : BitVec 32 :=
  0#16 ++ s.uop ++ s.cause ++ BitVec.ofBool s.tailMode ++ BitVec.ofBool s.fault
    ++ BitVec.ofBool s.done ++ BitVec.ofBool s.busy

/-- The width at place `i` of `KW`, 0 where there is none (10_state.md R28). -/
def kwField (c : Config) (i : Nat) : BitVec 3 :=
  match c.kw[i]? with
  | some w => widthField w
  | none => 0#3

/-- CONFIG: CRREF, CTR8W8, ASSERT_EN in bits 12 to 10, KW3, KW2, KW1 in 9 to 1, B8 in 0; bits 31 to 13 read 0
(10_state.md R28). -/
def configWord (c : Config) : BitVec 32 :=
  0#19 ++ BitVec.ofBool (c.crPolicy == .refuse) ++ BitVec.ofBool c.ctr8w8 ++ BitVec.ofBool c.assertEn
    ++ kwField c 2 ++ kwField c 1 ++ kwField c 0 ++ BitVec.ofBool (c.block == .b8)

/-- STRIDES: OUTSTR, XORSTR, INSTR as signed 8-bit fields; bits 31 to 24 read 0 (10_state.md R36). -/
def stridesWord (s : State) : BitVec 32 :=
  0#8 ++ s.outStr.setWidth 8 ++ s.xorStr.setWidth 8 ++ s.inStr.setWidth 8

end Sys2Proof.Machine
end

