-- ==== Sys2Proof/Machine/Ops.lean ====
section
/-! DEFINITION. The named operations over memory, the memory port, the register file, the host port and the
sequencer; taking a fault and leaving one; the counter adder and the kernel call. -/

namespace Sys2Proof.Machine

/-! ### The data space (20_memory.md R60) -/

/-- The byte at an address (20_memory.md R61). -/
def Memory.read : Memory → Nat → Byte
  | [], _ => unwrittenByte
  | (a', b) :: r, a => if a' = a then b else Memory.read r a

/-- One byte stored, the canonical form kept (20_memory.md R62). -/
def Memory.write : Memory → Nat → Byte → Memory
  | [], a, v => if v = unwrittenByte then [] else [(a, v)]
  | (a', b) :: r, a, v =>
    if a < a' then (if v = unwrittenByte then (a', b) :: r else (a, v) :: (a', b) :: r)
    else if a = a' then (if v = unwrittenByte then r else (a, v) :: r)
    else (a', b) :: Memory.write r a v

/-- The byte at an address of `AW` bits. -/
def byteAt (m : Memory) (a : Addr) : Byte := Memory.read m a.toNat

/-- The bytes at `a, a+1, ..., a+n-1`, each address modulo `2^AW` (00_scope.md R10, 20_memory.md R61). -/
def bytesAt (m : Memory) (a : Addr) (n : Nat) : List Byte :=
  (List.range n).map fun i => byteAt m (a + BitVec.ofNat 64 i)

/-- The memory with byte `v[i]` at `a + i`, each address modulo `2^AW` (00_scope.md R10, 20_memory.md R62). -/
def storeBytes (m : Memory) (a : Addr) : List Byte → Memory
  | [] => m
  | v :: vs => storeBytes (Memory.write m a.toNat v) (a + 1#64) vs

/-! ### The memory port (20_memory.md R61, R62, R69, R76, R77) -/

/-- The port's answer to a request. -/
inductive PortAnswer where
  | accept | error | device
deriving DecidableEq, Repr

/-- The kind of a request. -/
inductive Access where
  | read | write
deriving DecidableEq, Repr

/-- A range refuses an access of this kind (20_memory.md R77). -/
def refuses (k : PortKind) (acc : Access) : Bool :=
  match k, acc with
  | .refuseRead, .read => true
  | .refuseWrite, .write => true
  | .refuseAll, _ => true
  | _, _ => false

/-- A request for `n` bytes at `a` has a byte in the range. -/
def touches (r : PortRegion) (a : Addr) (n : Nat) : Bool :=
  decide (r.base < a.toNat + n) && decide (a.toNat < r.base + r.size)

/-- The port's answer to a request for `n` bytes at `a`: an error if the bytes cross `2^64` (20_memory.md R76), no
meaning if a byte is device memory (R69), an error if a byte's range refuses the access (R77). -/
def portAnswer (port : List PortRegion) (acc : Access) (a : Addr) (n : Nat) : PortAnswer :=
  if 2 ^ 64 < a.toNat + n then .error
  else if port.any fun r => r.kind == .device && touches r a n then .device
  else if port.any fun r => refuses r.kind acc && touches r a n then .error
  else .accept

/-- How far a micro-operation got: through, up to an access the port refused, or up to an access to device
memory. -/
inductive Progress where
  | done (s : State)
  | bus (s : State) (addr : Addr)
  | device (addr : Addr)
deriving DecidableEq, Repr

/-- `MemRead(addr, n)` and what the micro-operation does with the bytes; on an error it goes no further
(20_memory.md R61). -/
def memRead (s : State) (a : Addr) (n : Nat) (k : List Byte → Progress) : Progress :=
  match portAnswer s.port .read a n with
  | .accept => k (bytesAt s.mem a n)
  | .error => .bus s a
  | .device => .device a

/-- `MemWrite(addr, n, v)` with `n` the number of bytes of `v`; on an error no byte is stored and the micro-operation
goes no further (20_memory.md R62). -/
def memWrite (s : State) (a : Addr) (v : List Byte) : Progress :=
  match portAnswer s.port .write a v.length with
  | .accept => .done { s with mem := storeBytes s.mem a v }
  | .error => .bus s a
  | .device => .device a

/-- `unit 0`, `unit 1`, ..., `unit (n-1)` in ascending order, ending at the first refused access
(20_memory.md R63, R70). -/
def forUnits (unit : Nat → State → Progress) : Nat → State → Progress
  | 0, s => .done s
  | n + 1, s =>
    match forUnits unit n s with
    | .done t => unit n t
    | .bus t a => .bus t a
    | .device a => .device a

/-! ### The vector register file (10_state.md R41) -/

/-- `VR[i]`. -/
def vreg (s : State) (i : Nat) : VReg := s.vr.getD i 0

/-- `VR[i] <- r`. -/
def setVreg (s : State) (i : Nat) (r : VReg) : State := { s with vr := s.vr.setIfInBounds i r }

/-- `VR[i] <- g i VR[i]` for `i = 0 .. n-1`. -/
def updateVregs (g : Nat → VReg → VReg) : Nat → State → State
  | 0, s => s
  | n + 1, s =>
    let t := updateVregs g n s
    setVreg t n (g n (vreg t n))

/-! ### Taking a fault and leaving one (60_exceptions.md R214, R216) -/

/-- The code of a cause (60_exceptions.md R211). -/
def causeCode : Cause → BitVec 4
  | .nullSubkeys => 1
  | .nullIn => 2
  | .nullOut => 3
  | .lenShort => 4
  | .badFlags => 5
  | .bus => 6
  | .crRefused => 7

/-- `UOP <- i` (00_scope.md R10). -/
def setUop (s : State) (i : Instr) : State := { s with uop := (encodeUop i).getD s.uop }

/-- Fault entry, `raise Fault(cause, info)`: the record, FAULT <- 1, BUSY <- 0, DONE <- 0, UOP <- FAULT, nothing else
(60_exceptions.md R214). -/
def raiseFault (s : State) (c : Cause) (info : Addr) : State :=
  { s with cause := causeCode c, fAddr := if c = .bus then info else 0, fault := true, busy := false,
           done := false, uop := 0xF0#8 }

/-- The reset action, which is also the only way out of the fault state (70_reset_and_hazards.md R240, R241;
60_exceptions.md R216): every register as after reset, VR unspecified (a free value each, entry 3), the
configuration, the memory, the port's map and the host's own fields as they were. -/
def resetInstance (s : State) : State :=
  { State.resetOf s.cfg with
    vr := Vector.ofFn fun i => Config.freeVReg (s.freeIx + i.val)
    mem := s.mem, port := s.port, hostq := s.hostq, hostData := s.hostData, freeIx := s.freeIx + 6 }

/-- The end of a micro-operation: its successor becomes UOP; a refused access takes the BUS fault with the access's
start address (60_exceptions.md R213, 41_arbiter.md R143); device memory has no meaning (20_memory.md R69). -/
def endUop (p : Progress) (next : Instr) : Host.Outcome State Fault Refusal :=
  match p with
  | .done s => .next (setUop s next)
  | .bus s a => .next (raiseFault s .bus a)
  | .device a => .refused (.deviceMemory a)

/-! ### The counter adder (43_counter.md R170) -/

/-- `ctr_add(blk, n)`: the trailing `CTRW` bytes, big-endian, plus `n` modulo `2^(8*CTRW)`; the leading bytes stay
(43_counter.md R170). -/
def ctrAdd (c : Config) (blk : List Byte) (n : Nat) : List Byte :=
  let head := blk.take (blockBytes c - counterBytes c)
  let tail := blk.drop (blockBytes c - counterBytes c)
  head ++ beBytes (counterBytes c) ((beInt tail + n) % 2 ^ (8 * counterBytes c))

/-- Vector register `i` of a counter batch: lanes `i*BPV .. i*BPV + BPV-1` of the pattern, lower address first
(43_counter.md R172, R174). -/
def counterReg (c : Config) (ctr : List Byte) (i : Nat) : VReg :=
  regOfBytes ((List.range (lanesPerReg c)).flatMap fun k => ctrAdd c ctr (i * lanesPerReg c + k))

/-! ### The XOR chaining unit (42_batch_datapath.md R153) -/

/-- Byte-by-byte exclusive or (00_scope.md R9, 42_batch_datapath.md R153). -/
def xorBytes (a b : List Byte) : List Byte := List.zipWith (· ^^^ ·) a b

/-! ### The kernel port (45_kernel_port.md) -/

/-- How many bytes of the subkey table a kernel family reads (45_kernel_port.md R200, R201, R202). -/
def tableBytes (c : Config) (rnd : BitVec 32) : Nat :=
  match c.kernel with
  | .family id => Config.tableLen id rnd
  | .kx => blockBytes c
  | .ka => blockBytes c
  | .ks => blockBytes c

/-- `E`, the block transform of the wired family (45_kernel_port.md R196, R201, R202). -/
def blockE (c : Config) (table : List Byte) (rnd : BitVec 32) (blk : List Byte) : List Byte :=
  match c.kernel with
  | .family id => (List.range blk.length).map fun i => Config.cipherByte id table rnd blk i
  | .kx => List.zipWith (· ^^^ ·) blk table
  | .ka => List.zipWith (· + ·) blk table
  | .ks => List.zipWith (· - ·) blk table

/-- The reply for one register: `E` on each block lane (45_kernel_port.md R196). -/
def kernelReg (c : Config) (table : List Byte) (rnd : BitVec 32) (r : VReg) : VReg :=
  regOfBytes ((List.range (lanesPerReg c)).flatMap fun k =>
    blockE c table rnd (regSlice r (k * blockBytes c) (blockBytes c)))

/-- `(VR[0], ..., VR[w-1]) <- KernelCall(w, (VR[0], ..., VR[w-1]), SK, RND)` (45_kernel_port.md R195). The kernel reads
the subkey table at SK by its own path, as memory holds it now (20_memory.md R60, 70_reset_and_hazards.md R255;
entry 9). -/
def kernelCall (s : State) (w : Nat) : State :=
  let table := bytesAt s.mem s.sk (tableBytes s.cfg s.rnd)
  updateVregs (fun _ r => kernelReg s.cfg table s.rnd r) w s

/-! ### START and the host port (40_command_setup.md R121, 10_state.md R21) -/

/-- START: accepted only when not busy and not faulted (40_command_setup.md R121). -/
def startCommand (s : State) : State :=
  if s.busy = false ∧ s.fault = false then { s with busy := true, done := false, uop := 0x10#8 } else s

/-- The width and the content of the register at an offset (10_state.md R21); CTRL reads 0. -/
def hostRegister (s : State) : Nat → Option (Nat × BitVec 64)
  | 0x00 => some (64, s.subkeys)
  | 0x08 => some (32, s.rounds.setWidth 64)
  | 0x10 => some (64, s.inPtr)
  | 0x18 => some (64, s.xorPtr)
  | 0x20 => some (64, s.outPtr)
  | 0x28 => some (64, s.length)
  | 0x30 => some (32, s.flags.setWidth 64)
  | 0x38 => some (32, 0)
  | 0x40 => some (32, (statusWord s).setWidth 64)
  | 0x48 => some (64, s.remainder)
  | 0x50 => some (32, (configWord s.cfg).setWidth 64)
  | 0x58 => some (64, s.fAddr)
  | 0x60 => some (64, s.inCur)
  | 0x68 => some (64, s.xorCur)
  | 0x70 => some (64, s.outCur)
  | 0x78 => some (64, s.lenRem)
  | 0x80 => some (32, (stridesWord s).setWidth 64)
  | _ => none

/-- A host read: the register's content, 0 for another width or an offset not in the table (10_state.md R21). -/
def hostReadValue (s : State) (offset bits : Nat) : BitVec 64 :=
  match hostRegister s offset with
  | some (w, v) => if w = bits then v else 0
  | none => 0

/-- A host write to an operand register: whole, of exactly its width, and dropped while BUSY; every other write but the
doorbell has no effect (10_state.md R21, R22; 93 U46, U47). -/
def hostWrite (s : State) (offset bits : Nat) (v : BitVec 64) : State :=
  if s.busy then s
  else match offset, bits with
    | 0x00, 64 => { s with subkeys := v }
    | 0x08, 32 => { s with rounds := v.setWidth 32 }
    | 0x10, 64 => { s with inPtr := v }
    | 0x18, 64 => { s with xorPtr := v }
    | 0x20, 64 => { s with outPtr := v }
    | 0x28, 64 => { s with length := v }
    | 0x30, 32 => { s with flags := v.setWidth 32 }
    | _, _ => s

end Sys2Proof.Machine
end

