-- ==== Sys2Proof/Machine/Command.lean ====
section
/-! DEFINITION. The host's operations: PROCESS, START, SRST (30_encoding.md R99, R101). -/

namespace Sys2Proof.Machine

/-- PROCESS: the seven operand writes and the doorbell, in one step (30_encoding.md R101, 40_command_setup.md R120;
entry 15). While BUSY all eight are dropped (10_state.md R22, R25); in the fault state the operand writes are accepted
and START is dropped (60_exceptions.md R216). -/
def execProcess (d : Descriptor) (s : State) : Host.Outcome State Fault Refusal :=
  let s := hostWrite s 0x00 64 d.subkeys
  let s := hostWrite s 0x08 32 (d.rounds.setWidth 64)
  let s := hostWrite s 0x10 64 d.inPtr
  let s := hostWrite s 0x18 64 d.xorPtr
  let s := hostWrite s 0x20 64 d.outPtr
  let s := hostWrite s 0x28 64 d.length
  let s := hostWrite s 0x30 32 (d.flags.setWidth 64)
  .next (startCommand s)

/-- START (40_command_setup.md R121). -/
def execStart (s : State) : Host.Outcome State Fault Refusal := .next (startCommand s)

/-- SRST: the reset action at any time (70_reset_and_hazards.md R241, 10_state.md R25). -/
def execSrst (s : State) : Host.Outcome State Fault Refusal := .next (resetInstance s)

end Sys2Proof.Machine
end

