-- ==== Sys2Proof/Machine/Datapath.lean ====
section
/-! DEFINITION. The data micro-operations that touch the three buffers: LDIN, XORIN, XOROUT, STOUT, batch and tail forms
(42_batch_datapath.md R150 to R158; 44_tail.md R183 to R187). -/

namespace Sys2Proof.Machine

/-- The successor of an assembly step, batch form (41_arbiter.md R143). -/
def afterLoad (s : State) (w : Width) : Instr := if xorIn s then .xorin w else .kcall w

/-- The successor of an assembly step, tail form (41_arbiter.md R143). -/
def afterLoadT (s : State) (w : Width) : Instr := if xorIn s then .xorinT w else .kcallT w

/-- `VR[i] <- MemRead(INCUR + i*INSTR, 16)` (42_batch_datapath.md R150). -/
def loadUnit (i : Nat) (s : State) : Progress :=
  memRead s (unitAddr s.inCur s.inStr i) vecBytes fun bs => .done (setVreg s i (regOfBytes bs))

/-- LDIN w (42_batch_datapath.md R150). -/
def execLdin (w : Width) (s : State) : Host.Outcome State Fault Refusal :=
  endUop (forUnits loadUnit w.regs s) (afterLoad s w)

/-- One block in lane 0 of `VR[0]`, every other lane of the `n` registers zero (44_tail.md R183). -/
def padTail (blk : List Byte) (n : Nat) (s : State) : State :=
  updateVregs (fun i _ => if i = 0 then regOfBytes (blk ++ zeros (vecBytes - blk.length)) else 0) n s

/-- LDIN.T WN (44_tail.md R183). -/
def execLdinT (w : Width) (s : State) : Host.Outcome State Fault Refusal :=
  endUop (memRead s s.inCur (blockBytes s.cfg) fun bs => .done (padTail bs w.regs s)) (afterLoadT s w)

/-- `VR[i] <- VR[i] xor MemRead(XORCUR + i*XORSTR, 16)` (42_batch_datapath.md R152, R153, R156). -/
def maskUnit (i : Nat) (s : State) : Progress :=
  memRead s (unitAddr s.xorCur s.xorStr i) vecBytes fun bs =>
    .done (setVreg s i (regOfBytes (xorBytes (regSlice (vreg s i) 0 vecBytes) bs)))

/-- `VR[0] <- (VR[0][0..B) xor MemRead(XORCUR, B)) ‖ VR[0][B..16)` (44_tail.md R184, R186). -/
def maskBlock (s : State) : Progress :=
  memRead s s.xorCur (blockBytes s.cfg) fun bs =>
    .done (setVreg s 0 (regOfBytes (xorBytes (regSlice (vreg s 0) 0 (blockBytes s.cfg)) bs
      ++ regSlice (vreg s 0) (blockBytes s.cfg) (vecBytes - blockBytes s.cfg))))

/-- XORIN w: the mask before the kernel (42_batch_datapath.md R152). -/
def execXorin (w : Width) (s : State) : Host.Outcome State Fault Refusal :=
  endUop (forUnits maskUnit w.regs s) (.kcall w)

/-- XORIN.T WN (44_tail.md R184). -/
def execXorinT (w : Width) (s : State) : Host.Outcome State Fault Refusal :=
  endUop (maskBlock s) (.kcallT w)

/-- XOROUT w: the mask after the kernel (42_batch_datapath.md R156). -/
def execXorout (w : Width) (s : State) : Host.Outcome State Fault Refusal :=
  endUop (forUnits maskUnit w.regs s) (.stout w)

/-- XOROUT.T WN (44_tail.md R186). -/
def execXoroutT (w : Width) (s : State) : Host.Outcome State Fault Refusal :=
  endUop (maskBlock s) (.stoutT w)

/-- `MemWrite(OUTCUR + i*OUTSTR, 16, VR[i])` (42_batch_datapath.md R158). -/
def storeUnit (i : Nat) (s : State) : Progress :=
  memWrite s (unitAddr s.outCur s.outStr i) (regSlice (vreg s i) 0 vecBytes)

/-- STOUT w (42_batch_datapath.md R158). -/
def execStout (w : Width) (s : State) : Host.Outcome State Fault Refusal :=
  endUop (forUnits storeUnit w.regs s) (.adv w)

/-- STOUT.T WN: exactly `B` bytes (44_tail.md R187). -/
def execStoutT (w : Width) (s : State) : Host.Outcome State Fault Refusal :=
  endUop (memWrite s s.outCur (regSlice (vreg s 0) 0 (blockBytes s.cfg))) (.advT w)

end Sys2Proof.Machine
end

