-- ==== Sys2Proof/Machine/Counter.lean ====
section
/-! DEFINITION. The counter synthesizer: CTRGEN in both forms (43_counter.md R172 to R176). -/

namespace Sys2Proof.Machine

/-- CTRGEN w: the counter is read, `w * BPV` consecutive values fill the registers, then the next unconsumed value is
written back (43_counter.md R172, R174, R175). -/
def execCtrgen (w : Width) (s : State) : Host.Outcome State Fault Refusal :=
  endUop (memRead s s.inCur (blockBytes s.cfg) fun ctr =>
    memWrite (updateVregs (fun i _ => counterReg s.cfg ctr i) w.regs s) s.inCur
      (ctrAdd s.cfg ctr (w.regs * lanesPerReg s.cfg))) (afterLoad s w)

/-- CTRGEN.T WN: one counter block, zero padding, write-back of the next value (43_counter.md R176). -/
def execCtrgenT (w : Width) (s : State) : Host.Outcome State Fault Refusal :=
  endUop (memRead s s.inCur (blockBytes s.cfg) fun ctr =>
    memWrite (padTail ctr w.regs s) s.inCur (ctrAdd s.cfg ctr 1)) (afterLoadT s w)

end Sys2Proof.Machine
end

