-- ==== Sys2Proof/Machine/Kernel.lean ====
section
/-! DEFINITION. KCALL in both forms: one request on the kernel port (42_batch_datapath.md R154; 44_tail.md R185). -/

namespace Sys2Proof.Machine

/-- KCALL w (42_batch_datapath.md R154). -/
def execKcall (w : Width) (s : State) : Host.Outcome State Fault Refusal :=
  .next (setUop (kernelCall s w.regs) (if xorOut s then .xorout w else .stout w))

/-- KCALL.T WN: the same request, another successor (44_tail.md R185). -/
def execKcallT (w : Width) (s : State) : Host.Outcome State Fault Refusal :=
  .next (setUop (kernelCall s w.regs) (if xorOut s then .xoroutT w else .stoutT w))

end Sys2Proof.Machine
end

