-- ==== Sys2Proof/Machine/Sequencer.lean ====
section
/-! DEFINITION. The control words of the sequencer: IDLE, ARB, FINISH, FAULT (41_arbiter.md R140, R143;
44_tail.md R190). -/

namespace Sys2Proof.Machine

/-- IDLE: no micro-operation is pending, the MBD stays idle (41_arbiter.md R143, 10_state.md R44). -/
def execIdle (s : State) : Host.Outcome State Fault Refusal := .next s

/-- FAULT: the halted sequencer takes no step; only a reset leaves (41_arbiter.md R143, 60_exceptions.md R216). Taking a
fault is `raiseFault`. -/
def execFault (s : State) : Host.Outcome State Fault Refusal := .next s

/-- The batch width ARB selects: the widest member of BATCHSET that LENREM allows, only with `TAILMODE = 0` and `P = 1`
(41_arbiter.md R140). -/
def arbBatch (s : State) : Option Width :=
  if s.tailMode = false ∧ flagP s = true then
    (batchSet s.cfg).find? fun w => decide (w.regs * vecBytes ≤ s.lenRem.toNat)
  else none

/-- `W <- w` (10_state.md R39). -/
def setW (s : State) (w : Width) : State := { s with w := widthField w }

/-- ARB (41_arbiter.md R140). -/
def execArb (s : State) : Host.Outcome State Fault Refusal :=
  match arbBatch s with
  | some w => .next (setUop (setW s w) (if flagC s then .ctrgen w else .ldin w))
  | none =>
    if blockBytes s.cfg ≤ s.lenRem.toNat then
      let w := narrowest s.cfg
      .next (setUop (setW s w)
        (if s.tailMode = false then .tadj else if flagC s then .ctrgenT w else .ldinT w))
    else .next (setUop s .finish)

/-- FINISH: the result, DONE, and back to idle (44_tail.md R190). -/
def execFinish (s : State) : Host.Outcome State Fault Refusal :=
  .next { s with remainder := s.lenRem, busy := false, done := true, uop := 0x00#8 }

end Sys2Proof.Machine
end

