-- ==== Sys2Proof/Machine/Stride.lean ====
section
/-! DEFINITION. The stride multiplexer: SETUP, TADJ, ADV, ADV.T (40_command_setup.md R122 to R131; 44_tail.md R181, R188;
42_batch_datapath.md R160). -/

namespace Sys2Proof.Machine

/-- SETUP's latch of the descriptor (40_command_setup.md R123). -/
def latch (s : State) : State :=
  { s with sk := s.subkeys, rnd := s.rounds, f := s.flags.extractLsb' 0 5, xNull := s.xorPtr == nullp }

/-- SETUP's precondition checks in the order of the codes, the first that fails (40_command_setup.md R124, R130;
60_exceptions.md R217). They read the latched flags. -/
def setupFault (s : State) : Option Cause :=
  if s.subkeys = nullp then some .nullSubkeys
  else if s.inPtr = nullp then some .nullIn
  else if s.outPtr = nullp then some .nullOut
  else if s.length.toNat < blockBytes s.cfg ∧ s.cfg.assertEn = true then some .lenShort
  else if s.flags.extractLsb' 5 27 ≠ 0#27 then some .badFlags
  else if flagC s = true ∧ flagR s = true ∧ s.cfg.crPolicy = .refuse then some .crRefused
  else none

/-- SETUP's strides, cursors and initialisation (40_command_setup.md R126 to R129). -/
def initCommand (s : State) : State :=
  { s with
    inStr  := startStride (flagC s || flagD s) (flagR s)
    xorStr := startStride s.xNull (flagR s)
    outStr := startStride (flagD s) (flagR s)
    inCur  := startCursor (flagR s) s.inPtr s.length
    xorCur := startCursor (flagR s) s.xorPtr s.length
    outCur := startCursor (flagR s) s.outPtr s.length
    lenRem := s.length, tailMode := false, w := 0#3 }

/-- SETUP (40_command_setup.md R122): a failed check takes its fault with only the latch done. -/
def execSetup (s : State) : Host.Outcome State Fault Refusal :=
  let s := latch s
  match setupFault s with
  | some c => .next (raiseFault s c 0)
  | none => .next (setUop (initCommand s) .arb)

/-- TADJ: the change of unit, once per command (44_tail.md R181). -/
def execTadj (s : State) : Host.Outcome State Fault Refusal :=
  let t := { s with
    inStr  := tailStride s.cfg s.inStr
    xorStr := tailStride s.cfg s.xorStr
    outStr := tailStride s.cfg s.outStr
    inCur  := tailCursor s.cfg s.inCur s.inStr
    xorCur := tailCursor s.cfg s.xorCur s.xorStr
    outCur := tailCursor s.cfg s.outCur s.outStr
    tailMode := true }
  .next (setUop t (if flagC s then .ctrgenT (narrowest s.cfg) else .ldinT (narrowest s.cfg)))

/-- The cursors moved by `n` units and LENREM lowered by `bytes` (42_batch_datapath.md R160, 44_tail.md R188). -/
def advance (s : State) (n bytes : Nat) : State :=
  { s with
    inCur  := unitAddr s.inCur s.inStr n
    xorCur := unitAddr s.xorCur s.xorStr n
    outCur := unitAddr s.outCur s.outStr n
    lenRem := s.lenRem - BitVec.ofNat 64 bytes }

/-- ADV w: `w` units of 16 bytes (42_batch_datapath.md R160). -/
def execAdv (w : Width) (s : State) : Host.Outcome State Fault Refusal :=
  .next (setUop (advance s w.regs (w.regs * vecBytes)) .arb)

/-- ADV.T WN: one block (44_tail.md R188). The width names the iteration and enters no computation. -/
def execAdvT (_w : Width) (s : State) : Host.Outcome State Fault Refusal :=
  .next (setUop (advance s 1 (blockBytes s.cfg)) .arb)

end Sys2Proof.Machine
end

