-- ==== Sys2Proof/Machine/Dispatch.lean ====
section
/-! DEFINITION. One arm per operation of spec/opcode_table.json. -/

namespace Sys2Proof.Machine

def exec (i : Instr) (s : State) : Host.Outcome State Fault Refusal :=
  match i with
  | .process d => Sys2Proof.Machine.execProcess d s
  | .start => Sys2Proof.Machine.execStart s
  | .srst => Sys2Proof.Machine.execSrst s
  | .idle => Sys2Proof.Machine.execIdle s
  | .setup => Sys2Proof.Machine.execSetup s
  | .arb => Sys2Proof.Machine.execArb s
  | .tadj => Sys2Proof.Machine.execTadj s
  | .ldin w => Sys2Proof.Machine.execLdin w s
  | .ldinT w => Sys2Proof.Machine.execLdinT w s
  | .ctrgen w => Sys2Proof.Machine.execCtrgen w s
  | .ctrgenT w => Sys2Proof.Machine.execCtrgenT w s
  | .xorin w => Sys2Proof.Machine.execXorin w s
  | .xorinT w => Sys2Proof.Machine.execXorinT w s
  | .kcall w => Sys2Proof.Machine.execKcall w s
  | .kcallT w => Sys2Proof.Machine.execKcallT w s
  | .xorout w => Sys2Proof.Machine.execXorout w s
  | .xoroutT w => Sys2Proof.Machine.execXoroutT w s
  | .stout w => Sys2Proof.Machine.execStout w s
  | .stoutT w => Sys2Proof.Machine.execStoutT w s
  | .adv w => Sys2Proof.Machine.execAdv w s
  | .advT w => Sys2Proof.Machine.execAdvT w s
  | .finish => Sys2Proof.Machine.execFinish s
  | .fault => Sys2Proof.Machine.execFault s

end Sys2Proof.Machine
end

