-- ==== Sys2Proof/Machine/Footprint.lean ====
section
/-! DEFINITION. The bytes of memory a command owns while it runs: its footprint and its subkey table
(20_memory.md R78, R80; 70_reset_and_hazards.md R250; 93 U24). -/

namespace Sys2Proof.Machine

/-- `n` bytes from an address, modulo `2^AW`. -/
structure ByteRange where
  base : Addr
  size : Nat
deriving DecidableEq, Repr

/-- An address lies in a range. -/
def inRange (a : Addr) (r : ByteRange) : Bool := decide ((a - r.base).toNat < r.size)

/-- The processed range of a buffer: `floor(LENGTH / B) * B` bytes, at the low end going forward and at the high end in
reverse (20_memory.md R78). -/
def processedRange (s : State) (ptr : Addr) : ByteRange :=
  let b := blockBytes s.cfg
  { base := if flagR s then ptr + BitVec.ofNat 64 (s.length.toNat % b) else ptr
    size := s.length.toNat / b * b }

/-- The command runs a batch iteration: `P = 1` and a width of BATCHSET fits LENGTH (41_arbiter.md R142). -/
def batchRuns (s : State) : Bool :=
  flagP s && (batchSet s.cfg).any fun w => decide (w.regs * vecBytes ≤ s.length.toNat)

/-- The unit at a frozen cursor (`D = 1`): 16 bytes if a batch form runs, `B` if only tail forms do, none if the command
has no block (20_memory.md R80, 42_batch_datapath.md R162). -/
def frozenUnit (s : State) (ptr : Addr) : ByteRange :=
  { base := startCursor (flagR s) ptr s.length
    size := if batchRuns s then vecBytes else if blockBytes s.cfg ≤ s.length.toNat then blockBytes s.cfg else 0 }

/-- The footprint of a latched command: the source, or the counter block when `C = 1`; the mask, when there is one; the
destination (20_memory.md R80). A command that SETUP refuses makes no access (40_command_setup.md R124). -/
def footprint (s : State) : List ByteRange :=
  if (setupFault s).isSome then []
  else
    let source :=
      if flagC s then { base := startCursor (flagR s) s.inPtr s.length, size := blockBytes s.cfg }
      else if flagD s then frozenUnit s s.inPtr
      else processedRange s s.inPtr
    let mask := if s.xNull then [] else [processedRange s s.xorPtr]
    let dest := if flagD s then frozenUnit s s.outPtr else processedRange s s.outPtr
    source :: dest :: mask

/-- The subkey table of a latched command; a null pointer names none (20_memory.md R75, 45_kernel_port.md R200;
entry 9). -/
def subkeyTable (s : State) : List ByteRange :=
  if s.sk = nullp then [] else [{ base := s.sk, size := tableBytes s.cfg s.rnd }]

/-- A byte of the command in the operand registers, which BUSY keeps as the host wrote them (10_state.md R22): no other
agent writes it while the command runs (70_reset_and_hazards.md R250). -/
def commandOwns (s : State) (a : Addr) : Bool :=
  (footprint (latch s)).any (inRange a) || (subkeyTable (latch s)).any (inRange a)

end Sys2Proof.Machine
end

