-- ==== Sys2Proof/Machine/Fetch.lean ====
section
/-! DEFINITION. What the next step does: the host's next pending action, or the micro-operation in UOP
(41_arbiter.md R145; entry 7). -/

namespace Sys2Proof.Machine

/-- What stands next. -/
inductive Fetched where
  /-- An operation to execute, and the state it is executed in. -/
  | run (i : Instr) (s : State)
  /-- A host access that is no operation of the table, and its effect. -/
  | host (s : State)
  /-- No meaning. -/
  | refuse (r : Refusal)
  /-- A word in UOP that the instance does not have. -/
  | stop (f : Fault)
deriving DecidableEq, Repr

/-- The micro-operation in UOP (10_state.md R44); a word the instance does not have has no behaviour
(30_encoding.md R108, 93 U45). -/
def fetchUop (s : State) : Fetched :=
  match decodeUopFor s.cfg s.uop with
  | .ok i => .run i s
  | .error _ => .stop (.reservedUop s.uop)

/-- The offset of CTRL (10_state.md R21). -/
def ctrlOffset : Nat := 0x38

/-- One action of the host. A whole write of CTRL is a doorbell, or nothing (30_encoding.md R99); PROCESS, the doorbells
and the platform's reset are operations; reads and other writes are accesses (10_state.md R21); a store to a byte of a
running command has no meaning, any other reaches memory (70_reset_and_hazards.md R250). -/
def fetchHost (e : HostEvent) (s : State) : Fetched :=
  match e with
  | .turn => fetchUop s
  | .command d => .run (.process d) s
  | .resetInput => .run .srst s
  | .write offset bits v =>
    if offset = ctrlOffset ∧ bits = 32 then
      match decodeDoorbell (v.setWidth 32) with
      | .ok i => .run i s
      | .error _ => .host s
    else .host (hostWrite s offset bits v)
  | .read offset bits => .host { s with hostData := hostReadValue s offset bits }
  | .store a v =>
    if s.busy && commandOwns s a then .refuse (.hostStoreDuringCommand a)
    else .host { s with mem := Memory.write s.mem a.toNat v }

/-- What stands next: the head of the host's queue; the sequencer's micro-operation when the host does nothing
(entry 7). -/
def fetch (s : State) : Fetched :=
  match s.hostq with
  | [] => fetchUop s
  | e :: q => fetchHost e { s with hostq := q }

end Sys2Proof.Machine
end

