-- ==== Sys2Proof/Machine/Step.lean ====
section
/-! DEFINITION. One step of the machine, and where it takes its next operation from. -/

namespace Sys2Proof.Machine

/-- One step: one micro-operation of the sequencer or one action of the host, whole (41_arbiter.md R145). -/
def step (s : State) : Host.Outcome State Fault Refusal :=
  match fetch s with
  | .run i t => exec i t
  | .host t => .next t
  | .refuse r => .refused r
  | .stop f => .fault f

/-- The instance that has the micro-operation of a word: `c`, with that word's width as its only one if `c` has no such
width (30_encoding.md R106, 93 U45; entry 7). -/
def wiredFor (c : Config) (u : BitVec 8) : Config :=
  match decodeUopFor c u, decodeWidth (u.extractLsb' 0 3) with
  | .error .foreignWidth, some w => { c with kw := [w] }
  | _, _ => c

/-- `s` with an opcode table word where the next step takes its operation: a UOP word in UOP of an instance that has its
width, with no action of the host pending, a flag word as the pending PROCESS whose other six operands are zero, a doorbell as the pending write of CTRL
(entries 7, 10). -/
def State.withFetchWord (s : State) (nbits w : Nat) : State :=
  match tableFormat nbits w with
  | .uop =>
    let u := BitVec.ofNat 8 (w % 2 ^ nbits)
    { s with uop := u, hostq := [], cfg := wiredFor s.cfg u }
  | .cmd => { s with hostq := [.command (descriptorOfNat (w % 2 ^ nbits))] }
  | .db => { s with hostq := [.write ctrlOffset 32 (BitVec.ofNat 64 (w % 2 ^ nbits))] }

end Sys2Proof.Machine
end

