-- ==== Sys2Proof/WellFormed.lean ====
section
/-! DEFINITION. Which configurations are an MBD and which operations an instance has
(00_scope.md R5; 30_encoding.md R92, R95, R106). -/

namespace Sys2Proof

/-- A list of widths is strictly decreasing. -/
def widthsDecreasing : List Width → Bool
  | [] => true
  | [_] => true
  | a :: b :: r => decide (b.regs < a.regs) && widthsDecreasing (b :: r)

/-- An admitted configuration: `KW` strictly decreasing with 1 to 3 entries (00_scope.md R5, 93 U2). -/
def Config.wf (c : Config) : Bool :=
  decide (c.kw ≠ []) && decide (c.kw.length ≤ 3) && widthsDecreasing c.kw

/-- The flag word has no reserved bit set (30_encoding.md R92, R95). -/
def flagsLegal (flags : BitVec 32) : Bool := flags.extractLsb' 5 27 == 0#27

/-- A batch form covers a width of BATCHSET (30_encoding.md R106). -/
def batchWidthLegal (c : Config) (w : Width) : Bool := (Machine.batchSet c).contains w

/-- A tail form covers `WN` registers (30_encoding.md R106). -/
def tailWidthLegal (c : Config) (w : Width) : Bool := w == Machine.narrowest c

/-- The operations an instance's tables admit: flag words without reserved bits (R95), batch forms with a width of
BATCHSET, tail forms with `WN` (R106). -/
def Instr.wellFormed (c : Config) : Instr → Bool
  | .process d => flagsLegal d.flags
  | .start => true
  | .srst => true
  | .idle => true
  | .setup => true
  | .arb => true
  | .tadj => true
  | .ldin w => batchWidthLegal c w
  | .ldinT w => tailWidthLegal c w
  | .ctrgen w => batchWidthLegal c w
  | .ctrgenT w => tailWidthLegal c w
  | .xorin w => batchWidthLegal c w
  | .xorinT w => tailWidthLegal c w
  | .kcall w => batchWidthLegal c w
  | .kcallT w => tailWidthLegal c w
  | .xorout w => batchWidthLegal c w
  | .xoroutT w => tailWidthLegal c w
  | .stout w => batchWidthLegal c w
  | .stoutT w => tailWidthLegal c w
  | .adv w => batchWidthLegal c w
  | .advT w => tailWidthLegal c w
  | .finish => true
  | .fault => true

end Sys2Proof
end

