-- ==== Sys2Proof/Safety.lean ====
section
/-! DEFINITION. The terms the statements use: requests the port accepts, what a loop of units has done, and the invariants
of the machine. -/

namespace Sys2Proof.Machine

/-! ### Requests -/

/-- The port accepts the first `n` whole-register requests of a cursor (20_memory.md R61 to R63). -/
def UnitsAccepted (s : State) (acc : Access) (cur str : Addr) (n : Nat) : Prop :=
  ∀ i < n, portAnswer s.port acc (unitAddr cur str i) vecBytes = .accept

/-- The port refuses unit `j` of a cursor and accepts every unit before it. -/
def FirstRefused (s : State) (acc : Access) (cur str : Addr) (j : Nat) : Prop :=
  UnitsAccepted s acc cur str j ∧ portAnswer s.port acc (unitAddr cur str j) vecBytes = .error

/-- No range of the data space is device memory (20_memory.md R69). -/
def NoDevice (s : State) : Prop := ∀ r ∈ s.port, r.kind ≠ .device

/-! ### The bytes of a command -/

/-- One of the `n` bytes from an address, modulo `2^64`. -/
def InBytes (a base : Addr) (n : Nat) : Prop := ∃ i < n, a = base + BitVec.ofNat 64 i

/-- A byte of the processed range of a buffer at `ptr`: the whole blocks of LENGTH, at the low end forward, at the high end
in reverse (20_memory.md R78). -/
def ProcessedByte (s : State) (a ptr : Addr) : Prop :=
  InBytes a (if s.flags.getLsbD 3 = true then ptr + BitVec.ofNat 64 (s.length.toNat % blockBytes s.cfg) else ptr)
    (s.length.toNat / blockBytes s.cfg * blockBytes s.cfg)

/-- The address SETUP gives the cursor of a buffer at `ptr` (40_command_setup.md R127, R128). -/
def commandStart (s : State) (ptr : Addr) : Addr :=
  if s.flags.getLsbD 3 = true then ptr + s.length - 16#64 else ptr

/-- A byte of the unit at a frozen cursor: 16 bytes where a batch form runs, `B` where a tail form does
(20_memory.md R80). -/
def FrozenByte (s : State) (a ptr : Addr) : Prop :=
  (s.flags.getLsbD 4 = true ∧ (∃ w ∈ batchSet s.cfg, w.regs * 16 ≤ s.length.toNat) ∧
    InBytes a (commandStart s ptr) 16) ∨
  (blockBytes s.cfg ≤ s.length.toNat ∧ InBytes a (commandStart s ptr) (blockBytes s.cfg))

/-- A byte that the command in the operand registers owns while it runs: of its source or its counter block, its mask, its
destination, where SETUP accepts it, or of its subkey table (20_memory.md R80, 70_reset_and_hazards.md R250). -/
def OwnedByte (s : State) (a : Addr) : Prop :=
  (setupFault (latch s) = none ∧
    ((s.flags.getLsbD 0 = true ∧ InBytes a (commandStart s s.inPtr) (blockBytes s.cfg)) ∨
     (s.flags.getLsbD 0 = false ∧ s.flags.getLsbD 1 = true ∧ FrozenByte s a s.inPtr) ∨
     (s.flags.getLsbD 0 = false ∧ s.flags.getLsbD 1 = false ∧ ProcessedByte s a s.inPtr) ∨
     (s.xorPtr ≠ 0#64 ∧ ProcessedByte s a s.xorPtr) ∨
     (s.flags.getLsbD 1 = true ∧ FrozenByte s a s.outPtr) ∨
     (s.flags.getLsbD 1 = false ∧ ProcessedByte s a s.outPtr))) ∨
  (s.subkeys ≠ 0#64 ∧ InBytes a s.subkeys (tableBytes s.cfg s.rounds))

/-! ### What the units of an iteration have done -/

/-- The first `n` registers hold the source units, byte `k` of register `i` from `INCUR + i*INSTR + k`; the others are
as before (42_batch_datapath.md R150, 20_memory.md R64). -/
def LoadedUpTo (s t : State) (n : Nat) : Prop :=
  (∀ i < n, ∀ k < 16, regByte (vreg t i) k = byteAt s.mem (unitAddr s.inCur s.inStr i + BitVec.ofNat 64 k)) ∧
  ∀ i, n ≤ i → vreg t i = vreg s i

/-- The first `n` registers are exclusive-ored byte by byte with the mask units; the others are as before
(42_batch_datapath.md R152, R153). -/
def MaskedUpTo (s t : State) (n : Nat) : Prop :=
  (∀ i < n, ∀ k < 16, regByte (vreg t i) k =
    regByte (vreg s i) k ^^^ byteAt s.mem (unitAddr s.xorCur s.xorStr i + BitVec.ofNat 64 k)) ∧
  ∀ i, n ≤ i → vreg t i = vreg s i

/-- The first `n` registers stand in the destination units: byte `k` of register `i` at `OUTCUR + i*OUTSTR + k` unless a
later unit was stored over it, and no byte outside those units has changed (42_batch_datapath.md R158). -/
def StoredUpTo (s t : State) (n : Nat) : Prop :=
  (∀ i < n, ∀ k < 16,
    (∀ j, i < j → j < n → ∀ l < 16, unitAddr s.outCur s.outStr i + BitVec.ofNat 64 k ≠
      unitAddr s.outCur s.outStr j + BitVec.ofNat 64 l) →
    byteAt t.mem (unitAddr s.outCur s.outStr i + BitVec.ofNat 64 k) = regByte (vreg s i) k) ∧
  ∀ a, (∀ i < n, ∀ k < 16, a ≠ unitAddr s.outCur s.outStr i + BitVec.ofNat 64 k) → byteAt t.mem a = byteAt s.mem a

/-- `n` registers hold one block: its bytes in block lane 0 of `VR[0]`, zero in every other lane; the others are as
before (44_tail.md R183, 43_counter.md R176). -/
def PaddedBlock (s t : State) (blk : List Byte) (n : Nat) : Prop :=
  (∀ k < 16, regByte (vreg t 0) k = if k < blockBytes s.cfg then blk.getD k 0 else 0) ∧
  (∀ i, 1 ≤ i → i < n → vreg t i = 0) ∧ ∀ i, n ≤ i → vreg t i = vreg s i

/-- Lane 0 of `VR[0]` is exclusive-ored with the `B` mask bytes; every other byte of every register is as before
(44_tail.md R184, R186). -/
def MaskedBlock (s t : State) : Prop :=
  (∀ k < 16, regByte (vreg t 0) k =
    if k < blockBytes s.cfg then regByte (vreg s 0) k ^^^ byteAt s.mem (s.xorCur + BitVec.ofNat 64 k)
    else regByte (vreg s 0) k) ∧
  ∀ i, 1 ≤ i → vreg t i = vreg s i

/-- The `B` bytes at an address hold a block, and no other byte of memory has changed. -/
def WroteBlock (s t : State) (a : Addr) (blk : List Byte) : Prop :=
  (∀ k < blockBytes s.cfg, byteAt t.mem (a + BitVec.ofNat 64 k) = blk.getD k 0) ∧
  ∀ x, (∀ k < blockBytes s.cfg, x ≠ a + BitVec.ofNat 64 k) → byteAt t.mem x = byteAt s.mem x

/-- Block lane `j` of a batch, counted over the registers: lane `j mod BPV` of `VR[j / BPV]`
(00_scope.md R9, 43_counter.md R174). -/
def laneOf (s : State) (j : Nat) : List Byte :=
  regSlice (vreg s (j / lanesPerReg s.cfg)) (j % lanesPerReg s.cfg * blockBytes s.cfg) (blockBytes s.cfg)

/-- The first `n` registers hold the lanes of a counter batch, lane `j` the counter plus `j`; the others are as before
(43_counter.md R172, R174). -/
def CounterLanes (s t : State) (ctr : List Byte) (n : Nat) : Prop :=
  (∀ j < n * lanesPerReg s.cfg, laneOf t j = ctrAdd s.cfg ctr j) ∧ ∀ i, n ≤ i → vreg t i = vreg s i

/-- The first `n` registers hold `E` of their block lanes; the others are as before (45_kernel_port.md R196). -/
def KernelLanes (s t : State) (n : Nat) : Prop :=
  (∀ j < n * lanesPerReg s.cfg,
    laneOf t j = blockE s.cfg (bytesAt s.mem s.sk (tableBytes s.cfg s.rnd)) s.rnd (laneOf s j)) ∧
  ∀ i, n ≤ i → vreg t i = vreg s i

/-! ### The invariants -/

/-- Exactly one of idle, busy, faulted holds, and UOP says which (10_state.md R26, R44, R49; 60_exceptions.md R214). -/
def StatusInv (s : State) : Prop :=
  (s.uop = 0x00#8 → s.busy = false ∧ s.fault = false) ∧
  (s.uop = 0xF0#8 → s.busy = false ∧ s.fault = true ∧ s.done = false) ∧
  (s.uop ≠ 0x00#8 → s.uop ≠ 0xF0#8 → s.busy = true ∧ s.fault = false ∧ s.done = false)

/-- The fault record: a cause exactly while faulted, never a reserved code, an address only for BUS
(10_state.md R26, R29; 60_exceptions.md R211). -/
def FaultRecordInv (s : State) : Prop :=
  (s.fault = true ↔ s.cause ≠ 0#4) ∧ s.cause.toNat ≤ 7 ∧ (s.cause ≠ 6#4 → s.fAddr = 0#64)

/-- A stride that `SETUP` (before TADJ) or TADJ (after it) may leave (10_state.md R36). -/
def StrideLegal (c : Config) (tail : Bool) (str : Addr) : Prop :=
  str = 0#64 ∨ (if tail then str = strideB c ∨ str = -strideB c else str = strideV ∨ str = -strideV)

/-- The three strides are legal (10_state.md R36). -/
def StrideInv (s : State) : Prop :=
  StrideLegal s.cfg s.tailMode s.inStr ∧ StrideLegal s.cfg s.tailMode s.xorStr ∧
  StrideLegal s.cfg s.tailMode s.outStr

/-- A batch iteration of width `w` is in progress (10_state.md R39, 41_arbiter.md R140). -/
def BatchPosition (s : State) (w : Width) : Prop :=
  w ∈ batchSet s.cfg ∧ s.w = widthField w ∧ s.tailMode = false ∧ flagP s = true ∧
  w.regs * vecBytes ≤ s.lenRem.toNat

/-- A tail iteration is in progress (10_state.md R39, 44_tail.md R180). -/
def TailPosition (s : State) (w : Width) : Prop :=
  w = narrowest s.cfg ∧ s.w = widthField w ∧ s.tailMode = true ∧ blockBytes s.cfg ≤ s.lenRem.toNat

/-- What holds when a micro-operation stands in UOP: its width is the one ARB chose, its predicate holds, the length it
consumes is there (30_encoding.md R106, 41_arbiter.md R140, R143, 10_state.md R39). -/
def PositionInv (s : State) : Instr → Prop
  | .process _ => False
  | .start => False
  | .srst => False
  | .idle => True
  | .setup => True
  | .arb => True
  | .tadj => s.tailMode = false ∧ s.w = widthField (narrowest s.cfg) ∧ blockBytes s.cfg ≤ s.lenRem.toNat
  | .ldin w => BatchPosition s w ∧ flagC s = false
  | .ldinT w => TailPosition s w ∧ flagC s = false
  | .ctrgen w => BatchPosition s w ∧ flagC s = true
  | .ctrgenT w => TailPosition s w ∧ flagC s = true
  | .xorin w => BatchPosition s w ∧ xorIn s = true
  | .xorinT w => TailPosition s w ∧ xorIn s = true
  | .kcall w => BatchPosition s w
  | .kcallT w => TailPosition s w
  | .xorout w => BatchPosition s w ∧ xorOut s = true
  | .xoroutT w => TailPosition s w ∧ xorOut s = true
  | .stout w => BatchPosition s w
  | .stoutT w => TailPosition s w
  | .adv w => BatchPosition s w
  | .advT w => TailPosition s w
  | .finish => s.lenRem.toNat < blockBytes s.cfg
  | .fault => True

/-- The sequencer stands at a micro-operation of the map, in a position the transition table leads to
(30_encoding.md R108, 41_arbiter.md R143). -/
def SequencerInv (s : State) : Prop := ∃ i, decodeUop s.uop = .ok i ∧ PositionInv s i

/-- While DONE, REMAINDER is the length left, less than one block (10_state.md R48, 44_tail.md R192). -/
def ResultInv (s : State) : Prop :=
  s.done = true → s.remainder = s.lenRem ∧ s.remainder.toNat < blockBytes s.cfg

/-- A command runs past its SETUP. -/
def Running (s : State) : Prop := s.busy = true ∧ s.uop ≠ 0x10#8

/-- A cursor with its stride: frozen, where SETUP put it; forward, past what is consumed; reverse, one unit below what is
left (40_command_setup.md R127, R128, 20_memory.md R79, 44_tail.md R191). All modulo `2^64`. -/
def CursorPlace (reverse : Bool) (ptr cur str length lenRem : Addr) : Prop :=
  (str = 0#64 → cur = if reverse then ptr + length - 16#64 else ptr) ∧
  (str = 16#64 ∨ str = 8#64 → cur = ptr + (length - lenRem)) ∧
  (str = -16#64 ∨ str = -8#64 → cur = ptr + lenRem + str)

/-- While a command runs its three cursors are in their places. -/
def CursorInv (s : State) : Prop :=
  Running s →
    CursorPlace (flagR s) s.inPtr s.inCur s.inStr s.length s.lenRem ∧
    CursorPlace (flagR s) s.xorPtr s.xorCur s.xorStr s.length s.lenRem ∧
    CursorPlace (flagR s) s.outPtr s.outCur s.outStr s.length s.lenRem

/-- While a command runs the length left is LENGTH less whole blocks (41_arbiter.md R144, 44_tail.md R192). -/
def LengthInv (s : State) : Prop :=
  Running s → s.lenRem.toNat ≤ s.length.toNat ∧
    s.lenRem.toNat % blockBytes s.cfg = s.length.toNat % blockBytes s.cfg

end Sys2Proof.Machine
end

