-- ==== Sys2Proof/Certificates/Slice0/Obligations.lean ====
section
/-! DEFINITION. The statements for the provers, one per rule or group of rules of spec/. Each holds for every
configuration of the instance and every contents of memory; where one rests on a choice of the model its docstring
says so. -/

open Sys2Proof
open Sys2Proof.Machine

/-! ### Encodings (30_encoding.md) -/

/-- Every operation, written as bytes in its format, decodes to itself, and the bytes after it are left over. The byte
order and the place of FLAGS in a command's bytes are the model's (entry 11). -/
def Obligations.DecodeEncodeRoundTrip : Prop :=
  ∀ (i : Instr) (rest : List Byte), decode (formatOf i) (encode i ++ rest) = .ok (i, rest)

/-- The micro-operation map of R107: every word of it, for every width. -/
def Obligations.UopWordsDecodeAsMapped : Prop :=
  decodeUop 0x00#8 = .ok .idle ∧ decodeUop 0x10#8 = .ok .setup ∧ decodeUop 0x20#8 = .ok .arb ∧
  decodeUop 0x30#8 = .ok .tadj ∧ decodeUop 0xB0#8 = .ok .finish ∧ decodeUop 0xF0#8 = .ok .fault ∧
  ∀ w : Width,
    decodeUop (0x40#8 + BitVec.ofNat 8 w.regs) = .ok (.ldin w) ∧
    decodeUop (0x48#8 + BitVec.ofNat 8 w.regs) = .ok (.ldinT w) ∧
    decodeUop (0x50#8 + BitVec.ofNat 8 w.regs) = .ok (.ctrgen w) ∧
    decodeUop (0x58#8 + BitVec.ofNat 8 w.regs) = .ok (.ctrgenT w) ∧
    decodeUop (0x60#8 + BitVec.ofNat 8 w.regs) = .ok (.xorin w) ∧
    decodeUop (0x68#8 + BitVec.ofNat 8 w.regs) = .ok (.xorinT w) ∧
    decodeUop (0x70#8 + BitVec.ofNat 8 w.regs) = .ok (.kcall w) ∧
    decodeUop (0x78#8 + BitVec.ofNat 8 w.regs) = .ok (.kcallT w) ∧
    decodeUop (0x80#8 + BitVec.ofNat 8 w.regs) = .ok (.xorout w) ∧
    decodeUop (0x88#8 + BitVec.ofNat 8 w.regs) = .ok (.xoroutT w) ∧
    decodeUop (0x90#8 + BitVec.ofNat 8 w.regs) = .ok (.stout w) ∧
    decodeUop (0x98#8 + BitVec.ofNat 8 w.regs) = .ok (.stoutT w) ∧
    decodeUop (0xA0#8 + BitVec.ofNat 8 w.regs) = .ok (.adv w) ∧
    decodeUop (0xA8#8 + BitVec.ofNat 8 w.regs) = .ok (.advT w)

/-- The words the decoder of the map calls invalid are exactly the reserved ones of R108; the decoder of an instance
calls invalid besides exactly the data words whose width is not in `KW` or, in a tail form, is not `WN` (93 U45), and
reads every other word as the map does. -/
def Obligations.ReservedUopWordsAreInvalid : Prop :=
  (∀ u : BitVec 8,
    (∃ e, decodeUop u = .error e) ↔
      (0xC ≤ (u.extractLsb' 4 4).toNat ∧ (u.extractLsb' 4 4).toNat ≤ 0xE) ∨
      ((0x4 ≤ (u.extractLsb' 4 4).toNat ∧ (u.extractLsb' 4 4).toNat ≤ 0xA) ∧
        ((u.extractLsb' 0 3).toNat = 0 ∨ (u.extractLsb' 0 3).toNat = 3 ∨
         (u.extractLsb' 0 3).toNat = 5 ∨ (u.extractLsb' 0 3).toNat = 7)) ∨
      (((u.extractLsb' 4 4).toNat ≤ 0x3 ∨ (u.extractLsb' 4 4).toNat = 0xB ∨ (u.extractLsb' 4 4).toNat = 0xF) ∧
        u.extractLsb' 0 4 ≠ 0#4)) ∧
  ∀ (c : Config) (u : BitVec 8), Config.wf c = true →
    ((∃ e, decodeUopFor c u = .error e) ↔
      (∃ e, decodeUop u = .error e) ∨
      ((0x4 ≤ (u.extractLsb' 4 4).toNat ∧ (u.extractLsb' 4 4).toNat ≤ 0xA) ∧
        ((∀ w ∈ c.kw, w.regs ≠ (u.extractLsb' 0 3).toNat) ∨
         (u.getLsbD 3 = true ∧ (u.extractLsb' 0 3).toNat ≠ (narrowest c).regs)))) ∧
    ∀ i, decodeUopFor c u = .ok i → decodeUop u = .ok i

/-- The doorbell (R99): a write of CTRL whose bit 1 is set runs SRST, one with bit 1 clear and bit 0 set runs START, one
with both clear does nothing, whatever bits 31 to 2 are. -/
def Obligations.DoorbellWordsRing : Prop :=
  ∀ (s : State) (q : List HostEvent) (v : BitVec 64), s.hostq = .write 0x38 32 v :: q →
    step s =
      if v.getLsbD 1 = true then exec .srst { s with hostq := q }
      else if v.getLsbD 0 = true then exec .start { s with hostq := q }
      else .next { s with hostq := q }

/-! ### The step (41_arbiter.md R143, R145; 10_state.md R44) -/

/-- A step of the sequencer runs the micro-operation its position register names in the instance's decoder, exactly `exec` of it, with nothing
added; the host's `turn` is taken off the queue first (entry 7). -/
def Obligations.StepRunsTheDecodedMicroOperation : Prop :=
  ∀ (s : State) (i : Instr), decodeUopFor s.cfg s.uop = .ok i →
    (s.hostq = [] → step s = exec i s) ∧
    (∀ q, s.hostq = .turn :: q → step s = exec i { s with hostq := q })

/-- A pending command of the host runs PROCESS and the platform's reset input runs the reset action, each taken off the
queue first (entry 7). -/
def Obligations.StepRunsTheHostsOperation : Prop :=
  ∀ (s : State) (q : List HostEvent),
    (∀ d, s.hostq = .command d :: q → step s = exec (.process d) { s with hostq := q }) ∧
    (s.hostq = .resetInput :: q → step s = exec .srst { s with hostq := q })

/-- A store of the host has no meaning on a byte that a running command owns (its footprint, counter block or subkey table),
and reaches memory everywhere else and whenever no command runs (R250, 93 U24). The refusal and the length of the subkey
table are the model's (entries 8 and 9). -/
def Obligations.HostStoreRefusedOnTheCommandsBytes : Prop :=
  ∀ (s : State) (q : List HostEvent) (a : Addr) (v : Byte), s.hostq = .store a v :: q → Memory.wf s.mem = true →
    (s.busy = true → OwnedByte s a → step s = .refused (.hostStoreDuringCommand a)) ∧
    (s.busy = false ∨ ¬OwnedByte s a → ∃ t, step s = .next t ∧ t = { s with hostq := q, mem := t.mem } ∧ byteAt t.mem a = v ∧
      ∀ x, x ≠ a → byteAt t.mem x = byteAt s.mem x)

/-- IDLE and FAULT leave the state as it is (R143). -/
def Obligations.IdleAndFaultWordsChangeNothing : Prop :=
  ∀ s : State, exec .idle s = .next s ∧ exec .fault s = .next s

/-! ### The host port (10_state.md R21, R22, R26, R28, R36) -/

/-- The register map (R21): a read returns the register at the offset, whole and in its width, and 0 otherwise, and
changes nothing else; a write of an operand register in its width, while not BUSY, stores it, and every other write has
no effect (a write of CTRL is a doorbell and is left to DoorbellWordsRing). -/
def Obligations.HostPortAccessesWholeRegisters : Prop :=
  ∀ (s : State) (q : List HostEvent) (offset bits : Nat),
    (s.hostq = .read offset bits :: q → step s = .next { s with
      hostq := q
      hostData :=
        match offset, bits with
        | 0x00, 64 => s.subkeys
        | 0x08, 32 => s.rounds.setWidth 64
        | 0x10, 64 => s.inPtr
        | 0x18, 64 => s.xorPtr
        | 0x20, 64 => s.outPtr
        | 0x28, 64 => s.length
        | 0x30, 32 => s.flags.setWidth 64
        | 0x40, 32 => (statusWord s).setWidth 64
        | 0x48, 64 => s.remainder
        | 0x50, 32 => (configWord s.cfg).setWidth 64
        | 0x58, 64 => s.fAddr
        | 0x60, 64 => s.inCur
        | 0x68, 64 => s.xorCur
        | 0x70, 64 => s.outCur
        | 0x78, 64 => s.lenRem
        | 0x80, 32 => (stridesWord s).setWidth 64
        | _, _ => 0 }) ∧
    (∀ v, s.hostq = .write offset bits v :: q → ¬(offset = 0x38 ∧ bits = 32) → step s = .next
      (if s.busy = true then { s with hostq := q }
       else match offset, bits with
        | 0x00, 64 => { s with hostq := q, subkeys := v }
        | 0x08, 32 => { s with hostq := q, rounds := v.setWidth 32 }
        | 0x10, 64 => { s with hostq := q, inPtr := v }
        | 0x18, 64 => { s with hostq := q, xorPtr := v }
        | 0x20, 64 => { s with hostq := q, outPtr := v }
        | 0x28, 64 => { s with hostq := q, length := v }
        | 0x30, 32 => { s with hostq := q, flags := v.setWidth 32 }
        | _, _ => { s with hostq := q }))

/-- The MBD never writes the operand registers (R22): a step that is a micro-operation keeps them, and while BUSY so does
every step but a reset. -/
def Obligations.OperandRegistersBelongToTheHost : Prop :=
  ∀ s t : State, step s = .next t →
    (s.hostq = [] ∨ (∃ q, s.hostq = .turn :: q) ∨ (s.busy = true ∧ ∀ u, fetch s ≠ .run .srst u)) →
    t.subkeys = s.subkeys ∧ t.rounds = s.rounds ∧ t.inPtr = s.inPtr ∧ t.xorPtr = s.xorPtr ∧
    t.outPtr = s.outPtr ∧ t.length = s.length ∧ t.flags = s.flags

/-- The fields of STATUS (R26). -/
def Obligations.StatusWordFields : Prop :=
  ∀ s : State,
    (statusWord s).getLsbD 0 = s.busy ∧ (statusWord s).getLsbD 1 = s.done ∧ (statusWord s).getLsbD 2 = s.fault ∧
    (statusWord s).getLsbD 3 = s.tailMode ∧ (statusWord s).extractLsb' 4 4 = s.cause ∧
    (statusWord s).extractLsb' 8 8 = s.uop ∧ (statusWord s).extractLsb' 16 16 = 0#16

/-- The fields of CONFIG (R28). -/
def Obligations.ConfigWordFields : Prop :=
  ∀ c : Config, Config.wf c = true →
    (configWord c).getLsbD 0 = decide (c.block = .b8) ∧
    ((configWord c).extractLsb' 1 3).toNat = ((c.kw[0]?).map Width.regs).getD 0 ∧
    ((configWord c).extractLsb' 4 3).toNat = ((c.kw[1]?).map Width.regs).getD 0 ∧
    ((configWord c).extractLsb' 7 3).toNat = ((c.kw[2]?).map Width.regs).getD 0 ∧
    (configWord c).getLsbD 10 = c.assertEn ∧ (configWord c).getLsbD 11 = c.ctr8w8 ∧
    (configWord c).getLsbD 12 = decide (c.crPolicy = .refuse) ∧
    (configWord c).extractLsb' 13 19 = 0#19 ∧ 0 < ((configWord c).extractLsb' 1 3).toNat

/-- STRIDES shows the three strides as signed 8-bit fields, and the strides are what the fields sign-extend to
(R36). -/
def Obligations.StridesWordShowsTheStrides : Prop :=
  ∀ s : State, StrideInv s →
    ((stridesWord s).extractLsb' 0 8).signExtend 64 = s.inStr ∧
    ((stridesWord s).extractLsb' 8 8).signExtend 64 = s.xorStr ∧
    ((stridesWord s).extractLsb' 16 8).signExtend 64 = s.outStr ∧
    (stridesWord s).extractLsb' 24 8 = 0#8

/-! ### START, PROCESS, reset (40_command_setup.md R121, 30_encoding.md R101, 70_reset_and_hazards.md R241) -/

/-- START (R121), its word among the doorbells' (R99). -/
def Obligations.StartAcceptedOnlyWhenIdle : Prop :=
  ∀ s : State, decodeDoorbell 0x00000001#32 = .ok .start ∧
    (s.busy = false → s.fault = false →
      exec .start s = .next { s with busy := true, done := false, uop := 0x10#8 }) ∧
    (s.busy = true ∨ s.fault = true → exec .start s = .next s)

/-- PROCESS is the seven operand writes and the doorbell (R101): idle, all eight take effect; faulted, the operands are
written and START is dropped (R216); busy, all are dropped (R22). The eight are one step (entry 15). -/
def Obligations.ProcessWritesTheDescriptorAndStarts : Prop :=
  ∀ (s : State) (d : Descriptor),
    (s.busy = false → s.fault = false → exec (.process d) s = .next { s with
      subkeys := d.subkeys, rounds := d.rounds, inPtr := d.inPtr, xorPtr := d.xorPtr, outPtr := d.outPtr
      length := d.length, flags := d.flags, busy := true, done := false, uop := 0x10#8 }) ∧
    (s.busy = false → s.fault = true → exec (.process d) s = .next { s with
      subkeys := d.subkeys, rounds := d.rounds, inPtr := d.inPtr, xorPtr := d.xorPtr, outPtr := d.outPtr
      length := d.length, flags := d.flags }) ∧
    (s.busy = true → exec (.process d) s = .next s)

/-- The reset action (R241): every register as after reset, the configuration and memory as they were, VR any
value. -/
def Obligations.SrstResetsEveryRegister : Prop :=
  ∀ s : State, ∃ v n, exec .srst s = .next { s with
    subkeys := 0, rounds := 0, inPtr := 0, xorPtr := 0, outPtr := 0, length := 0, flags := 0
    busy := false, done := false, fault := false, cause := 0, uop := 0x00#8, tailMode := false
    remainder := 0, fAddr := 0, sk := 0, rnd := 0, f := 0, xNull := false
    inCur := 0, xorCur := 0, outCur := 0, inStr := 0, xorStr := 0, outStr := 0, lenRem := 0, w := 0
    vr := v, freeIx := n }

/-- After reset every host register but CONFIG reads 0, in any width, CONFIG reads the instance's constants, and the
working registers are 0 (R47), for every configuration. That memory, the port's map and VR have a value there is the
model's choice (entries 2, 4, 5), and nothing is said of them. -/
def Obligations.RegistersReadZeroAfterReset : Prop :=
  ∀ c : Config,
    (∀ offset bits, offset ≠ 0x50 → hostReadValue (State.resetOf c) offset bits = 0) ∧
    hostReadValue (State.resetOf c) 0x50 32 = (configWord c).setWidth 64 ∧
    (State.resetOf c).sk = 0 ∧ (State.resetOf c).rnd = 0 ∧ (State.resetOf c).f = 0 ∧
    (State.resetOf c).xNull = false ∧ (State.resetOf c).w = 0 ∧ (State.resetOf c).inStr = 0 ∧
    (State.resetOf c).xorStr = 0 ∧ (State.resetOf c).outStr = 0

/-! ### Faults (60_exceptions.md) -/

/-- Fault entry (R214), with the codes of R211: the record, the three status bits, UOP, nothing else. -/
def Obligations.FaultEntryRecordsAndHalts : Prop :=
  ∀ (s : State) (info : Addr),
    raiseFault s .nullSubkeys info =
      { s with cause := 1, fAddr := 0, fault := true, busy := false, done := false, uop := 0xF0#8 } ∧
    raiseFault s .nullIn info =
      { s with cause := 2, fAddr := 0, fault := true, busy := false, done := false, uop := 0xF0#8 } ∧
    raiseFault s .nullOut info =
      { s with cause := 3, fAddr := 0, fault := true, busy := false, done := false, uop := 0xF0#8 } ∧
    raiseFault s .lenShort info =
      { s with cause := 4, fAddr := 0, fault := true, busy := false, done := false, uop := 0xF0#8 } ∧
    raiseFault s .badFlags info =
      { s with cause := 5, fAddr := 0, fault := true, busy := false, done := false, uop := 0xF0#8 } ∧
    raiseFault s .bus info =
      { s with cause := 6, fAddr := info, fault := true, busy := false, done := false, uop := 0xF0#8 } ∧
    raiseFault s .crRefused info =
      { s with cause := 7, fAddr := 0, fault := true, busy := false, done := false, uop := 0xF0#8 }

/-- Only a reset leaves the fault state (R216): every other step keeps FAULT, CAUSE, FADDR, REMAINDER, UOP and every
working and vector register. -/
def Obligations.OnlyResetLeavesTheFaultState : Prop :=
  ∀ s t : State, s.uop = 0xF0#8 → s.fault = true → s.busy = false → step s = .next t →
    (∃ u, fetch s = .run .srst u) ∨
    t = { s with hostq := t.hostq, hostData := t.hostData, mem := t.mem, subkeys := t.subkeys, rounds := t.rounds,
                 inPtr := t.inPtr, xorPtr := t.xorPtr, outPtr := t.outPtr, length := t.length, flags := t.flags }

/-- The port's answer: an error to a request that crosses `2^64` (R76) and to one that touches a range refusing it (R77),
acceptance where nothing stands against it; no alignment is asked for (R67). -/
def Obligations.PortRefusesWrappingAndRefusingRanges : Prop :=
  ∀ (port : List PortRegion) (acc : Access) (a : Addr) (n : Nat),
    (2 ^ 64 < a.toNat + n → portAnswer port acc a n = .error) ∧
    (a.toNat + n ≤ 2 ^ 64 → (∀ r ∈ port, touches r a n = true → r.kind ≠ .device ∧ refuses r.kind acc = false) →
      portAnswer port acc a n = .accept) ∧
    (a.toNat + n ≤ 2 ^ 64 → (∀ r ∈ port, touches r a n = true → r.kind ≠ .device) →
      (∃ r ∈ port, touches r a n = true ∧ refuses r.kind acc = true) → portAnswer port acc a n = .error)

/-! ### SETUP and the stride multiplexer (40_command_setup.md) -/

/-- SETUP's checks, the first that fails in the order of the codes 1, 2, 3, 4, 5, 7 (R124, R217): the fault is taken with
only the latch of R123 done. The chain is one if after the other, so the clauses exclude each other. -/
def Obligations.SetupChecksInOrder : Prop :=
  ∀ s l : State,
    l = { s with sk := s.subkeys, rnd := s.rounds, f := s.flags.extractLsb' 0 5, xNull := decide (s.xorPtr = 0#64) } →
    (s.subkeys = 0#64 → exec .setup s = .next (raiseFault l .nullSubkeys 0)) ∧
    (s.subkeys ≠ 0#64 → s.inPtr = 0#64 → exec .setup s = .next (raiseFault l .nullIn 0)) ∧
    (s.subkeys ≠ 0#64 → s.inPtr ≠ 0#64 → s.outPtr = 0#64 → exec .setup s = .next (raiseFault l .nullOut 0)) ∧
    (s.subkeys ≠ 0#64 → s.inPtr ≠ 0#64 → s.outPtr ≠ 0#64 →
      s.length.toNat < blockBytes s.cfg → s.cfg.assertEn = true → exec .setup s = .next (raiseFault l .lenShort 0)) ∧
    (s.subkeys ≠ 0#64 → s.inPtr ≠ 0#64 → s.outPtr ≠ 0#64 →
      (blockBytes s.cfg ≤ s.length.toNat ∨ s.cfg.assertEn = false) →
      (s.flags.extractLsb' 5 27 ≠ 0#27 → exec .setup s = .next (raiseFault l .badFlags 0)) ∧
      (s.flags.extractLsb' 5 27 = 0#27 → s.flags.getLsbD 0 = true → s.flags.getLsbD 3 = true →
        s.cfg.crPolicy = .refuse → exec .setup s = .next (raiseFault l .crRefused 0)))

/-- SETUP of a command that meets the preconditions: the latch (R123), the strides (R126), the cursors (R127, R128) and
the initialisation (R129), nothing else. -/
def Obligations.SetupInitialisesTheCommand : Prop :=
  ∀ s : State, s.subkeys ≠ 0#64 → s.inPtr ≠ 0#64 → s.outPtr ≠ 0#64 →
    (blockBytes s.cfg ≤ s.length.toNat ∨ s.cfg.assertEn = false) → s.flags.extractLsb' 5 27 = 0#27 →
    ¬(s.flags.getLsbD 0 = true ∧ s.flags.getLsbD 3 = true ∧ s.cfg.crPolicy = .refuse) →
    exec .setup s = .next { s with
      sk := s.subkeys, rnd := s.rounds, f := s.flags.extractLsb' 0 5, xNull := decide (s.xorPtr = 0#64)
      inStr := if s.flags.getLsbD 0 = true ∨ s.flags.getLsbD 1 = true then 0#64
        else if s.flags.getLsbD 3 = true then -16#64 else 16#64
      xorStr := if s.xorPtr = 0#64 then 0#64 else if s.flags.getLsbD 3 = true then -16#64 else 16#64
      outStr := if s.flags.getLsbD 1 = true then 0#64 else if s.flags.getLsbD 3 = true then -16#64 else 16#64
      inCur := if s.flags.getLsbD 3 = true then s.inPtr + s.length - 16#64 else s.inPtr
      xorCur := if s.flags.getLsbD 3 = true then s.xorPtr + s.length - 16#64 else s.xorPtr
      outCur := if s.flags.getLsbD 3 = true then s.outPtr + s.length - 16#64 else s.outPtr
      lenRem := s.length, tailMode := false, w := 0#3, uop := 0x20#8 }

/-- SETUP's result depends on the operand registers, not on what an earlier command left in the working registers it
writes (R50): two states that agree but there go to the same state, or to the same fault. -/
def Obligations.SetupForgetsTheEarlierCommand : Prop :=
  ∀ s s' t t' : State,
    s' = { s with sk := s'.sk, rnd := s'.rnd, f := s'.f, xNull := s'.xNull, inCur := s'.inCur, xorCur := s'.xorCur,
                  outCur := s'.outCur, inStr := s'.inStr, xorStr := s'.xorStr, outStr := s'.outStr,
                  lenRem := s'.lenRem, tailMode := s'.tailMode, w := s'.w, vr := s'.vr } →
    exec .setup s = .next t → exec .setup s' = .next t' →
    (t.uop = t'.uop ∧ t.fault = t'.fault ∧ t.cause = t'.cause) ∧
    (t.uop = 0x20#8 → t' = { t with vr := s'.vr })

/-- With `ASSERT_EN = 0` a command shorter than a block consumes nothing: SETUP, ARB, FINISH, `REMAINDER = LENGTH`, no
byte of memory changed (R130). -/
def Obligations.ShortCommandConsumesNothing : Prop :=
  ∀ s : State, s.hostq = [] → s.uop = 0x10#8 → s.subkeys ≠ 0#64 → s.inPtr ≠ 0#64 → s.outPtr ≠ 0#64 →
    s.flags.extractLsb' 5 27 = 0#27 →
    ¬(s.flags.getLsbD 0 = true ∧ s.flags.getLsbD 3 = true ∧ s.cfg.crPolicy = .refuse) →
    s.cfg.assertEn = false → s.length.toNat < blockBytes s.cfg →
    ∃ t, Host.Core.run Sys2Proof.core 3 s = .next t ∧ t.remainder = s.length ∧ t.done = true ∧ t.busy = false ∧
      t.fault = s.fault ∧ t.uop = 0x00#8 ∧ t.mem = s.mem ∧ ∀ a, byteAt t.mem a = byteAt s.mem a

/-- TADJ (R181): each non-zero stride shrinks from V to B, a reverse cursor moves up by V - B, a frozen one stays; only
TAILMODE and UOP change besides. Its word is 0x30. -/
def Obligations.TadjChangesTheUnit : Prop :=
  ∀ s : State, decodeUop 0x30#8 = .ok .tadj ∧ exec .tadj s = .next { s with
    inStr := if s.inStr = 16#64 then BitVec.ofNat 64 (blockBytes s.cfg)
      else if s.inStr = -16#64 then -BitVec.ofNat 64 (blockBytes s.cfg) else s.inStr
    xorStr := if s.xorStr = 16#64 then BitVec.ofNat 64 (blockBytes s.cfg)
      else if s.xorStr = -16#64 then -BitVec.ofNat 64 (blockBytes s.cfg) else s.xorStr
    outStr := if s.outStr = 16#64 then BitVec.ofNat 64 (blockBytes s.cfg)
      else if s.outStr = -16#64 then -BitVec.ofNat 64 (blockBytes s.cfg) else s.outStr
    inCur := if s.inStr = -16#64 then s.inCur + (16#64 - BitVec.ofNat 64 (blockBytes s.cfg)) else s.inCur
    xorCur := if s.xorStr = -16#64 then s.xorCur + (16#64 - BitVec.ofNat 64 (blockBytes s.cfg)) else s.xorCur
    outCur := if s.outStr = -16#64 then s.outCur + (16#64 - BitVec.ofNat 64 (blockBytes s.cfg)) else s.outCur
    tailMode := true
    uop := (if s.f.getLsbD 0 = true then 0x58#8 else 0x48#8) + BitVec.ofNat 8 (narrowest s.cfg).regs }

/-! ### The arbiter (41_arbiter.md) -/

/-- ARB (R140): with `TAILMODE = 0` and `P = 1`, the widest member of BATCHSET the length allows starts a batch; otherwise
one block or more goes to the tail path; otherwise FINISH. Only W and UOP change. Its word is 0x20. -/
def Obligations.ArbPicksTheWidestBatch : Prop :=
  ∀ s : State, Config.wf s.cfg = true → decodeUop 0x20#8 = .ok .arb ∧
    (∀ w ∈ batchSet s.cfg, s.tailMode = false → s.f.getLsbD 4 = true → w.regs * 16 ≤ s.lenRem.toNat →
      (∀ v ∈ batchSet s.cfg, v.regs * 16 ≤ s.lenRem.toNat → v.regs ≤ w.regs) →
      exec .arb s = .next { s with
        w := BitVec.ofNat 3 w.regs
        uop := (if s.f.getLsbD 0 = true then 0x50#8 else 0x40#8) + BitVec.ofNat 8 w.regs }) ∧
    ((s.tailMode = true ∨ s.f.getLsbD 4 = false ∨ ∀ v ∈ batchSet s.cfg, s.lenRem.toNat < v.regs * 16) →
      (blockBytes s.cfg ≤ s.lenRem.toNat → exec .arb s = .next { s with
        w := BitVec.ofNat 3 (narrowest s.cfg).regs
        uop := if s.tailMode = false then 0x30#8
          else (if s.f.getLsbD 0 = true then 0x58#8 else 0x48#8) + BitVec.ofNat 8 (narrowest s.cfg).regs }) ∧
      (s.lenRem.toNat < blockBytes s.cfg → exec .arb s = .next { s with uop := 0xB0#8 }))

/-! ### The batch iteration (42_batch_datapath.md) -/

/-- LDIN (R150): with every unit accepted the registers hold the source units and the successor is XORIN or KCALL; with
unit `j` refused the BUS fault is taken with the registers before `j` loaded. No byte of memory changes. -/
def Obligations.LdinLoadsTheUnits : Prop :=
  ∀ (s : State) (w : Width),
    (UnitsAccepted s .read s.inCur s.inStr w.regs →
      ∃ t, exec (.ldin w) s = .next t ∧ LoadedUpTo s t w.regs ∧ (∀ a, byteAt t.mem a = byteAt s.mem a) ∧
        t = { s with vr := t.vr, uop := (if xorIn s = true then 0x60#8 else 0x70#8) + BitVec.ofNat 8 w.regs }) ∧
    (∀ j < w.regs, FirstRefused s .read s.inCur s.inStr j →
      ∃ u t, exec (.ldin w) s = .next t ∧ LoadedUpTo s u j ∧ u = { s with vr := u.vr } ∧
        t = raiseFault u .bus (unitAddr s.inCur s.inStr j))

/-- XORIN (R152, R153): as LDIN, with the mask units exclusive-ored in; the successor is KCALL. -/
def Obligations.XorinMasksTheUnits : Prop :=
  ∀ (s : State) (w : Width),
    (UnitsAccepted s .read s.xorCur s.xorStr w.regs →
      ∃ t, exec (.xorin w) s = .next t ∧ MaskedUpTo s t w.regs ∧ (∀ a, byteAt t.mem a = byteAt s.mem a) ∧
        t = { s with vr := t.vr, uop := 0x70#8 + BitVec.ofNat 8 w.regs }) ∧
    (∀ j < w.regs, FirstRefused s .read s.xorCur s.xorStr j →
      ∃ u t, exec (.xorin w) s = .next t ∧ MaskedUpTo s u j ∧ u = { s with vr := u.vr } ∧
        t = raiseFault u .bus (unitAddr s.xorCur s.xorStr j))

/-- XOROUT (R156): the same units, the successor STOUT. -/
def Obligations.XoroutMasksTheUnits : Prop :=
  ∀ (s : State) (w : Width),
    (UnitsAccepted s .read s.xorCur s.xorStr w.regs →
      ∃ t, exec (.xorout w) s = .next t ∧ MaskedUpTo s t w.regs ∧ (∀ a, byteAt t.mem a = byteAt s.mem a) ∧
        t = { s with vr := t.vr, uop := 0x90#8 + BitVec.ofNat 8 w.regs }) ∧
    (∀ j < w.regs, FirstRefused s .read s.xorCur s.xorStr j →
      ∃ u t, exec (.xorout w) s = .next t ∧ MaskedUpTo s u j ∧ u = { s with vr := u.vr } ∧
        t = raiseFault u .bus (unitAddr s.xorCur s.xorStr j))

/-- KCALL (R154, R196): `E` on each block lane of the `w` registers, the others and memory untouched; the successor is
XOROUT or STOUT. -/
def Obligations.KcallTransformsEachLane : Prop :=
  ∀ (s : State) (w : Width),
    ∃ t, exec (.kcall w) s = .next t ∧ KernelLanes s t w.regs ∧ (∀ a, byteAt t.mem a = byteAt s.mem a) ∧
      t = { s with vr := t.vr, uop := (if xorOut s = true then 0x80#8 else 0x90#8) + BitVec.ofNat 8 w.regs }

/-- STOUT (R158): with every unit accepted the registers stand in the destination, the last store winning, and no other
byte has changed; with unit `j` refused the BUS fault is taken with the stores before `j` performed.
Its word is 0x90 + w. -/
def Obligations.StoutStoresTheUnits : Prop :=
  ∀ (s : State) (w : Width), Memory.wf s.mem = true →
    decodeUop (0x90#8 + BitVec.ofNat 8 w.regs) = .ok (.stout w) ∧
    (UnitsAccepted s .write s.outCur s.outStr w.regs →
      ∃ t, exec (.stout w) s = .next t ∧ StoredUpTo s t w.regs ∧
        t = { s with mem := t.mem, uop := 0xA0#8 + BitVec.ofNat 8 w.regs }) ∧
    (∀ j < w.regs, FirstRefused s .write s.outCur s.outStr j →
      ∃ u t, exec (.stout w) s = .next t ∧ StoredUpTo s u j ∧ u = { s with mem := u.mem } ∧
        t = raiseFault u .bus (unitAddr s.outCur s.outStr j))

/-- ADV (R160), its word 0xA0 + w. -/
def Obligations.AdvMovesTheCursors : Prop :=
  ∀ (s : State) (w : Width), decodeUop (0xA0#8 + BitVec.ofNat 8 w.regs) = .ok (.adv w) ∧ exec (.adv w) s = .next { s with
    inCur := s.inCur + BitVec.ofNat 64 w.regs * s.inStr
    xorCur := s.xorCur + BitVec.ofNat 64 w.regs * s.xorStr
    outCur := s.outCur + BitVec.ofNat 64 w.regs * s.outStr
    lenRem := s.lenRem - BitVec.ofNat 64 (w.regs * 16), uop := 0x20#8 }

/-! ### The counter synthesizer (43_counter.md) -/

/-- The counter adder (R170): the leading bytes stay, the trailing `CTRW` bytes are the big-endian sum modulo
`2^(8*CTRW)`, and the adder composes; `CTRW` is 16, 4 or 8. -/
def Obligations.CounterAdderIsBigEndianModular : Prop :=
  ∀ (c : Config) (blk : List Byte) (m n : Nat), blk.length = blockBytes c →
    (c.block = .b16 → counterBytes c = 16) ∧
    (c.block = .b8 → counterBytes c = if c.ctr8w8 = true then 8 else 4) ∧
    (ctrAdd c blk n).length = blockBytes c ∧
    (ctrAdd c blk n).take (blockBytes c - counterBytes c) = blk.take (blockBytes c - counterBytes c) ∧
    beInt ((ctrAdd c blk n).drop (blockBytes c - counterBytes c)) =
      (beInt (blk.drop (blockBytes c - counterBytes c)) + n) % 2 ^ (8 * counterBytes c) ∧
    ctrAdd c (ctrAdd c blk m) n = ctrAdd c blk (m + n)

/-- Where the 4-byte counter field of an 8-byte block does not wrap, both settings of CTR8W give the same block
(R253). -/
def Obligations.CounterWidthsAgreeWithoutWrap : Prop :=
  ∀ (c : Config) (blk : List Byte) (n : Nat), c.block = .b8 → blk.length = 8 →
    beInt (blk.drop 4) + n < 2 ^ 32 →
    ctrAdd { c with ctr8w8 := false } blk n = ctrAdd { c with ctr8w8 := true } blk n

/-- CTRGEN (R172, R174): the stored counter fills the lanes with consecutive values and the next one is written back; a
refused read changes nothing, a refused write-back leaves the registers filled and memory as it was. -/
def Obligations.CtrgenSynthesizesTheCounters : Prop :=
  ∀ (s : State) (w : Width), Memory.wf s.mem = true →
    (portAnswer s.port .read s.inCur (blockBytes s.cfg) = .accept →
      portAnswer s.port .write s.inCur (blockBytes s.cfg) = .accept →
      ∃ t, exec (.ctrgen w) s = .next t ∧ CounterLanes s t (bytesAt s.mem s.inCur (blockBytes s.cfg)) w.regs ∧
        WroteBlock s t s.inCur
          (ctrAdd s.cfg (bytesAt s.mem s.inCur (blockBytes s.cfg)) (w.regs * lanesPerReg s.cfg)) ∧
        t = { s with vr := t.vr, mem := t.mem,
                     uop := (if xorIn s = true then 0x60#8 else 0x70#8) + BitVec.ofNat 8 w.regs }) ∧
    (portAnswer s.port .read s.inCur (blockBytes s.cfg) = .error →
      exec (.ctrgen w) s = .next (raiseFault s .bus s.inCur)) ∧
    (portAnswer s.port .read s.inCur (blockBytes s.cfg) = .accept →
      portAnswer s.port .write s.inCur (blockBytes s.cfg) = .error →
      ∃ u t, exec (.ctrgen w) s = .next t ∧ CounterLanes s u (bytesAt s.mem s.inCur (blockBytes s.cfg)) w.regs ∧
        u = { s with vr := u.vr } ∧ t = raiseFault u .bus s.inCur)

/-- CTRGEN.T (R176): one counter block with zero padding, and the counter plus 1 written back; the faults as
CTRGEN's. -/
def Obligations.CtrgenTailSynthesizesOneCounter : Prop :=
  ∀ (s : State) (w : Width), Memory.wf s.mem = true →
    (portAnswer s.port .read s.inCur (blockBytes s.cfg) = .accept →
      portAnswer s.port .write s.inCur (blockBytes s.cfg) = .accept →
      ∃ t, exec (.ctrgenT w) s = .next t ∧ PaddedBlock s t (bytesAt s.mem s.inCur (blockBytes s.cfg)) w.regs ∧
        WroteBlock s t s.inCur (ctrAdd s.cfg (bytesAt s.mem s.inCur (blockBytes s.cfg)) 1) ∧
        t = { s with vr := t.vr, mem := t.mem,
                     uop := (if xorIn s = true then 0x68#8 else 0x78#8) + BitVec.ofNat 8 w.regs }) ∧
    (portAnswer s.port .read s.inCur (blockBytes s.cfg) = .error →
      exec (.ctrgenT w) s = .next (raiseFault s .bus s.inCur)) ∧
    (portAnswer s.port .read s.inCur (blockBytes s.cfg) = .accept →
      portAnswer s.port .write s.inCur (blockBytes s.cfg) = .error →
      ∃ u t, exec (.ctrgenT w) s = .next t ∧ PaddedBlock s u (bytesAt s.mem s.inCur (blockBytes s.cfg)) w.regs ∧
        u = { s with vr := u.vr } ∧ t = raiseFault u .bus s.inCur)

/-! ### The partial-block handler (44_tail.md) -/

/-- LDIN.T (R183): one block of `B` bytes in lane 0 of `VR[0]`, zero in every other lane of the `WN` registers; a refused
read changes nothing but the fault. -/
def Obligations.LdinTailLoadsOneBlock : Prop :=
  ∀ (s : State) (w : Width),
    (portAnswer s.port .read s.inCur (blockBytes s.cfg) = .accept →
      ∃ t, exec (.ldinT w) s = .next t ∧ PaddedBlock s t (bytesAt s.mem s.inCur (blockBytes s.cfg)) w.regs ∧
        (∀ a, byteAt t.mem a = byteAt s.mem a) ∧
        t = { s with vr := t.vr, uop := (if xorIn s = true then 0x68#8 else 0x78#8) + BitVec.ofNat 8 w.regs }) ∧
    (portAnswer s.port .read s.inCur (blockBytes s.cfg) = .error →
      exec (.ldinT w) s = .next (raiseFault s .bus s.inCur))

/-- XORIN.T (R184). -/
def Obligations.XorinTailMasksOneBlock : Prop :=
  ∀ (s : State) (w : Width),
    (portAnswer s.port .read s.xorCur (blockBytes s.cfg) = .accept →
      ∃ t, exec (.xorinT w) s = .next t ∧ MaskedBlock s t ∧ (∀ a, byteAt t.mem a = byteAt s.mem a) ∧
        t = { s with vr := t.vr, uop := 0x78#8 + BitVec.ofNat 8 w.regs }) ∧
    (portAnswer s.port .read s.xorCur (blockBytes s.cfg) = .error →
      exec (.xorinT w) s = .next (raiseFault s .bus s.xorCur))

/-- XOROUT.T (R186). -/
def Obligations.XoroutTailMasksOneBlock : Prop :=
  ∀ (s : State) (w : Width),
    (portAnswer s.port .read s.xorCur (blockBytes s.cfg) = .accept →
      ∃ t, exec (.xoroutT w) s = .next t ∧ MaskedBlock s t ∧ (∀ a, byteAt t.mem a = byteAt s.mem a) ∧
        t = { s with vr := t.vr, uop := 0x98#8 + BitVec.ofNat 8 w.regs }) ∧
    (portAnswer s.port .read s.xorCur (blockBytes s.cfg) = .error →
      exec (.xoroutT w) s = .next (raiseFault s .bus s.xorCur))

/-- KCALL.T (R185): the request of KCALL, another successor. -/
def Obligations.KcallTailTransformsEachLane : Prop :=
  ∀ (s : State) (w : Width),
    ∃ t, exec (.kcallT w) s = .next t ∧ KernelLanes s t w.regs ∧ (∀ a, byteAt t.mem a = byteAt s.mem a) ∧
      t = { s with vr := t.vr, uop := (if xorOut s = true then 0x88#8 else 0x98#8) + BitVec.ofNat 8 w.regs }

/-- STOUT.T (R187): exactly `B` bytes are written. Its word is 0x98 + w. -/
def Obligations.StoutTailStoresOneBlock : Prop :=
  ∀ (s : State) (w : Width), Memory.wf s.mem = true →
    decodeUop (0x98#8 + BitVec.ofNat 8 w.regs) = .ok (.stoutT w) ∧
    (portAnswer s.port .write s.outCur (blockBytes s.cfg) = .accept →
      ∃ t, exec (.stoutT w) s = .next t ∧ WroteBlock s t s.outCur (regSlice (vreg s 0) 0 (blockBytes s.cfg)) ∧
        t = { s with mem := t.mem, uop := 0xA8#8 + BitVec.ofNat 8 w.regs }) ∧
    (portAnswer s.port .write s.outCur (blockBytes s.cfg) = .error →
      exec (.stoutT w) s = .next (raiseFault s .bus s.outCur))

/-- ADV.T (R188): one stride per cursor, `B` bytes off the length. Its word is 0xA8 + w. -/
def Obligations.AdvTailMovesTheCursors : Prop :=
  ∀ (s : State) (w : Width), decodeUop (0xA8#8 + BitVec.ofNat 8 w.regs) = .ok (.advT w) ∧ exec (.advT w) s = .next { s with
    inCur := s.inCur + s.inStr, xorCur := s.xorCur + s.xorStr, outCur := s.outCur + s.outStr
    lenRem := s.lenRem - BitVec.ofNat 64 (blockBytes s.cfg), uop := 0x20#8 }

/-- FINISH (R190), its word 0xB0. -/
def Obligations.FinishReturnsTheRemainder : Prop :=
  ∀ s : State, decodeUop 0xB0#8 = .ok .finish ∧ exec .finish s =
    .next { s with remainder := s.lenRem, busy := false, done := true, uop := 0x00#8 }

/-- The tail iteration as one function (R189): with no mask or with one, four or five micro-operations from LDIN.T store
`E` of the source block, masked before or after, at OUTCUR, and end in ADV.T's state. `E` reads the subkey table as memory
holds it then, which is the memory the iteration found (its only writes come last). -/
def Obligations.TailIterationIsOneFunction : Prop :=
  ∀ s : State, s.hostq = [] → s.uop = 0x48#8 + BitVec.ofNat 8 (narrowest s.cfg).regs → Memory.wf s.mem = true →
    portAnswer s.port .read s.inCur (blockBytes s.cfg) = .accept →
    (s.xNull = false → portAnswer s.port .read s.xorCur (blockBytes s.cfg) = .accept) →
    portAnswer s.port .write s.outCur (blockBytes s.cfg) = .accept →
    ∃ t, Host.Core.run Sys2Proof.core (if s.xNull = true then 4 else 5) s = .next t ∧
      WroteBlock s t s.outCur
        (let m := bytesAt s.mem s.xorCur (blockBytes s.cfg)
         let b := bytesAt s.mem s.inCur (blockBytes s.cfg)
         let e := blockE s.cfg (bytesAt s.mem s.sk (tableBytes s.cfg s.rnd)) s.rnd (if xorIn s = true then xorBytes b m else b)
         if xorOut s = true then xorBytes e m else e) ∧
      t = { s with vr := t.vr, mem := t.mem, uop := 0x20#8
                   inCur := s.inCur + s.inStr, xorCur := s.xorCur + s.xorStr, outCur := s.outCur + s.outStr
                   lenRem := s.lenRem - BitVec.ofNat 64 (blockBytes s.cfg) }

/-! ### The kernel port (45_kernel_port.md) -/

/-- The test kernels: KX is its own inverse and KS undoes KA, on every block, whatever the table (R201, R202, and the
round trip of R199 for that pair). -/
def Obligations.TestKernelsInvert : Prop :=
  ∀ (c : Config) (table blk : List Byte) (rnd : BitVec 32), blk.length = table.length →
    blockE { c with kernel := .kx } table rnd (blockE { c with kernel := .kx } table rnd blk) = blk ∧
    blockE { c with kernel := .ks } table rnd (blockE { c with kernel := .ka } table rnd blk) = blk

/-- The padding of a tail call cannot reach the block (R196): if lane 0 of `VR[0]` is the same in two states that agree
on the table and the round count, so is it after KCALL, whatever the other lanes hold. -/
def Obligations.PaddingLanesDoNotReachTheBlock : Prop :=
  ∀ (s s' t t' : State) (w : Width),
    s' = { s with vr := s'.vr } → laneOf s 0 = laneOf s' 0 →
    exec (.kcallT w) s = .next t → exec (.kcallT w) s' = .next t' → laneOf t 0 = laneOf t' 0

/-! ### Vector registers are written before they are read (10_state.md R42) -/

/-- An assembly step leaves in its registers values that depend on nothing they held before (R42): LDIN, LDIN.T, CTRGEN
and CTRGEN.T, from two states that differ only in VR. -/
def Obligations.AssemblyIgnoresOldRegisters : Prop :=
  ∀ (s : State) (v : Vector VReg 6) (w : Width) (i : Instr) (t t' : State),
    (i = .ldin w ∨ i = .ldinT w ∨ i = .ctrgen w ∨ i = .ctrgenT w) →
    exec i s = .next t → exec i { s with vr := v } = .next t' → t.uop ≠ 0xF0#8 →
    t' = { t with vr := t'.vr } ∧ ∀ k < w.regs, vreg t k = vreg t' k

/-! ### Memory (20_memory.md R61, R62, R70) -/

/-- A request that stored bytes is read back, and every byte outside it is as it was. -/
def Obligations.StoredBytesAreReadBack : Prop :=
  ∀ (m : Memory) (a : Addr) (v : List Byte), Memory.wf m = true → v.length ≤ 16 →
    bytesAt (storeBytes m a v) a v.length = v ∧
    ∀ x, (∀ k < v.length, x ≠ a + BitVec.ofNat 64 k) → byteAt (storeBytes m a v) x = byteAt m x

/-! ### Invariants: from every state that has them, every step keeps them -/

/-- Memory stays in its canonical form. -/
def Obligations.MemoryStaysCanonical : Prop :=
  ∀ s t : State, Memory.wf s.mem = true → step s = .next t → Memory.wf t.mem = true

/-- Idle, busy and faulted stay mutually exclusive, and UOP keeps saying which (R26, R44). -/
def Obligations.StatusStaysExclusive : Prop :=
  ∀ s t : State, StatusInv s → step s = .next t → StatusInv t

/-- The fault record stays consistent (R29, R211). -/
def Obligations.FaultRecordStaysConsistent : Prop :=
  ∀ s t : State, FaultRecordInv s → step s = .next t → FaultRecordInv t

/-- The strides stay among the values R36 lists. -/
def Obligations.StridesStayLegal : Prop :=
  ∀ s t : State, StrideInv s → step s = .next t → StrideInv t

/-- The sequencer never leaves its transition table: UOP always holds a word of the map, of a width the instance has, in
a position whose predicates and length hold (R106, R108, R143). -/
def Obligations.SequencerStaysInItsTable : Prop :=
  ∀ s t : State, SequencerInv s → step s = .next t → SequencerInv t

/-- While DONE, REMAINDER is the length left, in `[0, B)` (R48, R192). -/
def Obligations.ResultStaysBelowOneBlock : Prop :=
  ∀ s t : State, StatusInv s → SequencerInv s → ResultInv s → step s = .next t → ResultInv t

/-- The cursors stay tied to the length left: forward at `ptr + (LENGTH - LENREM)`, reverse at `ptr + LENREM - unit`,
frozen where SETUP put them (R79, R191), as long as the command runs. -/
def Obligations.CursorsStayTiedToTheLength : Prop :=
  ∀ s t : State, StrideInv s → SequencerInv s → CursorInv s → step s = .next t → CursorInv t

/-- The length left keeps the remainder of LENGTH modulo `B` and never exceeds it, as long as the command runs
(R144, R192). -/
def Obligations.LengthLeftKeepsTheRemainder : Prop :=
  ∀ s t : State, SequencerInv s → LengthInv s → step s = .next t → LengthInv t

/-- Every invariant above holds right after reset, for every configuration, the standard one of State.reset among them
(entry 1). -/
def Obligations.ResetHasEveryInvariant : Prop :=
  State.reset = State.resetOf Config.standard ∧ Config.wf Config.standard = true ∧
  ∀ c : Config, Memory.wf (State.resetOf c).mem = true ∧ StatusInv (State.resetOf c) ∧
    FaultRecordInv (State.resetOf c) ∧ StrideInv (State.resetOf c) ∧ SequencerInv (State.resetOf c) ∧
    ResultInv (State.resetOf c) ∧ CursorInv (State.resetOf c) ∧ LengthInv (State.resetOf c)

/-- No step changes the configuration (R5, R28) or the port's map (entry 5). -/
def Obligations.ConfigurationNeverChanges : Prop :=
  ∀ s t : State, step s = .next t → t.cfg = s.cfg ∧ t.port = s.port

/-- The sequencer never meets a word its instance's decoder calls invalid: in its table, no step stops with a fault of the
model (R108, 93 U45; the fault is the model's, entry 13). -/
def Obligations.ReservedWordsAreNeverMet : Prop :=
  ∀ (s : State) (f : Fault), SequencerInv s → step s ≠ .fault f

/-- A started command faults or finishes (R144, R192, R260): with no action of the host pending and no device memory, from
SETUP within `6 * floor(LENGTH / B) + 4` micro-operations it is faulted, or finished with `REMAINDER = LENGTH mod B` and
the operand registers as they were. That both ports answer every request at once, on which this rests, is the model's
choice (entry 17); R260 says 'if the ports answer'. -/
def Obligations.StartedCommandFaultsOrEndsWithItsRemainder : Prop :=
  ∀ s : State, s.hostq = [] → s.uop = 0x10#8 → NoDevice s →
    ∃ n t, n ≤ 6 * (s.length.toNat / blockBytes s.cfg) + 4 ∧ Host.Core.run Sys2Proof.core n s = .next t ∧
      ((t.uop = 0xF0#8 ∧ t.fault = true ∧ t.busy = false) ∨
       (t.uop = 0x00#8 ∧ t.done = true ∧ t.busy = false ∧
        t.remainder.toNat = s.length.toNat % blockBytes s.cfg ∧
        t.subkeys = s.subkeys ∧ t.rounds = s.rounds ∧ t.inPtr = s.inPtr ∧ t.xorPtr = s.xorPtr ∧
        t.outPtr = s.outPtr ∧ t.length = s.length ∧ t.flags = s.flags))
end

