-- ==== Sys2Proof/Laws/Bytes.lean ====
section
/-! SUPPORT. The laws of the byte-order helpers and of the bytes of a vector register. -/

namespace Sys2Proof.Machine

/-! ### Little-endian numbers -/

@[simp] theorem leNat_nil : leNat [] = 0 := rfl

@[simp] theorem leNat_cons (b : Byte) (bs : List Byte) : leNat (b :: bs) = b.toNat + 256 * leNat bs := rfl

@[simp] theorem leBytes_length (n v : Nat) : (leBytes n v).length = n := by
  induction n generalizing v with
  | zero => rfl
  | succ n ih => simp [leBytes, ih]

theorem leNat_lt (bs : List Byte) : leNat bs < 256 ^ bs.length := by
  induction bs with
  | nil => simp
  | cons b bs ih =>
    have hb : b.toNat < 256 := b.isLt
    have : (256 : Nat) ^ (b :: bs).length = 256 * 256 ^ bs.length := by simp [pow_succ, Nat.mul_comm]
    simp only [leNat_cons]
    omega

theorem leNat_leBytes (n v : Nat) : leNat (leBytes n v) = v % 256 ^ n := by
  induction n generalizing v with
  | zero => simp [leBytes, Nat.mod_one]
  | succ n ih =>
    have h := Nat.mod_mul (x := v) (a := 256) (b := 256 ^ n)
    have h8 : (2 : Nat) ^ 8 = 256 := by norm_num
    rw [leBytes, leNat_cons, ih, BitVec.toNat_ofNat, h8, pow_succ, Nat.mul_comm (256 ^ n) 256, h]

theorem leBytes_leNat (bs : List Byte) : leBytes bs.length (leNat bs) = bs := by
  induction bs with
  | nil => rfl
  | cons b bs ih =>
    have hb : b.toNat < 256 := b.isLt
    simp only [List.length_cons, leBytes, leNat_cons]
    have h1 : (b.toNat + 256 * leNat bs) / 256 = leNat bs := by omega
    have h2 : BitVec.ofNat 8 (b.toNat + 256 * leNat bs) = b := by
      apply BitVec.eq_of_toNat_eq
      simp only [BitVec.toNat_ofNat]
      omega
    rw [h1, h2, ih]

theorem leNat_append (a b : List Byte) : leNat (a ++ b) = leNat a + 256 ^ a.length * leNat b := by
  induction a with
  | nil => simp
  | cons x a ih =>
    simp only [List.cons_append, leNat_cons, ih, List.length_cons, pow_succ]
    ring

theorem leNat_div_pow (bs : List Byte) (k : Nat) : leNat bs / 256 ^ k % 256 = (bs.getD k 0).toNat := by
  induction bs generalizing k with
  | nil => simp
  | cons b bs ih =>
    have hb : b.toNat < 256 := b.isLt
    cases k with
    | zero => simp only [leNat_cons, pow_zero, Nat.div_one, List.getD_cons_zero]; omega
    | succ k =>
      have h1 : (b.toNat + 256 * leNat bs) / 256 = leNat bs := by omega
      rw [leNat_cons, pow_succ', ← Nat.div_div_eq_div_mul]
      rw [h1, ih, List.getD_cons_succ]

/-! ### Big-endian numbers (00_scope.md R9) -/

@[simp] theorem beBytes_length (n v : Nat) : (beBytes n v).length = n := by simp [beBytes]

theorem beInt_lt (bs : List Byte) : beInt bs < 256 ^ bs.length := by
  simpa [beInt] using leNat_lt bs.reverse

theorem beInt_beBytes (n v : Nat) : beInt (beBytes n v) = v % 256 ^ n := by
  simp [beInt, beBytes, leNat_leBytes]

theorem beBytes_beInt (bs : List Byte) : beBytes bs.length (beInt bs) = bs := by
  have := leBytes_leNat bs.reverse
  simp only [List.length_reverse] at this
  simp [beBytes, beInt, this]

/-! ### The bytes of a vector register (10_state.md R41, 20_memory.md R64) -/

theorem regByte_toNat (r : VReg) (k : Nat) : (regByte r k).toNat = r.toNat / 256 ^ k % 256 := by
  simp only [regByte, BitVec.extractLsb'_toNat, Nat.shiftRight_eq_div_pow, pow_mul]
  norm_num

theorem regByte_regOfBytes (bs : List Byte) (k : Nat) (hk : k < 16) :
    regByte (regOfBytes bs) k = bs.getD k 0 := by
  apply BitVec.eq_of_toNat_eq
  rw [regByte_toNat, ← leNat_div_pow, regOfBytes, BitVec.toNat_ofNat]
  have h : (2 : Nat) ^ 128 = 256 ^ k * 256 ^ (16 - k) := by
    rw [← pow_add, show k + (16 - k) = 16 by omega]; norm_num
  rw [h, Nat.mod_mul_right_div_self]
  have h2 : (256 : Nat) ^ (16 - k) = 256 * 256 ^ (15 - k) := by
    rw [← pow_succ', show 15 - k + 1 = 16 - k by omega]
  rw [h2, Nat.mod_mul_right_mod]

/-- A vector register is its sixteen bytes. -/
theorem reg_ext {a b : VReg} (h : ∀ k < 16, regByte a k = regByte b k) : a = b := by
  apply BitVec.eq_of_getLsbD_eq
  intro i hi
  have hk := h (i / 8) (by omega)
  have := congrArg (fun x : Byte => x.getLsbD (i % 8)) hk
  simp only [regByte, BitVec.getLsbD_extractLsb'] at this
  have h8 : i % 8 < 8 := Nat.mod_lt _ (by norm_num)
  simpa [h8, Nat.div_add_mod] using this

@[simp] theorem regSlice_length (r : VReg) (i n : Nat) : (regSlice r i n).length = n := by simp [regSlice]

theorem regSlice_getD (r : VReg) (i n k : Nat) (hk : k < n) : (regSlice r i n).getD k 0 = regByte r (i + k) := by
  simp [regSlice, List.getD, hk]

@[simp] theorem zeros_length (n : Nat) : (zeros n).length = n := by simp [zeros]

theorem zeros_getD (n k : Nat) : (zeros n).getD k 0 = 0 := by
  simp only [zeros, List.getD, List.getElem?_replicate]
  split <;> rfl

/-- A register rebuilt from all of its bytes is itself. -/
theorem regOfBytes_regSlice (r : VReg) : regOfBytes (regSlice r 0 16) = r :=
  reg_ext fun k hk => by rw [regByte_regOfBytes _ _ hk, regSlice_getD _ _ _ _ hk, Nat.zero_add]

theorem regByte_zero (k : Nat) : regByte 0 k = 0 := by
  apply BitVec.eq_of_toNat_eq
  simp [regByte]

end Sys2Proof.Machine
end

