-- ==== Sys2Proof/Laws/Decode.lean ====
section
/-! SUPPORT. The micro-operation words, both directions. -/

namespace Sys2Proof

@[simp] theorem widthField_toNat (w : Width) : (widthField w).toNat = w.regs := by cases w <;> rfl

theorem widthField_inj {v w : Width} (h : widthField v = widthField w) : v = w := by
  cases v <;> cases w <;> first | rfl | exact absurd h (by decide)

/-- Two widths with the same number of registers are the same. -/
theorem regs_inj {v w : Width} (h : v.regs = w.regs) : v = w := by
  cases v <;> cases w <;> first | rfl | exact absurd h (by decide)

/-- The decoder undoes the encoder on every micro-operation word. -/
theorem decodeUop_encodeUop {i : Instr} {u : BitVec 8} (h : encodeUop i = some u) : decodeUop u = .ok i := by
  cases i
  case process | start | srst => cases h
  case idle | setup | arb | tadj | finish | fault => cases h; rfl
  all_goals rename_i w; cases w <;> cases h <;> rfl

theorem decodeWidth_some {f : BitVec 3} {w : Width} (h : decodeWidth f = some w) : f = widthField w := by
  have key : ∀ f : BitVec 3, ∀ w ∈ [Width.w1, .w2, .w4, .w6], decodeWidth f = some w → f = widthField w := by decide
  exact key f w (by cases w <;> simp) h

set_option maxRecDepth 20000 in
/-- The encoder undoes the decoder: one word, one micro-operation. -/
theorem encodeUop_decodeUop {i : Instr} {u : BitVec 8} (h : decodeUop u = .ok i) : encodeUop i = some u := by
  have key : ∀ u : BitVec 8,
      (match decodeUop u with | .ok i => decide (encodeUop i = some u) | .error _ => true) = true := by decide
  have := key u
  simpa [h] using this

/-- Micro-operations with the same word are the same. -/
theorem encodeUop_inj {i j : Instr} {u : BitVec 8} (hi : encodeUop i = some u) (hj : encodeUop j = some u) : i = j := by
  have := decodeUop_encodeUop hi
  rw [decodeUop_encodeUop hj] at this
  exact (Except.ok.inj this).symm

/-- What an instance's decoder reads is what the map says, of a width the instance has. -/
theorem Machine.decodeUopFor_ok {c : Config} {u : BitVec 8} {i : Instr} :
    Machine.decodeUopFor c u = .ok i ↔ decodeUop u = .ok i ∧ Machine.instanceHas c i = true := by
  unfold Machine.decodeUopFor
  cases decodeUop u with
  | error e => simp
  | ok j =>
    by_cases h : Machine.instanceHas c j = true
    · simp only [h, if_true, Except.ok.injEq]; constructor
      · rintro rfl; exact ⟨rfl, h⟩
      · exact And.left
    · simp only [h, Bool.false_eq_true, if_false, reduceCtorEq, Except.ok.injEq, false_iff, not_and]
      rintro rfl; exact h

/-- A word the instance has is read back by its decoder. -/
theorem Machine.decodeUopFor_encodeUop {c : Config} {i : Instr} {u : BitVec 8} (h : encodeUop i = some u)
    (hi : Machine.instanceHas c i = true) : Machine.decodeUopFor c u = .ok i :=
  Machine.decodeUopFor_ok.mpr ⟨decodeUop_encodeUop h, hi⟩

end Sys2Proof
end

