-- ==== Sys2Proof/Laws/Memory.lean ====
section
/-! SUPPORT. The laws of the data space: read after write, the canonical form, equality by contents. -/

namespace Sys2Proof.Machine

/-- What the canonical form says of its first entry. -/
theorem Memory.wf_cons (a : Nat) (b : Byte) (r : Memory) :
    Memory.wf ((a, b) :: r) = true ↔
      a < 2 ^ 64 ∧ b ≠ unwrittenByte ∧ (∀ c ∈ r, a < c.1) ∧ Memory.wf r = true := by
  induction r generalizing a b with
  | nil => simp [Memory.wf]
  | cons c r ih =>
    obtain ⟨a', b'⟩ := c
    simp only [Memory.wf, Bool.and_eq_true, decide_eq_true_eq, List.forall_mem_cons, and_assoc]
    constructor
    · rintro ⟨h1, h2, h3⟩
      obtain ⟨h4, h5, h6, h7⟩ := (ih a' b').1 h3
      exact ⟨by omega, h2, h1, fun c hc => by have := h6 c hc; omega, h3⟩
    · rintro ⟨_, h2, h1, _, h3⟩
      exact ⟨h1, h2, h3⟩

/-- An address below every entry reads as nothing written. -/
theorem Memory.read_below (m : Memory) (a : Nat) (h : ∀ c ∈ m, a < c.1) : Memory.read m a = unwrittenByte := by
  induction m with
  | nil => rfl
  | cons c r ih =>
    obtain ⟨a', b⟩ := c
    have ha := h (a', b) (by simp)
    simp only [Memory.read]
    rw [if_neg (by simp at ha; omega)]
    exact ih fun c hc => h c (by simp [hc])

theorem Memory.mem_write {m : Memory} {a : Nat} {v : Byte} {c : Host.Cell} (h : c ∈ Memory.write m a v) :
    c = (a, v) ∧ v ≠ unwrittenByte ∨ c ∈ m := by
  induction m with
  | nil => simp only [Memory.write] at h; split at h <;> simp_all
  | cons d r ih =>
    obtain ⟨a', b⟩ := d
    simp only [Memory.write] at h
    split at h
    · split at h <;> simp_all
    · split at h
      · split at h <;> simp_all
        tauto
      · rcases List.mem_cons.1 h with rfl | h
        · simp
        · rcases ih h with h | h <;> simp [h]

/-- A write keeps the canonical form. -/
theorem Memory.wf_write (m : Memory) (a : Nat) (v : Byte) (ha : a < 2 ^ 64) (h : Memory.wf m = true) :
    Memory.wf (Memory.write m a v) = true := by
  induction m with
  | nil =>
    simp only [Memory.write]
    split
    · rfl
    · simp_all [Memory.wf]
  | cons d r ih =>
    obtain ⟨a', b⟩ := d
    obtain ⟨h1, h2, h3, h4⟩ := (Memory.wf_cons a' b r).1 h
    simp only [Memory.write]
    split
    · split
      · exact h
      · rename_i hlt hv
        refine (Memory.wf_cons _ _ _).2 ⟨ha, hv, ?_, h⟩
        intro c hc
        rcases List.mem_cons.1 hc with rfl | hc
        · exact hlt
        · have := h3 c hc; omega
    · split
      · split
        · exact h4
        · rename_i heq hv
          exact (Memory.wf_cons _ _ _).2 ⟨ha, hv, fun c hc => heq ▸ h3 c hc, h4⟩
      · refine (Memory.wf_cons _ _ _).2 ⟨h1, h2, ?_, ih h4⟩
        intro c hc
        rcases Memory.mem_write hc with ⟨rfl, -⟩ | hc
        · simp; omega
        · exact h3 c hc

/-- Read after write. -/
theorem Memory.read_write (m : Memory) (a : Nat) (v : Byte) (x : Nat) (h : Memory.wf m = true) :
    Memory.read (Memory.write m a v) x = if x = a then v else Memory.read m x := by
  induction m with
  | nil =>
    simp only [Memory.write]
    split
    · rename_i hv; simp only [Memory.read, hv]; split <;> rfl
    · simp only [Memory.read, eq_comm]
  | cons d r ih =>
    obtain ⟨a', b⟩ := d
    obtain ⟨-, -, h3, h4⟩ := (Memory.wf_cons a' b r).1 h
    simp only [Memory.write]
    split
    · rename_i hlt
      split
      · rename_i hv
        by_cases hx : x = a
        · subst hx
          rw [if_pos rfl, hv]
          refine Memory.read_below _ _ fun c hc => ?_
          rcases List.mem_cons.1 hc with rfl | hc
          · exact hlt
          · have := h3 c hc; omega
        · rw [if_neg hx]
      · simp only [Memory.read, eq_comm]
    · split
      · rename_i heq
        split
        · rename_i hv
          by_cases hx : x = a
          · subst hx
            rw [if_pos rfl, hv]
            exact Memory.read_below _ _ fun c hc => heq ▸ h3 c hc
          · rw [if_neg hx]
            simp only [Memory.read]
            rw [if_neg (by omega)]
        · simp only [Memory.read]
          by_cases hx : x = a
          · simp [hx]
          · rw [if_neg (by omega), if_neg hx, if_neg (by omega)]
      · simp only [Memory.read, ih h4]
        by_cases hx : a' = x
        · rw [if_pos hx, if_pos hx, if_neg (by omega)]
        · rw [if_neg hx, if_neg hx]

/-- Two memories in the canonical form with the same contents are equal. -/
theorem Memory.ext_of_wf {m n : Memory} (hm : Memory.wf m = true) (hn : Memory.wf n = true)
    (h : ∀ x, Memory.read m x = Memory.read n x) : m = n := by
  induction m generalizing n with
  | nil =>
    cases n with
    | nil => rfl
    | cons d r =>
      obtain ⟨a, b⟩ := d
      have h1 := (Memory.wf_cons a b r).1 hn
      have := h a
      simp [Memory.read] at this
      exact absurd this.symm h1.2.1
  | cons d r ih =>
    obtain ⟨a, b⟩ := d
    obtain ⟨-, h2, h3, h4⟩ := (Memory.wf_cons a b r).1 hm
    cases n with
    | nil =>
      have := h a
      simp [Memory.read] at this
      exact absurd this h2
    | cons d' r' =>
      obtain ⟨a', b'⟩ := d'
      obtain ⟨-, h2', h3', h4'⟩ := (Memory.wf_cons a' b' r').1 hn
      have haa : a = a' := by
        by_contra hne
        rcases Nat.lt_or_ge a a' with hlt | hge
        · have := h a
          rw [Memory.read_below ((a', b') :: r') a (by
            intro c hc
            rcases List.mem_cons.1 hc with rfl | hc
            · exact hlt
            · have := h3' c hc; omega)] at this
          simp [Memory.read] at this
          exact h2 this
        · have := h a'
          rw [Memory.read_below ((a, b) :: r) a' (by
            intro c hc
            rcases List.mem_cons.1 hc with rfl | hc
            · simp; omega
            · have := h3 c hc; omega)] at this
          simp [Memory.read] at this
          exact h2' this.symm
      subst haa
      have hbb : b = b' := by simpa [Memory.read] using h a
      subst hbb
      rw [ih h4 h4' fun x => ?_]
      by_cases hx : a = x
      · subst hx
        rw [Memory.read_below r a h3, Memory.read_below r' a h3']
      · simpa [Memory.read, hx] using h x

/-! ### Requests of several bytes -/

theorem wf_storeBytes (vs : List Byte) (m : Memory) (a : Addr) (h : Memory.wf m = true) :
    Memory.wf (storeBytes m a vs) = true := by
  induction vs generalizing m a with
  | nil => exact h
  | cons v vs ih => exact ih _ _ (Memory.wf_write m _ v a.isLt h)

/-- What a byte holds after a request that stored `vs` at `a`: byte `x - a` of `vs` if there is one, else what it
held. -/
theorem byteAt_storeBytes (vs : List Byte) (m : Memory) (a x : Addr) (h : Memory.wf m = true)
    (hl : vs.length ≤ 2 ^ 64) :
    byteAt (storeBytes m a vs) x =
      if (x - a).toNat < vs.length then vs.getD (x - a).toNat 0 else byteAt m x := by
  induction vs generalizing m a with
  | nil => simp [storeBytes]
  | cons v vs ih =>
    simp only [List.length_cons] at hl ⊢
    have hw := Memory.wf_write m a.toNat v a.isLt h
    rw [storeBytes, ih _ _ hw (by omega)]
    by_cases hx : x = a
    · subst hx
      have h1 : (x - (x + 1#64)).toNat = 2 ^ 64 - 1 := by
        rw [show x - (x + 1#64) = -1#64 by ring]; decide
      rw [h1, if_neg (by omega), byteAt, Memory.read_write _ _ _ _ h, if_pos rfl]
      simp
    · have hne : x - a ≠ 0#64 := fun h0 => hx (by
        have := congrArg (· + a) h0
        simpa using this)
      have h1 : (x - a).toNat = (x - (a + 1#64)).toNat + 1 := by
        have h2 : x - (a + 1#64) = x - a - 1#64 := by ring
        rw [h2]
        have h3 : (x - a).toNat ≠ 0 := fun h0 => hne (BitVec.eq_of_toNat_eq (by simpa using h0))
        rw [BitVec.toNat_sub (x - a) 1#64]
        have h4 : (1#64 : BitVec 64).toNat = 1 := rfl
        have h5 := (x - a).isLt
        rw [h4]
        omega
      have hr : byteAt (Memory.write m a.toNat v) x = byteAt m x := by
        rw [byteAt, Memory.read_write _ _ _ _ h, if_neg (fun h0 => hx (BitVec.eq_of_toNat_eq h0)), byteAt]
      rw [h1, hr, List.getD_cons_succ]
      simp only [Nat.add_lt_add_iff_right]

@[simp] theorem bytesAt_length (m : Memory) (a : Addr) (n : Nat) : (bytesAt m a n).length = n := by simp [bytesAt]

theorem bytesAt_getD (m : Memory) (a : Addr) (n k : Nat) (hk : k < n) :
    (bytesAt m a n).getD k 0 = byteAt m (a + BitVec.ofNat 64 k) := by
  simp [bytesAt, List.getD, hk]

/-- The distance of byte `k` of a request from its start. -/
theorem addr_add_sub (a : Addr) (k : Nat) (hk : k < 2 ^ 64) : (a + BitVec.ofNat 64 k - a).toNat = k := by
  rw [show a + BitVec.ofNat 64 k - a = BitVec.ofNat 64 k by ring, BitVec.toNat_ofNat, Nat.mod_eq_of_lt hk]

/-- An address is at its distance from the start. -/
theorem addr_eq_add (a x : Addr) : x = a + BitVec.ofNat 64 (x - a).toNat := by
  rw [BitVec.ofNat_toNat, BitVec.setWidth_eq]; ring

/-- Byte `k` of a stored request. -/
theorem byteAt_storeBytes_of_lt (vs : List Byte) (m : Memory) (a : Addr) (k : Nat) (h : Memory.wf m = true)
    (hk : k < vs.length) (hl : vs.length ≤ 2 ^ 64) :
    byteAt (storeBytes m a vs) (a + BitVec.ofNat 64 k) = vs.getD k 0 := by
  rw [byteAt_storeBytes _ _ _ _ h hl, addr_add_sub _ _ (by omega), if_pos hk]

/-- A byte outside a stored request. -/
theorem byteAt_storeBytes_of_ne (vs : List Byte) (m : Memory) (a x : Addr) (h : Memory.wf m = true)
    (hl : vs.length ≤ 2 ^ 64) (hx : ∀ k < vs.length, x ≠ a + BitVec.ofNat 64 k) :
    byteAt (storeBytes m a vs) x = byteAt m x := by
  rw [byteAt_storeBytes _ _ _ _ h hl, if_neg]
  intro hlt
  exact hx _ hlt (addr_eq_add a x)

end Sys2Proof.Machine
end

