-- ==== Sys2Proof/Laws/State.lean ====
section
/-! SUPPORT. One lemma per field per named update of State, true by rfl, so that no later proof unfolds a record
update. -/

namespace Sys2Proof.Machine

/-! ### `setUop` -/

@[simp] theorem setUop_subkeys (s : State) (i : Instr) : (setUop s i).subkeys = s.subkeys := rfl
@[simp] theorem setUop_rounds (s : State) (i : Instr) : (setUop s i).rounds = s.rounds := rfl
@[simp] theorem setUop_inPtr (s : State) (i : Instr) : (setUop s i).inPtr = s.inPtr := rfl
@[simp] theorem setUop_xorPtr (s : State) (i : Instr) : (setUop s i).xorPtr = s.xorPtr := rfl
@[simp] theorem setUop_outPtr (s : State) (i : Instr) : (setUop s i).outPtr = s.outPtr := rfl
@[simp] theorem setUop_length (s : State) (i : Instr) : (setUop s i).length = s.length := rfl
@[simp] theorem setUop_flags (s : State) (i : Instr) : (setUop s i).flags = s.flags := rfl
@[simp] theorem setUop_busy (s : State) (i : Instr) : (setUop s i).busy = s.busy := rfl
@[simp] theorem setUop_done (s : State) (i : Instr) : (setUop s i).done = s.done := rfl
@[simp] theorem setUop_fault (s : State) (i : Instr) : (setUop s i).fault = s.fault := rfl
@[simp] theorem setUop_cause (s : State) (i : Instr) : (setUop s i).cause = s.cause := rfl
@[simp] theorem setUop_uop (s : State) (i : Instr) : (setUop s i).uop = (encodeUop i).getD s.uop := rfl
@[simp] theorem setUop_tailMode (s : State) (i : Instr) : (setUop s i).tailMode = s.tailMode := rfl
@[simp] theorem setUop_remainder (s : State) (i : Instr) : (setUop s i).remainder = s.remainder := rfl
@[simp] theorem setUop_fAddr (s : State) (i : Instr) : (setUop s i).fAddr = s.fAddr := rfl
@[simp] theorem setUop_cfg (s : State) (i : Instr) : (setUop s i).cfg = s.cfg := rfl
@[simp] theorem setUop_sk (s : State) (i : Instr) : (setUop s i).sk = s.sk := rfl
@[simp] theorem setUop_rnd (s : State) (i : Instr) : (setUop s i).rnd = s.rnd := rfl
@[simp] theorem setUop_f (s : State) (i : Instr) : (setUop s i).f = s.f := rfl
@[simp] theorem setUop_xNull (s : State) (i : Instr) : (setUop s i).xNull = s.xNull := rfl
@[simp] theorem setUop_inCur (s : State) (i : Instr) : (setUop s i).inCur = s.inCur := rfl
@[simp] theorem setUop_xorCur (s : State) (i : Instr) : (setUop s i).xorCur = s.xorCur := rfl
@[simp] theorem setUop_outCur (s : State) (i : Instr) : (setUop s i).outCur = s.outCur := rfl
@[simp] theorem setUop_inStr (s : State) (i : Instr) : (setUop s i).inStr = s.inStr := rfl
@[simp] theorem setUop_xorStr (s : State) (i : Instr) : (setUop s i).xorStr = s.xorStr := rfl
@[simp] theorem setUop_outStr (s : State) (i : Instr) : (setUop s i).outStr = s.outStr := rfl
@[simp] theorem setUop_lenRem (s : State) (i : Instr) : (setUop s i).lenRem = s.lenRem := rfl
@[simp] theorem setUop_w (s : State) (i : Instr) : (setUop s i).w = s.w := rfl
@[simp] theorem setUop_vr (s : State) (i : Instr) : (setUop s i).vr = s.vr := rfl
@[simp] theorem setUop_mem (s : State) (i : Instr) : (setUop s i).mem = s.mem := rfl
@[simp] theorem setUop_port (s : State) (i : Instr) : (setUop s i).port = s.port := rfl
@[simp] theorem setUop_hostq (s : State) (i : Instr) : (setUop s i).hostq = s.hostq := rfl
@[simp] theorem setUop_hostData (s : State) (i : Instr) : (setUop s i).hostData = s.hostData := rfl
@[simp] theorem setUop_freeIx (s : State) (i : Instr) : (setUop s i).freeIx = s.freeIx := rfl

/-! ### `setW` -/

@[simp] theorem setW_subkeys (s : State) (x : Width) : (setW s x).subkeys = s.subkeys := rfl
@[simp] theorem setW_rounds (s : State) (x : Width) : (setW s x).rounds = s.rounds := rfl
@[simp] theorem setW_inPtr (s : State) (x : Width) : (setW s x).inPtr = s.inPtr := rfl
@[simp] theorem setW_xorPtr (s : State) (x : Width) : (setW s x).xorPtr = s.xorPtr := rfl
@[simp] theorem setW_outPtr (s : State) (x : Width) : (setW s x).outPtr = s.outPtr := rfl
@[simp] theorem setW_length (s : State) (x : Width) : (setW s x).length = s.length := rfl
@[simp] theorem setW_flags (s : State) (x : Width) : (setW s x).flags = s.flags := rfl
@[simp] theorem setW_busy (s : State) (x : Width) : (setW s x).busy = s.busy := rfl
@[simp] theorem setW_done (s : State) (x : Width) : (setW s x).done = s.done := rfl
@[simp] theorem setW_fault (s : State) (x : Width) : (setW s x).fault = s.fault := rfl
@[simp] theorem setW_cause (s : State) (x : Width) : (setW s x).cause = s.cause := rfl
@[simp] theorem setW_uop (s : State) (x : Width) : (setW s x).uop = s.uop := rfl
@[simp] theorem setW_tailMode (s : State) (x : Width) : (setW s x).tailMode = s.tailMode := rfl
@[simp] theorem setW_remainder (s : State) (x : Width) : (setW s x).remainder = s.remainder := rfl
@[simp] theorem setW_fAddr (s : State) (x : Width) : (setW s x).fAddr = s.fAddr := rfl
@[simp] theorem setW_cfg (s : State) (x : Width) : (setW s x).cfg = s.cfg := rfl
@[simp] theorem setW_sk (s : State) (x : Width) : (setW s x).sk = s.sk := rfl
@[simp] theorem setW_rnd (s : State) (x : Width) : (setW s x).rnd = s.rnd := rfl
@[simp] theorem setW_f (s : State) (x : Width) : (setW s x).f = s.f := rfl
@[simp] theorem setW_xNull (s : State) (x : Width) : (setW s x).xNull = s.xNull := rfl
@[simp] theorem setW_inCur (s : State) (x : Width) : (setW s x).inCur = s.inCur := rfl
@[simp] theorem setW_xorCur (s : State) (x : Width) : (setW s x).xorCur = s.xorCur := rfl
@[simp] theorem setW_outCur (s : State) (x : Width) : (setW s x).outCur = s.outCur := rfl
@[simp] theorem setW_inStr (s : State) (x : Width) : (setW s x).inStr = s.inStr := rfl
@[simp] theorem setW_xorStr (s : State) (x : Width) : (setW s x).xorStr = s.xorStr := rfl
@[simp] theorem setW_outStr (s : State) (x : Width) : (setW s x).outStr = s.outStr := rfl
@[simp] theorem setW_lenRem (s : State) (x : Width) : (setW s x).lenRem = s.lenRem := rfl
@[simp] theorem setW_w (s : State) (x : Width) : (setW s x).w = widthField x := rfl
@[simp] theorem setW_vr (s : State) (x : Width) : (setW s x).vr = s.vr := rfl
@[simp] theorem setW_mem (s : State) (x : Width) : (setW s x).mem = s.mem := rfl
@[simp] theorem setW_port (s : State) (x : Width) : (setW s x).port = s.port := rfl
@[simp] theorem setW_hostq (s : State) (x : Width) : (setW s x).hostq = s.hostq := rfl
@[simp] theorem setW_hostData (s : State) (x : Width) : (setW s x).hostData = s.hostData := rfl
@[simp] theorem setW_freeIx (s : State) (x : Width) : (setW s x).freeIx = s.freeIx := rfl

/-! ### `setVreg` -/

@[simp] theorem setVreg_subkeys (s : State) (i : Nat) (r : VReg) : (setVreg s i r).subkeys = s.subkeys := rfl
@[simp] theorem setVreg_rounds (s : State) (i : Nat) (r : VReg) : (setVreg s i r).rounds = s.rounds := rfl
@[simp] theorem setVreg_inPtr (s : State) (i : Nat) (r : VReg) : (setVreg s i r).inPtr = s.inPtr := rfl
@[simp] theorem setVreg_xorPtr (s : State) (i : Nat) (r : VReg) : (setVreg s i r).xorPtr = s.xorPtr := rfl
@[simp] theorem setVreg_outPtr (s : State) (i : Nat) (r : VReg) : (setVreg s i r).outPtr = s.outPtr := rfl
@[simp] theorem setVreg_length (s : State) (i : Nat) (r : VReg) : (setVreg s i r).length = s.length := rfl
@[simp] theorem setVreg_flags (s : State) (i : Nat) (r : VReg) : (setVreg s i r).flags = s.flags := rfl
@[simp] theorem setVreg_busy (s : State) (i : Nat) (r : VReg) : (setVreg s i r).busy = s.busy := rfl
@[simp] theorem setVreg_done (s : State) (i : Nat) (r : VReg) : (setVreg s i r).done = s.done := rfl
@[simp] theorem setVreg_fault (s : State) (i : Nat) (r : VReg) : (setVreg s i r).fault = s.fault := rfl
@[simp] theorem setVreg_cause (s : State) (i : Nat) (r : VReg) : (setVreg s i r).cause = s.cause := rfl
@[simp] theorem setVreg_uop (s : State) (i : Nat) (r : VReg) : (setVreg s i r).uop = s.uop := rfl
@[simp] theorem setVreg_tailMode (s : State) (i : Nat) (r : VReg) : (setVreg s i r).tailMode = s.tailMode := rfl
@[simp] theorem setVreg_remainder (s : State) (i : Nat) (r : VReg) : (setVreg s i r).remainder = s.remainder := rfl
@[simp] theorem setVreg_fAddr (s : State) (i : Nat) (r : VReg) : (setVreg s i r).fAddr = s.fAddr := rfl
@[simp] theorem setVreg_cfg (s : State) (i : Nat) (r : VReg) : (setVreg s i r).cfg = s.cfg := rfl
@[simp] theorem setVreg_sk (s : State) (i : Nat) (r : VReg) : (setVreg s i r).sk = s.sk := rfl
@[simp] theorem setVreg_rnd (s : State) (i : Nat) (r : VReg) : (setVreg s i r).rnd = s.rnd := rfl
@[simp] theorem setVreg_f (s : State) (i : Nat) (r : VReg) : (setVreg s i r).f = s.f := rfl
@[simp] theorem setVreg_xNull (s : State) (i : Nat) (r : VReg) : (setVreg s i r).xNull = s.xNull := rfl
@[simp] theorem setVreg_inCur (s : State) (i : Nat) (r : VReg) : (setVreg s i r).inCur = s.inCur := rfl
@[simp] theorem setVreg_xorCur (s : State) (i : Nat) (r : VReg) : (setVreg s i r).xorCur = s.xorCur := rfl
@[simp] theorem setVreg_outCur (s : State) (i : Nat) (r : VReg) : (setVreg s i r).outCur = s.outCur := rfl
@[simp] theorem setVreg_inStr (s : State) (i : Nat) (r : VReg) : (setVreg s i r).inStr = s.inStr := rfl
@[simp] theorem setVreg_xorStr (s : State) (i : Nat) (r : VReg) : (setVreg s i r).xorStr = s.xorStr := rfl
@[simp] theorem setVreg_outStr (s : State) (i : Nat) (r : VReg) : (setVreg s i r).outStr = s.outStr := rfl
@[simp] theorem setVreg_lenRem (s : State) (i : Nat) (r : VReg) : (setVreg s i r).lenRem = s.lenRem := rfl
@[simp] theorem setVreg_w (s : State) (i : Nat) (r : VReg) : (setVreg s i r).w = s.w := rfl
@[simp] theorem setVreg_vr (s : State) (i : Nat) (r : VReg) : (setVreg s i r).vr = s.vr.setIfInBounds i r := rfl
@[simp] theorem setVreg_mem (s : State) (i : Nat) (r : VReg) : (setVreg s i r).mem = s.mem := rfl
@[simp] theorem setVreg_port (s : State) (i : Nat) (r : VReg) : (setVreg s i r).port = s.port := rfl
@[simp] theorem setVreg_hostq (s : State) (i : Nat) (r : VReg) : (setVreg s i r).hostq = s.hostq := rfl
@[simp] theorem setVreg_hostData (s : State) (i : Nat) (r : VReg) : (setVreg s i r).hostData = s.hostData := rfl
@[simp] theorem setVreg_freeIx (s : State) (i : Nat) (r : VReg) : (setVreg s i r).freeIx = s.freeIx := rfl

/-! ### `raiseFault` -/

@[simp] theorem raiseFault_subkeys (s : State) (c : Cause) (a : Addr) : (raiseFault s c a).subkeys = s.subkeys := rfl
@[simp] theorem raiseFault_rounds (s : State) (c : Cause) (a : Addr) : (raiseFault s c a).rounds = s.rounds := rfl
@[simp] theorem raiseFault_inPtr (s : State) (c : Cause) (a : Addr) : (raiseFault s c a).inPtr = s.inPtr := rfl
@[simp] theorem raiseFault_xorPtr (s : State) (c : Cause) (a : Addr) : (raiseFault s c a).xorPtr = s.xorPtr := rfl
@[simp] theorem raiseFault_outPtr (s : State) (c : Cause) (a : Addr) : (raiseFault s c a).outPtr = s.outPtr := rfl
@[simp] theorem raiseFault_length (s : State) (c : Cause) (a : Addr) : (raiseFault s c a).length = s.length := rfl
@[simp] theorem raiseFault_flags (s : State) (c : Cause) (a : Addr) : (raiseFault s c a).flags = s.flags := rfl
@[simp] theorem raiseFault_busy (s : State) (c : Cause) (a : Addr) : (raiseFault s c a).busy = false := rfl
@[simp] theorem raiseFault_done (s : State) (c : Cause) (a : Addr) : (raiseFault s c a).done = false := rfl
@[simp] theorem raiseFault_fault (s : State) (c : Cause) (a : Addr) : (raiseFault s c a).fault = true := rfl
@[simp] theorem raiseFault_cause (s : State) (c : Cause) (a : Addr) : (raiseFault s c a).cause = causeCode c := rfl
@[simp] theorem raiseFault_uop (s : State) (c : Cause) (a : Addr) : (raiseFault s c a).uop = 0xF0#8 := rfl
@[simp] theorem raiseFault_tailMode (s : State) (c : Cause) (a : Addr) : (raiseFault s c a).tailMode = s.tailMode := rfl
@[simp] theorem raiseFault_remainder (s : State) (c : Cause) (a : Addr) : (raiseFault s c a).remainder = s.remainder := rfl
@[simp] theorem raiseFault_fAddr (s : State) (c : Cause) (a : Addr) : (raiseFault s c a).fAddr = if c = .bus then a else 0 := rfl
@[simp] theorem raiseFault_cfg (s : State) (c : Cause) (a : Addr) : (raiseFault s c a).cfg = s.cfg := rfl
@[simp] theorem raiseFault_sk (s : State) (c : Cause) (a : Addr) : (raiseFault s c a).sk = s.sk := rfl
@[simp] theorem raiseFault_rnd (s : State) (c : Cause) (a : Addr) : (raiseFault s c a).rnd = s.rnd := rfl
@[simp] theorem raiseFault_f (s : State) (c : Cause) (a : Addr) : (raiseFault s c a).f = s.f := rfl
@[simp] theorem raiseFault_xNull (s : State) (c : Cause) (a : Addr) : (raiseFault s c a).xNull = s.xNull := rfl
@[simp] theorem raiseFault_inCur (s : State) (c : Cause) (a : Addr) : (raiseFault s c a).inCur = s.inCur := rfl
@[simp] theorem raiseFault_xorCur (s : State) (c : Cause) (a : Addr) : (raiseFault s c a).xorCur = s.xorCur := rfl
@[simp] theorem raiseFault_outCur (s : State) (c : Cause) (a : Addr) : (raiseFault s c a).outCur = s.outCur := rfl
@[simp] theorem raiseFault_inStr (s : State) (c : Cause) (a : Addr) : (raiseFault s c a).inStr = s.inStr := rfl
@[simp] theorem raiseFault_xorStr (s : State) (c : Cause) (a : Addr) : (raiseFault s c a).xorStr = s.xorStr := rfl
@[simp] theorem raiseFault_outStr (s : State) (c : Cause) (a : Addr) : (raiseFault s c a).outStr = s.outStr := rfl
@[simp] theorem raiseFault_lenRem (s : State) (c : Cause) (a : Addr) : (raiseFault s c a).lenRem = s.lenRem := rfl
@[simp] theorem raiseFault_w (s : State) (c : Cause) (a : Addr) : (raiseFault s c a).w = s.w := rfl
@[simp] theorem raiseFault_vr (s : State) (c : Cause) (a : Addr) : (raiseFault s c a).vr = s.vr := rfl
@[simp] theorem raiseFault_mem (s : State) (c : Cause) (a : Addr) : (raiseFault s c a).mem = s.mem := rfl
@[simp] theorem raiseFault_port (s : State) (c : Cause) (a : Addr) : (raiseFault s c a).port = s.port := rfl
@[simp] theorem raiseFault_hostq (s : State) (c : Cause) (a : Addr) : (raiseFault s c a).hostq = s.hostq := rfl
@[simp] theorem raiseFault_hostData (s : State) (c : Cause) (a : Addr) : (raiseFault s c a).hostData = s.hostData := rfl
@[simp] theorem raiseFault_freeIx (s : State) (c : Cause) (a : Addr) : (raiseFault s c a).freeIx = s.freeIx := rfl

/-! ### `latch` -/

@[simp] theorem latch_subkeys (s : State) : (latch s).subkeys = s.subkeys := rfl
@[simp] theorem latch_rounds (s : State) : (latch s).rounds = s.rounds := rfl
@[simp] theorem latch_inPtr (s : State) : (latch s).inPtr = s.inPtr := rfl
@[simp] theorem latch_xorPtr (s : State) : (latch s).xorPtr = s.xorPtr := rfl
@[simp] theorem latch_outPtr (s : State) : (latch s).outPtr = s.outPtr := rfl
@[simp] theorem latch_length (s : State) : (latch s).length = s.length := rfl
@[simp] theorem latch_flags (s : State) : (latch s).flags = s.flags := rfl
@[simp] theorem latch_busy (s : State) : (latch s).busy = s.busy := rfl
@[simp] theorem latch_done (s : State) : (latch s).done = s.done := rfl
@[simp] theorem latch_fault (s : State) : (latch s).fault = s.fault := rfl
@[simp] theorem latch_cause (s : State) : (latch s).cause = s.cause := rfl
@[simp] theorem latch_uop (s : State) : (latch s).uop = s.uop := rfl
@[simp] theorem latch_tailMode (s : State) : (latch s).tailMode = s.tailMode := rfl
@[simp] theorem latch_remainder (s : State) : (latch s).remainder = s.remainder := rfl
@[simp] theorem latch_fAddr (s : State) : (latch s).fAddr = s.fAddr := rfl
@[simp] theorem latch_cfg (s : State) : (latch s).cfg = s.cfg := rfl
@[simp] theorem latch_sk (s : State) : (latch s).sk = s.subkeys := rfl
@[simp] theorem latch_rnd (s : State) : (latch s).rnd = s.rounds := rfl
@[simp] theorem latch_f (s : State) : (latch s).f = s.flags.extractLsb' 0 5 := rfl
@[simp] theorem latch_xNull (s : State) : (latch s).xNull = (s.xorPtr == nullp) := rfl
@[simp] theorem latch_inCur (s : State) : (latch s).inCur = s.inCur := rfl
@[simp] theorem latch_xorCur (s : State) : (latch s).xorCur = s.xorCur := rfl
@[simp] theorem latch_outCur (s : State) : (latch s).outCur = s.outCur := rfl
@[simp] theorem latch_inStr (s : State) : (latch s).inStr = s.inStr := rfl
@[simp] theorem latch_xorStr (s : State) : (latch s).xorStr = s.xorStr := rfl
@[simp] theorem latch_outStr (s : State) : (latch s).outStr = s.outStr := rfl
@[simp] theorem latch_lenRem (s : State) : (latch s).lenRem = s.lenRem := rfl
@[simp] theorem latch_w (s : State) : (latch s).w = s.w := rfl
@[simp] theorem latch_vr (s : State) : (latch s).vr = s.vr := rfl
@[simp] theorem latch_mem (s : State) : (latch s).mem = s.mem := rfl
@[simp] theorem latch_port (s : State) : (latch s).port = s.port := rfl
@[simp] theorem latch_hostq (s : State) : (latch s).hostq = s.hostq := rfl
@[simp] theorem latch_hostData (s : State) : (latch s).hostData = s.hostData := rfl
@[simp] theorem latch_freeIx (s : State) : (latch s).freeIx = s.freeIx := rfl

/-! ### `initCommand` -/

@[simp] theorem initCommand_subkeys (s : State) : (initCommand s).subkeys = s.subkeys := rfl
@[simp] theorem initCommand_rounds (s : State) : (initCommand s).rounds = s.rounds := rfl
@[simp] theorem initCommand_inPtr (s : State) : (initCommand s).inPtr = s.inPtr := rfl
@[simp] theorem initCommand_xorPtr (s : State) : (initCommand s).xorPtr = s.xorPtr := rfl
@[simp] theorem initCommand_outPtr (s : State) : (initCommand s).outPtr = s.outPtr := rfl
@[simp] theorem initCommand_length (s : State) : (initCommand s).length = s.length := rfl
@[simp] theorem initCommand_flags (s : State) : (initCommand s).flags = s.flags := rfl
@[simp] theorem initCommand_busy (s : State) : (initCommand s).busy = s.busy := rfl
@[simp] theorem initCommand_done (s : State) : (initCommand s).done = s.done := rfl
@[simp] theorem initCommand_fault (s : State) : (initCommand s).fault = s.fault := rfl
@[simp] theorem initCommand_cause (s : State) : (initCommand s).cause = s.cause := rfl
@[simp] theorem initCommand_uop (s : State) : (initCommand s).uop = s.uop := rfl
@[simp] theorem initCommand_tailMode (s : State) : (initCommand s).tailMode = false := rfl
@[simp] theorem initCommand_remainder (s : State) : (initCommand s).remainder = s.remainder := rfl
@[simp] theorem initCommand_fAddr (s : State) : (initCommand s).fAddr = s.fAddr := rfl
@[simp] theorem initCommand_cfg (s : State) : (initCommand s).cfg = s.cfg := rfl
@[simp] theorem initCommand_sk (s : State) : (initCommand s).sk = s.sk := rfl
@[simp] theorem initCommand_rnd (s : State) : (initCommand s).rnd = s.rnd := rfl
@[simp] theorem initCommand_f (s : State) : (initCommand s).f = s.f := rfl
@[simp] theorem initCommand_xNull (s : State) : (initCommand s).xNull = s.xNull := rfl
@[simp] theorem initCommand_inCur (s : State) : (initCommand s).inCur = startCursor (flagR s) s.inPtr s.length := rfl
@[simp] theorem initCommand_xorCur (s : State) : (initCommand s).xorCur = startCursor (flagR s) s.xorPtr s.length := rfl
@[simp] theorem initCommand_outCur (s : State) : (initCommand s).outCur = startCursor (flagR s) s.outPtr s.length := rfl
@[simp] theorem initCommand_inStr (s : State) : (initCommand s).inStr = startStride (flagC s || flagD s) (flagR s) := rfl
@[simp] theorem initCommand_xorStr (s : State) : (initCommand s).xorStr = startStride s.xNull (flagR s) := rfl
@[simp] theorem initCommand_outStr (s : State) : (initCommand s).outStr = startStride (flagD s) (flagR s) := rfl
@[simp] theorem initCommand_lenRem (s : State) : (initCommand s).lenRem = s.length := rfl
@[simp] theorem initCommand_w (s : State) : (initCommand s).w = 0#3 := rfl
@[simp] theorem initCommand_vr (s : State) : (initCommand s).vr = s.vr := rfl
@[simp] theorem initCommand_mem (s : State) : (initCommand s).mem = s.mem := rfl
@[simp] theorem initCommand_port (s : State) : (initCommand s).port = s.port := rfl
@[simp] theorem initCommand_hostq (s : State) : (initCommand s).hostq = s.hostq := rfl
@[simp] theorem initCommand_hostData (s : State) : (initCommand s).hostData = s.hostData := rfl
@[simp] theorem initCommand_freeIx (s : State) : (initCommand s).freeIx = s.freeIx := rfl

/-! ### `advance` -/

@[simp] theorem advance_subkeys (s : State) (n bytes : Nat) : (advance s n bytes).subkeys = s.subkeys := rfl
@[simp] theorem advance_rounds (s : State) (n bytes : Nat) : (advance s n bytes).rounds = s.rounds := rfl
@[simp] theorem advance_inPtr (s : State) (n bytes : Nat) : (advance s n bytes).inPtr = s.inPtr := rfl
@[simp] theorem advance_xorPtr (s : State) (n bytes : Nat) : (advance s n bytes).xorPtr = s.xorPtr := rfl
@[simp] theorem advance_outPtr (s : State) (n bytes : Nat) : (advance s n bytes).outPtr = s.outPtr := rfl
@[simp] theorem advance_length (s : State) (n bytes : Nat) : (advance s n bytes).length = s.length := rfl
@[simp] theorem advance_flags (s : State) (n bytes : Nat) : (advance s n bytes).flags = s.flags := rfl
@[simp] theorem advance_busy (s : State) (n bytes : Nat) : (advance s n bytes).busy = s.busy := rfl
@[simp] theorem advance_done (s : State) (n bytes : Nat) : (advance s n bytes).done = s.done := rfl
@[simp] theorem advance_fault (s : State) (n bytes : Nat) : (advance s n bytes).fault = s.fault := rfl
@[simp] theorem advance_cause (s : State) (n bytes : Nat) : (advance s n bytes).cause = s.cause := rfl
@[simp] theorem advance_uop (s : State) (n bytes : Nat) : (advance s n bytes).uop = s.uop := rfl
@[simp] theorem advance_tailMode (s : State) (n bytes : Nat) : (advance s n bytes).tailMode = s.tailMode := rfl
@[simp] theorem advance_remainder (s : State) (n bytes : Nat) : (advance s n bytes).remainder = s.remainder := rfl
@[simp] theorem advance_fAddr (s : State) (n bytes : Nat) : (advance s n bytes).fAddr = s.fAddr := rfl
@[simp] theorem advance_cfg (s : State) (n bytes : Nat) : (advance s n bytes).cfg = s.cfg := rfl
@[simp] theorem advance_sk (s : State) (n bytes : Nat) : (advance s n bytes).sk = s.sk := rfl
@[simp] theorem advance_rnd (s : State) (n bytes : Nat) : (advance s n bytes).rnd = s.rnd := rfl
@[simp] theorem advance_f (s : State) (n bytes : Nat) : (advance s n bytes).f = s.f := rfl
@[simp] theorem advance_xNull (s : State) (n bytes : Nat) : (advance s n bytes).xNull = s.xNull := rfl
@[simp] theorem advance_inCur (s : State) (n bytes : Nat) : (advance s n bytes).inCur = unitAddr s.inCur s.inStr n := rfl
@[simp] theorem advance_xorCur (s : State) (n bytes : Nat) : (advance s n bytes).xorCur = unitAddr s.xorCur s.xorStr n := rfl
@[simp] theorem advance_outCur (s : State) (n bytes : Nat) : (advance s n bytes).outCur = unitAddr s.outCur s.outStr n := rfl
@[simp] theorem advance_inStr (s : State) (n bytes : Nat) : (advance s n bytes).inStr = s.inStr := rfl
@[simp] theorem advance_xorStr (s : State) (n bytes : Nat) : (advance s n bytes).xorStr = s.xorStr := rfl
@[simp] theorem advance_outStr (s : State) (n bytes : Nat) : (advance s n bytes).outStr = s.outStr := rfl
@[simp] theorem advance_lenRem (s : State) (n bytes : Nat) : (advance s n bytes).lenRem = s.lenRem - BitVec.ofNat 64 bytes := rfl
@[simp] theorem advance_w (s : State) (n bytes : Nat) : (advance s n bytes).w = s.w := rfl
@[simp] theorem advance_vr (s : State) (n bytes : Nat) : (advance s n bytes).vr = s.vr := rfl
@[simp] theorem advance_mem (s : State) (n bytes : Nat) : (advance s n bytes).mem = s.mem := rfl
@[simp] theorem advance_port (s : State) (n bytes : Nat) : (advance s n bytes).port = s.port := rfl
@[simp] theorem advance_hostq (s : State) (n bytes : Nat) : (advance s n bytes).hostq = s.hostq := rfl
@[simp] theorem advance_hostData (s : State) (n bytes : Nat) : (advance s n bytes).hostData = s.hostData := rfl
@[simp] theorem advance_freeIx (s : State) (n bytes : Nat) : (advance s n bytes).freeIx = s.freeIx := rfl

/-! ### `resetInstance` -/

@[simp] theorem resetInstance_subkeys (s : State) : (resetInstance s).subkeys = 0 := rfl
@[simp] theorem resetInstance_rounds (s : State) : (resetInstance s).rounds = 0 := rfl
@[simp] theorem resetInstance_inPtr (s : State) : (resetInstance s).inPtr = 0 := rfl
@[simp] theorem resetInstance_xorPtr (s : State) : (resetInstance s).xorPtr = 0 := rfl
@[simp] theorem resetInstance_outPtr (s : State) : (resetInstance s).outPtr = 0 := rfl
@[simp] theorem resetInstance_length (s : State) : (resetInstance s).length = 0 := rfl
@[simp] theorem resetInstance_flags (s : State) : (resetInstance s).flags = 0 := rfl
@[simp] theorem resetInstance_busy (s : State) : (resetInstance s).busy = false := rfl
@[simp] theorem resetInstance_done (s : State) : (resetInstance s).done = false := rfl
@[simp] theorem resetInstance_fault (s : State) : (resetInstance s).fault = false := rfl
@[simp] theorem resetInstance_cause (s : State) : (resetInstance s).cause = 0 := rfl
@[simp] theorem resetInstance_uop (s : State) : (resetInstance s).uop = 0 := rfl
@[simp] theorem resetInstance_tailMode (s : State) : (resetInstance s).tailMode = false := rfl
@[simp] theorem resetInstance_remainder (s : State) : (resetInstance s).remainder = 0 := rfl
@[simp] theorem resetInstance_fAddr (s : State) : (resetInstance s).fAddr = 0 := rfl
@[simp] theorem resetInstance_cfg (s : State) : (resetInstance s).cfg = s.cfg := rfl
@[simp] theorem resetInstance_sk (s : State) : (resetInstance s).sk = 0 := rfl
@[simp] theorem resetInstance_rnd (s : State) : (resetInstance s).rnd = 0 := rfl
@[simp] theorem resetInstance_f (s : State) : (resetInstance s).f = 0 := rfl
@[simp] theorem resetInstance_xNull (s : State) : (resetInstance s).xNull = false := rfl
@[simp] theorem resetInstance_inCur (s : State) : (resetInstance s).inCur = 0 := rfl
@[simp] theorem resetInstance_xorCur (s : State) : (resetInstance s).xorCur = 0 := rfl
@[simp] theorem resetInstance_outCur (s : State) : (resetInstance s).outCur = 0 := rfl
@[simp] theorem resetInstance_inStr (s : State) : (resetInstance s).inStr = 0 := rfl
@[simp] theorem resetInstance_xorStr (s : State) : (resetInstance s).xorStr = 0 := rfl
@[simp] theorem resetInstance_outStr (s : State) : (resetInstance s).outStr = 0 := rfl
@[simp] theorem resetInstance_lenRem (s : State) : (resetInstance s).lenRem = 0 := rfl
@[simp] theorem resetInstance_w (s : State) : (resetInstance s).w = 0 := rfl
@[simp] theorem resetInstance_vr (s : State) : (resetInstance s).vr = Vector.ofFn fun i => Config.freeVReg (s.freeIx + i.val) := rfl
@[simp] theorem resetInstance_mem (s : State) : (resetInstance s).mem = s.mem := rfl
@[simp] theorem resetInstance_port (s : State) : (resetInstance s).port = s.port := rfl
@[simp] theorem resetInstance_hostq (s : State) : (resetInstance s).hostq = s.hostq := rfl
@[simp] theorem resetInstance_hostData (s : State) : (resetInstance s).hostData = s.hostData := rfl
@[simp] theorem resetInstance_freeIx (s : State) : (resetInstance s).freeIx = s.freeIx + 6 := rfl

end Sys2Proof.Machine
end

