-- ==== Sys2Proof/Laws/Registers.lean ====
section
/-! SUPPORT. The laws of the vector register file. -/

namespace Sys2Proof.Machine

/-! ### One register -/

theorem vreg_setVreg (s : State) (i j : Nat) (r : VReg) (hi : i < 6) :
    vreg (setVreg s i r) j = if j = i then r else vreg s j := by
  simp only [vreg, setVreg, Vector.getD]
  by_cases h : j = i
  · subst h; simp [hi]
  · rw [if_neg h]
    simp [Ne.symm h]

theorem vreg_setVreg_self (s : State) (i : Nat) (r : VReg) (hi : i < 6) : vreg (setVreg s i r) i = r := by
  rw [vreg_setVreg _ _ _ _ hi, if_pos rfl]

theorem vreg_setVreg_ne (s : State) (i j : Nat) (r : VReg) (h : j ≠ i) : vreg (setVreg s i r) j = vreg s j := by
  simp [vreg, setVreg, Vector.getD, Ne.symm h]

/-- Two register files with the same six registers are equal. -/
theorem vr_ext {s t : State} (h : ∀ i < 6, vreg s i = vreg t i) : s.vr = t.vr := by
  apply Vector.ext
  intro i hi
  have := h i hi
  simpa [vreg, Vector.getD, hi] using this

theorem regs_le_six (w : Width) : w.regs ≤ 6 := by cases w <;> decide

theorem regs_pos (w : Width) : 0 < w.regs := by cases w <;> decide

/-! ### The first `n` registers -/

/-- Updating registers changes no other field. -/
theorem updateVregs_frame (g : Nat → VReg → VReg) (n : Nat) (s : State) :
    updateVregs g n s = { s with vr := (updateVregs g n s).vr } := by
  induction n with
  | zero => rfl
  | succ n ih => rw [updateVregs, ih]; rfl

/-- Register `i` after the first `n` were updated. -/
theorem vreg_updateVregs (g : Nat → VReg → VReg) (n : Nat) (s : State) (hn : n ≤ 6) (i : Nat) :
    vreg (updateVregs g n s) i = if i < n then g i (vreg s i) else vreg s i := by
  induction n generalizing i with
  | zero => simp [updateVregs]
  | succ n ih =>
    simp only [updateVregs]
    rw [vreg_setVreg _ _ _ _ (by omega), ih (by omega)]
    by_cases h : i = n
    · subst h
      rw [ih (by omega), if_pos rfl, if_neg (by omega), if_pos (by omega)]
    · rw [if_neg h, ih (by omega)]
      by_cases h2 : i < n
      · rw [if_pos h2, if_pos (by omega)]
      · rw [if_neg h2, if_neg (by omega)]


@[simp] theorem updateVregs_subkeys (g : Nat → VReg → VReg) (n : Nat) (s : State) : (updateVregs g n s).subkeys = s.subkeys := by
  rw [updateVregs_frame]
@[simp] theorem updateVregs_rounds (g : Nat → VReg → VReg) (n : Nat) (s : State) : (updateVregs g n s).rounds = s.rounds := by
  rw [updateVregs_frame]
@[simp] theorem updateVregs_inPtr (g : Nat → VReg → VReg) (n : Nat) (s : State) : (updateVregs g n s).inPtr = s.inPtr := by
  rw [updateVregs_frame]
@[simp] theorem updateVregs_xorPtr (g : Nat → VReg → VReg) (n : Nat) (s : State) : (updateVregs g n s).xorPtr = s.xorPtr := by
  rw [updateVregs_frame]
@[simp] theorem updateVregs_outPtr (g : Nat → VReg → VReg) (n : Nat) (s : State) : (updateVregs g n s).outPtr = s.outPtr := by
  rw [updateVregs_frame]
@[simp] theorem updateVregs_length (g : Nat → VReg → VReg) (n : Nat) (s : State) : (updateVregs g n s).length = s.length := by
  rw [updateVregs_frame]
@[simp] theorem updateVregs_flags (g : Nat → VReg → VReg) (n : Nat) (s : State) : (updateVregs g n s).flags = s.flags := by
  rw [updateVregs_frame]
@[simp] theorem updateVregs_busy (g : Nat → VReg → VReg) (n : Nat) (s : State) : (updateVregs g n s).busy = s.busy := by
  rw [updateVregs_frame]
@[simp] theorem updateVregs_done (g : Nat → VReg → VReg) (n : Nat) (s : State) : (updateVregs g n s).done = s.done := by
  rw [updateVregs_frame]
@[simp] theorem updateVregs_fault (g : Nat → VReg → VReg) (n : Nat) (s : State) : (updateVregs g n s).fault = s.fault := by
  rw [updateVregs_frame]
@[simp] theorem updateVregs_cause (g : Nat → VReg → VReg) (n : Nat) (s : State) : (updateVregs g n s).cause = s.cause := by
  rw [updateVregs_frame]
@[simp] theorem updateVregs_uop (g : Nat → VReg → VReg) (n : Nat) (s : State) : (updateVregs g n s).uop = s.uop := by
  rw [updateVregs_frame]
@[simp] theorem updateVregs_tailMode (g : Nat → VReg → VReg) (n : Nat) (s : State) : (updateVregs g n s).tailMode = s.tailMode := by
  rw [updateVregs_frame]
@[simp] theorem updateVregs_remainder (g : Nat → VReg → VReg) (n : Nat) (s : State) : (updateVregs g n s).remainder = s.remainder := by
  rw [updateVregs_frame]
@[simp] theorem updateVregs_fAddr (g : Nat → VReg → VReg) (n : Nat) (s : State) : (updateVregs g n s).fAddr = s.fAddr := by
  rw [updateVregs_frame]
@[simp] theorem updateVregs_cfg (g : Nat → VReg → VReg) (n : Nat) (s : State) : (updateVregs g n s).cfg = s.cfg := by
  rw [updateVregs_frame]
@[simp] theorem updateVregs_sk (g : Nat → VReg → VReg) (n : Nat) (s : State) : (updateVregs g n s).sk = s.sk := by
  rw [updateVregs_frame]
@[simp] theorem updateVregs_rnd (g : Nat → VReg → VReg) (n : Nat) (s : State) : (updateVregs g n s).rnd = s.rnd := by
  rw [updateVregs_frame]
@[simp] theorem updateVregs_f (g : Nat → VReg → VReg) (n : Nat) (s : State) : (updateVregs g n s).f = s.f := by
  rw [updateVregs_frame]
@[simp] theorem updateVregs_xNull (g : Nat → VReg → VReg) (n : Nat) (s : State) : (updateVregs g n s).xNull = s.xNull := by
  rw [updateVregs_frame]
@[simp] theorem updateVregs_inCur (g : Nat → VReg → VReg) (n : Nat) (s : State) : (updateVregs g n s).inCur = s.inCur := by
  rw [updateVregs_frame]
@[simp] theorem updateVregs_xorCur (g : Nat → VReg → VReg) (n : Nat) (s : State) : (updateVregs g n s).xorCur = s.xorCur := by
  rw [updateVregs_frame]
@[simp] theorem updateVregs_outCur (g : Nat → VReg → VReg) (n : Nat) (s : State) : (updateVregs g n s).outCur = s.outCur := by
  rw [updateVregs_frame]
@[simp] theorem updateVregs_inStr (g : Nat → VReg → VReg) (n : Nat) (s : State) : (updateVregs g n s).inStr = s.inStr := by
  rw [updateVregs_frame]
@[simp] theorem updateVregs_xorStr (g : Nat → VReg → VReg) (n : Nat) (s : State) : (updateVregs g n s).xorStr = s.xorStr := by
  rw [updateVregs_frame]
@[simp] theorem updateVregs_outStr (g : Nat → VReg → VReg) (n : Nat) (s : State) : (updateVregs g n s).outStr = s.outStr := by
  rw [updateVregs_frame]
@[simp] theorem updateVregs_lenRem (g : Nat → VReg → VReg) (n : Nat) (s : State) : (updateVregs g n s).lenRem = s.lenRem := by
  rw [updateVregs_frame]
@[simp] theorem updateVregs_w (g : Nat → VReg → VReg) (n : Nat) (s : State) : (updateVregs g n s).w = s.w := by
  rw [updateVregs_frame]
@[simp] theorem updateVregs_mem (g : Nat → VReg → VReg) (n : Nat) (s : State) : (updateVregs g n s).mem = s.mem := by
  rw [updateVregs_frame]
@[simp] theorem updateVregs_port (g : Nat → VReg → VReg) (n : Nat) (s : State) : (updateVregs g n s).port = s.port := by
  rw [updateVregs_frame]
@[simp] theorem updateVregs_hostq (g : Nat → VReg → VReg) (n : Nat) (s : State) : (updateVregs g n s).hostq = s.hostq := by
  rw [updateVregs_frame]
@[simp] theorem updateVregs_hostData (g : Nat → VReg → VReg) (n : Nat) (s : State) : (updateVregs g n s).hostData = s.hostData := by
  rw [updateVregs_frame]
@[simp] theorem updateVregs_freeIx (g : Nat → VReg → VReg) (n : Nat) (s : State) : (updateVregs g n s).freeIx = s.freeIx := by
  rw [updateVregs_frame]

/-! ### The predicates the sequencer tests look at no vector register, at no memory -/

@[simp] theorem flagC_setVreg (s : State) (i : Nat) (r : VReg) : flagC (setVreg s i r) = flagC s := rfl
@[simp] theorem flagC_setUop (s : State) (i : Instr) : flagC (setUop s i) = flagC s := rfl
@[simp] theorem flagC_setW (s : State) (x : Width) : flagC (setW s x) = flagC s := rfl
@[simp] theorem flagC_advance (s : State) (n b : Nat) : flagC (advance s n b) = flagC s := rfl
@[simp] theorem flagC_raiseFault (s : State) (c : Cause) (a : Addr) : flagC (raiseFault s c a) = flagC s := rfl
@[simp] theorem flagC_updateVregs (g : Nat → VReg → VReg) (n : Nat) (s : State) : flagC (updateVregs g n s) = flagC s := by
  rw [updateVregs_frame]; rfl
@[simp] theorem flagD_setVreg (s : State) (i : Nat) (r : VReg) : flagD (setVreg s i r) = flagD s := rfl
@[simp] theorem flagD_setUop (s : State) (i : Instr) : flagD (setUop s i) = flagD s := rfl
@[simp] theorem flagD_setW (s : State) (x : Width) : flagD (setW s x) = flagD s := rfl
@[simp] theorem flagD_advance (s : State) (n b : Nat) : flagD (advance s n b) = flagD s := rfl
@[simp] theorem flagD_raiseFault (s : State) (c : Cause) (a : Addr) : flagD (raiseFault s c a) = flagD s := rfl
@[simp] theorem flagD_updateVregs (g : Nat → VReg → VReg) (n : Nat) (s : State) : flagD (updateVregs g n s) = flagD s := by
  rw [updateVregs_frame]; rfl
@[simp] theorem flagX_setVreg (s : State) (i : Nat) (r : VReg) : flagX (setVreg s i r) = flagX s := rfl
@[simp] theorem flagX_setUop (s : State) (i : Instr) : flagX (setUop s i) = flagX s := rfl
@[simp] theorem flagX_setW (s : State) (x : Width) : flagX (setW s x) = flagX s := rfl
@[simp] theorem flagX_advance (s : State) (n b : Nat) : flagX (advance s n b) = flagX s := rfl
@[simp] theorem flagX_raiseFault (s : State) (c : Cause) (a : Addr) : flagX (raiseFault s c a) = flagX s := rfl
@[simp] theorem flagX_updateVregs (g : Nat → VReg → VReg) (n : Nat) (s : State) : flagX (updateVregs g n s) = flagX s := by
  rw [updateVregs_frame]; rfl
@[simp] theorem flagR_setVreg (s : State) (i : Nat) (r : VReg) : flagR (setVreg s i r) = flagR s := rfl
@[simp] theorem flagR_setUop (s : State) (i : Instr) : flagR (setUop s i) = flagR s := rfl
@[simp] theorem flagR_setW (s : State) (x : Width) : flagR (setW s x) = flagR s := rfl
@[simp] theorem flagR_advance (s : State) (n b : Nat) : flagR (advance s n b) = flagR s := rfl
@[simp] theorem flagR_raiseFault (s : State) (c : Cause) (a : Addr) : flagR (raiseFault s c a) = flagR s := rfl
@[simp] theorem flagR_updateVregs (g : Nat → VReg → VReg) (n : Nat) (s : State) : flagR (updateVregs g n s) = flagR s := by
  rw [updateVregs_frame]; rfl
@[simp] theorem flagP_setVreg (s : State) (i : Nat) (r : VReg) : flagP (setVreg s i r) = flagP s := rfl
@[simp] theorem flagP_setUop (s : State) (i : Instr) : flagP (setUop s i) = flagP s := rfl
@[simp] theorem flagP_setW (s : State) (x : Width) : flagP (setW s x) = flagP s := rfl
@[simp] theorem flagP_advance (s : State) (n b : Nat) : flagP (advance s n b) = flagP s := rfl
@[simp] theorem flagP_raiseFault (s : State) (c : Cause) (a : Addr) : flagP (raiseFault s c a) = flagP s := rfl
@[simp] theorem flagP_updateVregs (g : Nat → VReg → VReg) (n : Nat) (s : State) : flagP (updateVregs g n s) = flagP s := by
  rw [updateVregs_frame]; rfl
@[simp] theorem xorIn_setVreg (s : State) (i : Nat) (r : VReg) : xorIn (setVreg s i r) = xorIn s := rfl
@[simp] theorem xorIn_setUop (s : State) (i : Instr) : xorIn (setUop s i) = xorIn s := rfl
@[simp] theorem xorIn_setW (s : State) (x : Width) : xorIn (setW s x) = xorIn s := rfl
@[simp] theorem xorIn_advance (s : State) (n b : Nat) : xorIn (advance s n b) = xorIn s := rfl
@[simp] theorem xorIn_raiseFault (s : State) (c : Cause) (a : Addr) : xorIn (raiseFault s c a) = xorIn s := rfl
@[simp] theorem xorIn_updateVregs (g : Nat → VReg → VReg) (n : Nat) (s : State) : xorIn (updateVregs g n s) = xorIn s := by
  rw [updateVregs_frame]; rfl
@[simp] theorem xorOut_setVreg (s : State) (i : Nat) (r : VReg) : xorOut (setVreg s i r) = xorOut s := rfl
@[simp] theorem xorOut_setUop (s : State) (i : Instr) : xorOut (setUop s i) = xorOut s := rfl
@[simp] theorem xorOut_setW (s : State) (x : Width) : xorOut (setW s x) = xorOut s := rfl
@[simp] theorem xorOut_advance (s : State) (n b : Nat) : xorOut (advance s n b) = xorOut s := rfl
@[simp] theorem xorOut_raiseFault (s : State) (c : Cause) (a : Addr) : xorOut (raiseFault s c a) = xorOut s := rfl
@[simp] theorem xorOut_updateVregs (g : Nat → VReg → VReg) (n : Nat) (s : State) : xorOut (updateVregs g n s) = xorOut s := by
  rw [updateVregs_frame]; rfl

end Sys2Proof.Machine
end

