-- ==== Sys2Proof/Laws/Port.lean ====
section
/-! SUPPORT. What the port operations can do, said once: the requests, the ascending loops over the units of an
iteration, and the end of a micro-operation. -/

namespace Sys2Proof.Machine

/-! ### One request -/

theorem memRead_accept {s : State} {a : Addr} {n : Nat} {k : List Byte → Progress}
    (h : portAnswer s.port .read a n = .accept) : memRead s a n k = k (bytesAt s.mem a n) := by
  simp [memRead, h]

theorem memRead_error {s : State} {a : Addr} {n : Nat} {k : List Byte → Progress}
    (h : portAnswer s.port .read a n = .error) : memRead s a n k = .bus s a := by simp [memRead, h]

theorem memRead_device {s : State} {a : Addr} {n : Nat} {k : List Byte → Progress}
    (h : portAnswer s.port .read a n = .device) : memRead s a n k = .device a := by simp [memRead, h]

/-- Everything a read request can do. -/
theorem memRead_cases (s : State) (a : Addr) (n : Nat) (k : List Byte → Progress) :
    portAnswer s.port .read a n = .accept ∧ memRead s a n k = k (bytesAt s.mem a n) ∨
    portAnswer s.port .read a n = .error ∧ memRead s a n k = .bus s a ∨
    portAnswer s.port .read a n = .device ∧ memRead s a n k = .device a := by
  unfold memRead
  split <;> simp_all

theorem memWrite_accept {s : State} {a : Addr} {v : List Byte}
    (h : portAnswer s.port .write a v.length = .accept) :
    memWrite s a v = .done { s with mem := storeBytes s.mem a v } := by simp [memWrite, h]

theorem memWrite_error {s : State} {a : Addr} {v : List Byte}
    (h : portAnswer s.port .write a v.length = .error) : memWrite s a v = .bus s a := by simp [memWrite, h]

theorem memWrite_device {s : State} {a : Addr} {v : List Byte}
    (h : portAnswer s.port .write a v.length = .device) : memWrite s a v = .device a := by simp [memWrite, h]

/-- Everything a write request can do. -/
theorem memWrite_cases (s : State) (a : Addr) (v : List Byte) :
    portAnswer s.port .write a v.length = .accept ∧
      memWrite s a v = .done { s with mem := storeBytes s.mem a v } ∨
    portAnswer s.port .write a v.length = .error ∧ memWrite s a v = .bus s a ∨
    portAnswer s.port .write a v.length = .device ∧ memWrite s a v = .device a := by
  unfold memWrite
  split <;> simp_all

/-! ### The ascending loop -/

/-- A loop whose units all go through, state `st i` standing before unit `i`. -/
theorem forUnits_done {unit : Nat → State → Progress} {st : Nat → State} {n : Nat}
    (h : ∀ i < n, unit i (st i) = .done (st (i + 1))) : forUnits unit n (st 0) = .done (st n) := by
  induction n with
  | zero => rfl
  | succ n ih =>
    rw [forUnits, ih fun i hi => h i (by omega)]
    exact h n (by omega)

/-- A loop whose unit `j` meets a refused access. -/
theorem forUnits_bus {unit : Nat → State → Progress} {st : Nat → State} {n j : Nat} {u : State} {a : Addr}
    (hj : j < n) (h : ∀ i < j, unit i (st i) = .done (st (i + 1))) (hb : unit j (st j) = .bus u a) :
    forUnits unit n (st 0) = .bus u a := by
  induction n with
  | zero => omega
  | succ n ih =>
    rw [forUnits]
    by_cases hjn : j = n
    · subst hjn; rw [forUnits_done h]; exact hb
    · rw [ih (by omega)]

/-- A loop whose unit `j` meets device memory. -/
theorem forUnits_device {unit : Nat → State → Progress} {st : Nat → State} {n j : Nat} {a : Addr}
    (hj : j < n) (h : ∀ i < j, unit i (st i) = .done (st (i + 1))) (hb : unit j (st j) = .device a) :
    forUnits unit n (st 0) = .device a := by
  induction n with
  | zero => omega
  | succ n ih =>
    rw [forUnits]
    by_cases hjn : j = n
    · subst hjn; rw [forUnits_done h]; exact hb
    · rw [ih (by omega)]

/-- Everything a loop can do that keeps a property of the state: it goes through, or it ends at the first unit that
does not, before which the property holds. -/
theorem forUnits_cases {unit : Nat → State → Progress} (I : Nat → State → Prop) (n : Nat) (s : State) (h0 : I 0 s)
    (hstep : ∀ i < n, ∀ t u, I i t → unit i t = .done u → I (i + 1) u) :
    (∃ u, forUnits unit n s = .done u ∧ I n u) ∨
    (∃ i < n, ∃ t, I i t ∧ ((∃ u a, unit i t = .bus u a ∧ forUnits unit n s = .bus u a) ∨
      (∃ a, unit i t = .device a ∧ forUnits unit n s = .device a))) := by
  induction n with
  | zero => exact .inl ⟨s, rfl, h0⟩
  | succ n ih =>
    rcases ih fun i hi => hstep i (by omega) with ⟨u, hu, hI⟩ | ⟨i, hi, t, hI, h | h⟩
    · rcases hn : unit n u with v | ⟨v, a⟩ | a
      · exact .inl ⟨v, by simp only [forUnits, hu, hn], hstep n (by omega) u v hI hn⟩
      · exact .inr ⟨n, by omega, u, hI, .inl ⟨v, a, hn, by simp only [forUnits, hu, hn]⟩⟩
      · exact .inr ⟨n, by omega, u, hI, .inr ⟨a, hn, by simp only [forUnits, hu, hn]⟩⟩
    · obtain ⟨u, a, h1, h2⟩ := h
      exact .inr ⟨i, by omega, t, hI, .inl ⟨u, a, h1, by simp only [forUnits, h2]⟩⟩
    · obtain ⟨a, h1, h2⟩ := h
      exact .inr ⟨i, by omega, t, hI, .inr ⟨a, h1, by simp only [forUnits, h2]⟩⟩

/-! ### The loops of the data operations -/

/-- The register unit `i` of LDIN loads (42_batch_datapath.md R150). -/
def loadedReg (s : State) (i : Nat) (_ : VReg) : VReg :=
  regOfBytes (bytesAt s.mem (unitAddr s.inCur s.inStr i) vecBytes)

/-- The register unit `i` of XORIN and XOROUT leaves (42_batch_datapath.md R152). -/
def maskedReg (s : State) (i : Nat) (r : VReg) : VReg :=
  regOfBytes (xorBytes (regSlice r 0 vecBytes) (bytesAt s.mem (unitAddr s.xorCur s.xorStr i) vecBytes))

/-- Memory after the first `n` stores of STOUT (42_batch_datapath.md R158). -/
def storedMem (s : State) : Nat → Memory
  | 0 => s.mem
  | n + 1 => storeBytes (storedMem s n) (unitAddr s.outCur s.outStr n) (regSlice (vreg s n) 0 vecBytes)

theorem loadUnit_accept (s : State) (i : Nat)
    (h : portAnswer s.port .read (unitAddr s.inCur s.inStr i) vecBytes = .accept) :
    loadUnit i (updateVregs (loadedReg s) i s) = .done (updateVregs (loadedReg s) (i + 1) s) := by
  unfold loadUnit
  rw [memRead_accept (by simpa using h)]
  simp [updateVregs, loadedReg]

theorem maskUnit_accept (s : State) (i : Nat)
    (h : portAnswer s.port .read (unitAddr s.xorCur s.xorStr i) vecBytes = .accept) :
    maskUnit i (updateVregs (maskedReg s) i s) = .done (updateVregs (maskedReg s) (i + 1) s) := by
  unfold maskUnit
  rw [memRead_accept (by simpa using h)]
  simp [updateVregs, maskedReg]

theorem storeUnit_accept (s : State) (i : Nat)
    (h : portAnswer s.port .write (unitAddr s.outCur s.outStr i) vecBytes = .accept) :
    storeUnit i { s with mem := storedMem s i } = .done { s with mem := storedMem s (i + 1) } := by
  unfold storeUnit
  rw [memWrite_accept (by simpa using h)]
  rfl

/-- All loads accepted. -/
theorem loadUnits_done (s : State) (n : Nat)
    (h : ∀ i < n, portAnswer s.port .read (unitAddr s.inCur s.inStr i) vecBytes = .accept) :
    forUnits loadUnit n s = .done (updateVregs (loadedReg s) n s) :=
  forUnits_done (st := fun i => updateVregs (loadedReg s) i s) fun i hi => loadUnit_accept s i (h i hi)

/-- The first load that is refused. -/
theorem loadUnits_bus (s : State) (n j : Nat) (hj : j < n)
    (h : ∀ i < j, portAnswer s.port .read (unitAddr s.inCur s.inStr i) vecBytes = .accept)
    (hb : portAnswer s.port .read (unitAddr s.inCur s.inStr j) vecBytes = .error) :
    forUnits loadUnit n s = .bus (updateVregs (loadedReg s) j s) (unitAddr s.inCur s.inStr j) := by
  refine forUnits_bus (st := fun i => updateVregs (loadedReg s) i s) hj (fun i hi => loadUnit_accept s i (h i hi)) ?_
  unfold loadUnit
  rw [memRead_error (by simpa using hb)]
  simp

/-- All mask reads accepted. -/
theorem maskUnits_done (s : State) (n : Nat)
    (h : ∀ i < n, portAnswer s.port .read (unitAddr s.xorCur s.xorStr i) vecBytes = .accept) :
    forUnits maskUnit n s = .done (updateVregs (maskedReg s) n s) :=
  forUnits_done (st := fun i => updateVregs (maskedReg s) i s) fun i hi => maskUnit_accept s i (h i hi)

/-- The first mask read that is refused. -/
theorem maskUnits_bus (s : State) (n j : Nat) (hj : j < n)
    (h : ∀ i < j, portAnswer s.port .read (unitAddr s.xorCur s.xorStr i) vecBytes = .accept)
    (hb : portAnswer s.port .read (unitAddr s.xorCur s.xorStr j) vecBytes = .error) :
    forUnits maskUnit n s = .bus (updateVregs (maskedReg s) j s) (unitAddr s.xorCur s.xorStr j) := by
  refine forUnits_bus (st := fun i => updateVregs (maskedReg s) i s) hj (fun i hi => maskUnit_accept s i (h i hi)) ?_
  unfold maskUnit
  rw [memRead_error (by simpa using hb)]
  simp

/-- All stores accepted. -/
theorem storeUnits_done (s : State) (n : Nat)
    (h : ∀ i < n, portAnswer s.port .write (unitAddr s.outCur s.outStr i) vecBytes = .accept) :
    forUnits storeUnit n s = .done { s with mem := storedMem s n } :=
  forUnits_done (st := fun i => { s with mem := storedMem s i }) fun i hi => storeUnit_accept s i (h i hi)

/-- The first store that is refused. -/
theorem storeUnits_bus (s : State) (n j : Nat) (hj : j < n)
    (h : ∀ i < j, portAnswer s.port .write (unitAddr s.outCur s.outStr i) vecBytes = .accept)
    (hb : portAnswer s.port .write (unitAddr s.outCur s.outStr j) vecBytes = .error) :
    forUnits storeUnit n s = .bus { s with mem := storedMem s j } (unitAddr s.outCur s.outStr j) := by
  refine forUnits_bus (st := fun i => { s with mem := storedMem s i }) hj
    (fun i hi => storeUnit_accept s i (h i hi)) ?_
  unfold storeUnit
  rw [memWrite_error (by simpa using hb)]

/-- What a loop of loads can do, whatever the port answers. -/
theorem loadUnits_frame (n : Nat) (s : State) :
    (∃ v, forUnits loadUnit n s = .done { s with vr := v }) ∨
    (∃ v a, forUnits loadUnit n s = .bus { s with vr := v } a) ∨ (∃ a, forUnits loadUnit n s = .device a) := by
  rcases forUnits_cases (unit := loadUnit) (fun _ t => ∃ v, t = { s with vr := v }) n s ⟨s.vr, rfl⟩ (by
      rintro i - t u ⟨v, rfl⟩ hu
      unfold loadUnit at hu
      rcases memRead_cases { s with vr := v } (unitAddr s.inCur s.inStr i) vecBytes
        (fun bs => .done (setVreg { s with vr := v } i (regOfBytes bs))) with ⟨-, h⟩ | ⟨-, h⟩ | ⟨-, h⟩ <;>
        rw [h] at hu <;> cases hu
      exact ⟨_, rfl⟩)
    with ⟨u, hu, v, rfl⟩ | ⟨i, -, t, ⟨v, rfl⟩, ⟨u, a, h1, h2⟩ | ⟨a, h1, h2⟩⟩
  · exact .inl ⟨v, hu⟩
  · unfold loadUnit at h1
    rcases memRead_cases { s with vr := v } (unitAddr s.inCur s.inStr i) vecBytes
      (fun bs => .done (setVreg { s with vr := v } i (regOfBytes bs))) with ⟨-, h⟩ | ⟨-, h⟩ | ⟨-, h⟩ <;>
      rw [h] at h1 <;> cases h1
    exact .inr (.inl ⟨v, _, h2⟩)
  · exact .inr (.inr ⟨a, h2⟩)

/-- What a loop of mask reads can do, whatever the port answers. -/
theorem maskUnits_frame (n : Nat) (s : State) :
    (∃ v, forUnits maskUnit n s = .done { s with vr := v }) ∨
    (∃ v a, forUnits maskUnit n s = .bus { s with vr := v } a) ∨ (∃ a, forUnits maskUnit n s = .device a) := by
  rcases forUnits_cases (unit := maskUnit) (fun _ t => ∃ v, t = { s with vr := v }) n s ⟨s.vr, rfl⟩ (by
      rintro i - t u ⟨v, rfl⟩ hu
      unfold maskUnit at hu
      rcases memRead_cases { s with vr := v } (unitAddr s.xorCur s.xorStr i) vecBytes
        (fun bs => .done (setVreg { s with vr := v } i
          (regOfBytes (xorBytes (regSlice (vreg { s with vr := v } i) 0 vecBytes) bs))))
        with ⟨-, h⟩ | ⟨-, h⟩ | ⟨-, h⟩ <;> rw [h] at hu <;> cases hu
      exact ⟨_, rfl⟩)
    with ⟨u, hu, v, rfl⟩ | ⟨i, -, t, ⟨v, rfl⟩, ⟨u, a, h1, h2⟩ | ⟨a, h1, h2⟩⟩
  · exact .inl ⟨v, hu⟩
  · unfold maskUnit at h1
    rcases memRead_cases { s with vr := v } (unitAddr s.xorCur s.xorStr i) vecBytes
      (fun bs => .done (setVreg { s with vr := v } i
        (regOfBytes (xorBytes (regSlice (vreg { s with vr := v } i) 0 vecBytes) bs))))
      with ⟨-, h⟩ | ⟨-, h⟩ | ⟨-, h⟩ <;> rw [h] at h1 <;> cases h1
    exact .inr (.inl ⟨v, _, h2⟩)
  · exact .inr (.inr ⟨a, h2⟩)

/-- What a loop of stores can do, whatever the port answers. -/
theorem storeUnits_frame (n : Nat) (s : State) :
    (∃ j ≤ n, (forUnits storeUnit n s = .done { s with mem := storedMem s j } ∨
      ∃ a, forUnits storeUnit n s = .bus { s with mem := storedMem s j } a)) ∨
    (∃ a, forUnits storeUnit n s = .device a) := by
  rcases forUnits_cases (unit := storeUnit) (fun i t => t = { s with mem := storedMem s i }) n s rfl (by
      rintro i - t u rfl hu
      unfold storeUnit at hu
      rcases memWrite_cases { s with mem := storedMem s i } (unitAddr s.outCur s.outStr i)
        (regSlice (vreg s i) 0 vecBytes) with ⟨-, h⟩ | ⟨-, h⟩ | ⟨-, h⟩ <;>
        erw [h] at hu <;> cases hu
      rfl)
    with ⟨u, hu, rfl⟩ | ⟨i, hi, t, rfl, ⟨u, a, h1, h2⟩ | ⟨a, h1, h2⟩⟩
  · exact .inl ⟨n, le_rfl, .inl hu⟩
  · unfold storeUnit at h1
    rcases memWrite_cases { s with mem := storedMem s i } (unitAddr s.outCur s.outStr i)
      (regSlice (vreg s i) 0 vecBytes) with ⟨-, h⟩ | ⟨-, h⟩ | ⟨-, h⟩ <;>
      erw [h] at h1 <;> cases h1
    exact .inl ⟨i, hi.le, .inr ⟨_, h2⟩⟩
  · exact .inr ⟨a, h2⟩

theorem wf_storedMem (s : State) (n : Nat) (h : Memory.wf s.mem = true) : Memory.wf (storedMem s n) = true := by
  induction n with
  | zero => exact h
  | succ n ih => exact wf_storeBytes _ _ _ ih

/-- A byte outside every unit stored so far. -/
theorem byteAt_storedMem_of_ne (s : State) (n : Nat) (x : Addr) (hw : Memory.wf s.mem = true)
    (h : ∀ i < n, ∀ k < 16, x ≠ unitAddr s.outCur s.outStr i + BitVec.ofNat 64 k) :
    byteAt (storedMem s n) x = byteAt s.mem x := by
  induction n with
  | zero => rfl
  | succ n ih =>
    rw [storedMem, byteAt_storeBytes_of_ne _ _ _ _ (wf_storedMem s n hw) (by simp [vecBytes])
      (by simpa [vecBytes] using h n (by omega))]
    exact ih fun i hi => h i (by omega)

/-- A byte of unit `i` that no later unit covers. -/
theorem byteAt_storedMem_of_last (s : State) (n i k : Nat) (hw : Memory.wf s.mem = true) (hi : i < n) (hk : k < 16)
    (h : ∀ j, i < j → j < n → ∀ l < 16, unitAddr s.outCur s.outStr i + BitVec.ofNat 64 k ≠
      unitAddr s.outCur s.outStr j + BitVec.ofNat 64 l) :
    byteAt (storedMem s n) (unitAddr s.outCur s.outStr i + BitVec.ofNat 64 k) = regByte (vreg s i) k := by
  induction n with
  | zero => omega
  | succ n ih =>
    rw [storedMem]
    by_cases hin : i = n
    · subst hin
      rw [byteAt_storeBytes_of_lt _ _ _ _ (wf_storedMem s _ hw) (by simpa [vecBytes] using hk) (by simp [vecBytes]),
        regSlice_getD _ _ _ _ (by simpa [vecBytes] using hk), Nat.zero_add]
    · rw [byteAt_storeBytes_of_ne _ _ _ _ (wf_storedMem s n hw) (by simp [vecBytes])
        (by simpa [vecBytes] using h n (by omega) (by omega))]
      exact ih (by omega) fun j h1 h2 => h j h1 (by omega)

/-! ### Bytes of loaded and masked registers -/

theorem regByte_loadedReg (s : State) (i : Nat) (r : VReg) (k : Nat) (hk : k < 16) :
    regByte (loadedReg s i r) k = byteAt s.mem (unitAddr s.inCur s.inStr i + BitVec.ofNat 64 k) := by
  rw [loadedReg, regByte_regOfBytes _ _ hk, bytesAt_getD _ _ _ _ (by simpa [vecBytes] using hk)]

theorem xorBytes_getD (a b : List Byte) (k : Nat) (ha : k < a.length) (hb : k < b.length) :
    (xorBytes a b).getD k 0 = a.getD k 0 ^^^ b.getD k 0 := by
  simp [xorBytes, List.getD, ha, hb]

@[simp] theorem xorBytes_length (a b : List Byte) : (xorBytes a b).length = min a.length b.length := by
  simp [xorBytes]

theorem regByte_maskedReg (s : State) (i : Nat) (r : VReg) (k : Nat) (hk : k < 16) :
    regByte (maskedReg s i r) k =
      regByte r k ^^^ byteAt s.mem (unitAddr s.xorCur s.xorStr i + BitVec.ofNat 64 k) := by
  have h16 : k < vecBytes := by simpa [vecBytes] using hk
  rw [maskedReg, regByte_regOfBytes _ _ hk, xorBytes_getD _ _ _ (by simpa using h16) (by simpa using h16),
    regSlice_getD _ _ _ _ h16, bytesAt_getD _ _ _ _ h16, Nat.zero_add]

/-! ### The end of a micro-operation -/

@[simp] theorem endUop_done (s : State) (i : Instr) : endUop (.done s) i = .next (setUop s i) := rfl

@[simp] theorem endUop_bus (s : State) (a : Addr) (i : Instr) : endUop (.bus s a) i = .next (raiseFault s .bus a) :=
  rfl

@[simp] theorem endUop_device (a : Addr) (i : Instr) : endUop (.device a) i = .refused (.deviceMemory a) := rfl

/-- A micro-operation that answers a next state went through or took the BUS fault. -/
theorem endUop_next {p : Progress} {i : Instr} {t : State} (h : endUop p i = .next t) :
    (∃ s, p = .done s ∧ t = setUop s i) ∨ (∃ s a, p = .bus s a ∧ t = raiseFault s .bus a) := by
  cases p with
  | done s => simp at h; exact .inl ⟨s, rfl, h.symm⟩
  | bus s a => simp at h; exact .inr ⟨s, a, rfl, h.symm⟩
  | device a => simp at h

end Sys2Proof.Machine
end

