-- ==== Sys2Proof/Laws/Exec.lean ====
section
/-! SUPPORT. What each operation can do when it answers a next state, said once, and when it cannot stop. -/

namespace Sys2Proof.Machine

/-- How a data micro-operation ends: only registers and memory have changed, memory canonically, and either its
successor stands in UOP or the BUS fault is taken. -/
def DataEnd (s : State) (succ : Instr) (t : State) : Prop :=
  ∃ v m, (Memory.wf s.mem = true → Memory.wf m = true) ∧
    (t = setUop { s with vr := v, mem := m } succ ∨ ∃ a, t = raiseFault { s with vr := v, mem := m } .bus a)

/-! ### The loops and the single requests -/

theorem forLoads_end {n : Nat} {s t : State} {i : Instr} (h : endUop (forUnits loadUnit n s) i = .next t) :
    DataEnd s i t := by
  rcases loadUnits_frame n s with ⟨v, hv⟩ | ⟨v, a, hv⟩ | ⟨a, hv⟩ <;> rw [hv] at h <;> simp at h
  · exact ⟨v, s.mem, id, .inl h.symm⟩
  · exact ⟨v, s.mem, id, .inr ⟨a, h.symm⟩⟩

theorem forMasks_end {n : Nat} {s t : State} {i : Instr} (h : endUop (forUnits maskUnit n s) i = .next t) :
    DataEnd s i t := by
  rcases maskUnits_frame n s with ⟨v, hv⟩ | ⟨v, a, hv⟩ | ⟨a, hv⟩ <;> rw [hv] at h <;> simp at h
  · exact ⟨v, s.mem, id, .inl h.symm⟩
  · exact ⟨v, s.mem, id, .inr ⟨a, h.symm⟩⟩

theorem forStores_end {n : Nat} {s t : State} {i : Instr} (h : endUop (forUnits storeUnit n s) i = .next t) :
    DataEnd s i t := by
  rcases storeUnits_frame n s with ⟨j, -, hv | ⟨a, hv⟩⟩ | ⟨a, hv⟩ <;> rw [hv] at h <;> simp at h
  · exact ⟨s.vr, _, wf_storedMem s j, .inl h.symm⟩
  · exact ⟨s.vr, _, wf_storedMem s j, .inr ⟨a, h.symm⟩⟩

/-- A read whose continuation only updates registers. -/
theorem readRegs_end {s t : State} {a : Addr} {n : Nat} {f : List Byte → State} {i : Instr}
    (hf : ∀ bs, ∃ v, f bs = { s with vr := v })
    (h : endUop (memRead s a n fun bs => .done (f bs)) i = .next t) : DataEnd s i t := by
  rcases memRead_cases s a n (fun bs => .done (f bs)) with ⟨-, e⟩ | ⟨-, e⟩ | ⟨-, e⟩ <;> rw [e] at h <;> simp at h
  · obtain ⟨v, hv⟩ := hf (bytesAt s.mem a n)
    exact ⟨v, s.mem, id, .inl (by rw [← h, hv])⟩
  · exact ⟨s.vr, s.mem, id, .inr ⟨a, h.symm⟩⟩

/-- A write from a state that differs only in registers. -/
theorem write_end {s t : State} {v : Vector VReg 6} {a : Addr} {bs : List Byte} {i : Instr}
    (h : endUop (memWrite { s with vr := v } a bs) i = .next t) : DataEnd s i t := by
  rcases memWrite_cases { s with vr := v } a bs with ⟨-, e⟩ | ⟨-, e⟩ | ⟨-, e⟩ <;> rw [e] at h <;> simp at h
  · exact ⟨v, _, wf_storeBytes _ _ _, .inl h.symm⟩
  · exact ⟨v, s.mem, id, .inr ⟨a, h.symm⟩⟩

theorem padTail_frame (blk : List Byte) (n : Nat) (s : State) : ∃ v, padTail blk n s = { s with vr := v } :=
  ⟨_, updateVregs_frame _ _ _⟩

theorem kernelCall_frame (s : State) (w : Nat) : ∃ v, kernelCall s w = { s with vr := v } :=
  ⟨_, updateVregs_frame _ _ _⟩

/-! ### The data micro-operations -/

theorem execLdin_next {w : Width} {s t : State} (h : execLdin w s = .next t) : DataEnd s (afterLoad s w) t :=
  forLoads_end h

theorem execLdinT_next {w : Width} {s t : State} (h : execLdinT w s = .next t) : DataEnd s (afterLoadT s w) t :=
  readRegs_end (fun bs => padTail_frame bs w.regs s) h

theorem execXorin_next {w : Width} {s t : State} (h : execXorin w s = .next t) : DataEnd s (.kcall w) t :=
  forMasks_end h

theorem execXorout_next {w : Width} {s t : State} (h : execXorout w s = .next t) : DataEnd s (.stout w) t :=
  forMasks_end h

theorem execXorinT_next {w : Width} {s t : State} (h : execXorinT w s = .next t) : DataEnd s (.kcallT w) t :=
  readRegs_end (fun _ => ⟨_, rfl⟩) h

theorem execXoroutT_next {w : Width} {s t : State} (h : execXoroutT w s = .next t) : DataEnd s (.stoutT w) t :=
  readRegs_end (fun _ => ⟨_, rfl⟩) h

theorem execStout_next {w : Width} {s t : State} (h : execStout w s = .next t) : DataEnd s (.adv w) t :=
  forStores_end h

theorem execStoutT_next {w : Width} {s t : State} (h : execStoutT w s = .next t) : DataEnd s (.advT w) t :=
  write_end (v := s.vr) h

theorem execCtrgen_next {w : Width} {s t : State} (h : execCtrgen w s = .next t) : DataEnd s (afterLoad s w) t := by
  unfold execCtrgen at h
  rcases memRead_cases s s.inCur (blockBytes s.cfg) (fun ctr =>
    memWrite (updateVregs (fun i _ => counterReg s.cfg ctr i) w.regs s) s.inCur
      (ctrAdd s.cfg ctr (w.regs * lanesPerReg s.cfg))) with ⟨-, e⟩ | ⟨-, e⟩ | ⟨-, e⟩ <;> rw [e] at h
  · rw [updateVregs_frame] at h
    exact write_end h
  · simp at h
    exact ⟨s.vr, s.mem, id, .inr ⟨_, h.symm⟩⟩
  · simp at h

theorem execCtrgenT_next {w : Width} {s t : State} (h : execCtrgenT w s = .next t) :
    DataEnd s (afterLoadT s w) t := by
  unfold execCtrgenT at h
  rcases memRead_cases s s.inCur (blockBytes s.cfg) (fun ctr =>
    memWrite (padTail ctr w.regs s) s.inCur (ctrAdd s.cfg ctr 1)) with ⟨-, e⟩ | ⟨-, e⟩ | ⟨-, e⟩ <;> rw [e] at h
  · obtain ⟨v, hv⟩ := padTail_frame (bytesAt s.mem s.inCur (blockBytes s.cfg)) w.regs s
    rw [hv] at h
    exact write_end h
  · simp at h
    exact ⟨s.vr, s.mem, id, .inr ⟨_, h.symm⟩⟩
  · simp at h

theorem execKcall_next {w : Width} {s t : State} (h : execKcall w s = .next t) :
    DataEnd s (if xorOut s then .xorout w else .stout w) t := by
  obtain ⟨v, hv⟩ := kernelCall_frame s w.regs
  simp only [execKcall, hv, Host.Outcome.next.injEq] at h
  exact ⟨v, s.mem, id, .inl h.symm⟩

theorem execKcallT_next {w : Width} {s t : State} (h : execKcallT w s = .next t) :
    DataEnd s (if xorOut s then .xoroutT w else .stoutT w) t := by
  obtain ⟨v, hv⟩ := kernelCall_frame s w.regs
  simp only [execKcallT, hv, Host.Outcome.next.injEq] at h
  exact ⟨v, s.mem, id, .inl h.symm⟩

/-! ### SETUP, ARB and the host's operations -/

/-- SETUP takes a fault with the latch done, or starts the command. -/
theorem execSetup_next {s t : State} (h : execSetup s = .next t) :
    (∃ c, setupFault (latch s) = some c ∧ t = raiseFault (latch s) c 0) ∨
    (setupFault (latch s) = none ∧ t = setUop (initCommand (latch s)) .arb) := by
  unfold execSetup at h
  cases hf : setupFault (latch s) <;> simp only [hf, Host.Outcome.next.injEq] at h
  · exact .inr ⟨rfl, h.symm⟩
  · exact .inl ⟨_, rfl, h.symm⟩

/-- A batch width ARB selects is a member of BATCHSET the length allows, with `TAILMODE = 0` and `P = 1`. -/
theorem arbBatch_some {s : State} {w : Width} (h : arbBatch s = some w) :
    w ∈ batchSet s.cfg ∧ s.tailMode = false ∧ flagP s = true ∧ w.regs * vecBytes ≤ s.lenRem.toNat := by
  unfold arbBatch at h
  split at h
  · rename_i hc
    exact ⟨List.mem_of_find?_eq_some h, hc.1, hc.2, by simpa using List.find?_some h⟩
  · cases h

/-- The three ways of ARB: a batch, the tail path, FINISH. -/
theorem execArb_next {s t : State} (h : execArb s = .next t) :
    (∃ w, arbBatch s = some w ∧ t = setUop (setW s w) (if flagC s then .ctrgen w else .ldin w)) ∨
    (arbBatch s = none ∧ blockBytes s.cfg ≤ s.lenRem.toNat ∧
      t = setUop (setW s (narrowest s.cfg)) (if s.tailMode = false then .tadj
        else if flagC s then .ctrgenT (narrowest s.cfg) else .ldinT (narrowest s.cfg))) ∨
    (arbBatch s = none ∧ s.lenRem.toNat < blockBytes s.cfg ∧ t = setUop s .finish) := by
  unfold execArb at h
  cases ha : arbBatch s with
  | some w => simp only [ha, Host.Outcome.next.injEq] at h; exact .inl ⟨w, rfl, h.symm⟩
  | none =>
    simp only [ha] at h
    split at h <;> simp only [Host.Outcome.next.injEq] at h
    · exact .inr (.inl ⟨rfl, ‹_›, h.symm⟩)
    · exact .inr (.inr ⟨rfl, by omega, h.symm⟩)

/-- A host write while BUSY is dropped. -/
theorem hostWrite_busy {s : State} (h : s.busy = true) (o b : Nat) (v : BitVec 64) : hostWrite s o b v = s := by
  simp [hostWrite, h]

/-- A host write changes nothing but operand registers. -/
theorem hostWrite_frame (s : State) (o b : Nat) (v : BitVec 64) :
    ∃ sk r i x ou l f, hostWrite s o b v = { s with
      subkeys := sk, rounds := r, inPtr := i, xorPtr := x, outPtr := ou, length := l, flags := f } := by
  unfold hostWrite
  split
  · exact ⟨s.subkeys, s.rounds, s.inPtr, s.xorPtr, s.outPtr, s.length, s.flags, rfl⟩
  · split
    · exact ⟨v, s.rounds, s.inPtr, s.xorPtr, s.outPtr, s.length, s.flags, rfl⟩
    · exact ⟨s.subkeys, v.setWidth 32, s.inPtr, s.xorPtr, s.outPtr, s.length, s.flags, rfl⟩
    · exact ⟨s.subkeys, s.rounds, v, s.xorPtr, s.outPtr, s.length, s.flags, rfl⟩
    · exact ⟨s.subkeys, s.rounds, s.inPtr, v, s.outPtr, s.length, s.flags, rfl⟩
    · exact ⟨s.subkeys, s.rounds, s.inPtr, s.xorPtr, v, s.length, s.flags, rfl⟩
    · exact ⟨s.subkeys, s.rounds, s.inPtr, s.xorPtr, s.outPtr, v, s.flags, rfl⟩
    · exact ⟨s.subkeys, s.rounds, s.inPtr, s.xorPtr, s.outPtr, s.length, v.setWidth 32, rfl⟩
    · exact ⟨s.subkeys, s.rounds, s.inPtr, s.xorPtr, s.outPtr, s.length, s.flags, rfl⟩

/-- The seven writes of PROCESS while not BUSY. -/
theorem execProcess_idle {s : State} (h : s.busy = false) (d : Descriptor) :
    execProcess d s = .next (startCommand { s with
      subkeys := d.subkeys, rounds := d.rounds, inPtr := d.inPtr, xorPtr := d.xorPtr, outPtr := d.outPtr
      length := d.length, flags := d.flags }) := by
  simp [execProcess, hostWrite, h]

theorem execProcess_busy {s : State} (h : s.busy = true) (d : Descriptor) : execProcess d s = .next s := by
  simp [execProcess, hostWrite, startCommand, h]

theorem startCommand_accept {s : State} (hb : s.busy = false) (hf : s.fault = false) :
    startCommand s = { s with busy := true, done := false, uop := 0x10#8 } := by simp [startCommand, hb, hf]

theorem startCommand_drop {s : State} (h : s.busy = true ∨ s.fault = true) : startCommand s = s := by
  rcases h with h | h <;> simp [startCommand, h]

/-! ### No operation stops with a fault of the model -/

theorem endUop_ne_fault (p : Progress) (i : Instr) (f : Fault) : endUop p i ≠ .fault f := by
  cases p <;> simp [endUop]

theorem exec_ne_fault (i : Instr) (s : State) (f : Fault) : exec i s ≠ .fault f := by
  cases i with
  | process d => simp [exec, execProcess]
  | start => simp [exec, execStart]
  | srst => simp [exec, execSrst]
  | idle => simp [exec, execIdle]
  | setup => simp only [exec, execSetup]; split <;> simp
  | arb => simp only [exec, execArb]; split <;> (try split) <;> simp
  | tadj => simp [exec, execTadj]
  | ldin w => exact endUop_ne_fault _ _ _
  | ldinT w => exact endUop_ne_fault _ _ _
  | ctrgen w => exact endUop_ne_fault _ _ _
  | ctrgenT w => exact endUop_ne_fault _ _ _
  | xorin w => exact endUop_ne_fault _ _ _
  | xorinT w => exact endUop_ne_fault _ _ _
  | kcall w => simp [exec, execKcall]
  | kcallT w => simp [exec, execKcallT]
  | xorout w => exact endUop_ne_fault _ _ _
  | xoroutT w => exact endUop_ne_fault _ _ _
  | stout w => exact endUop_ne_fault _ _ _
  | stoutT w => exact endUop_ne_fault _ _ _
  | adv w => simp [exec, execAdv]
  | advT w => simp [exec, execAdvT]
  | finish => simp [exec, execFinish]
  | fault => simp [exec, execFault]

/-! ### Without device memory no request is without meaning -/

theorem portAnswer_ne_device {s : State} (h : NoDevice s) (acc : Access) (a : Addr) (n : Nat) :
    portAnswer s.port acc a n ≠ .device := by
  have hf : (s.port.any fun r => r.kind == .device && touches r a n) = false := by
    rw [List.any_eq_false]
    intro r hr
    simp [h r hr]
  unfold portAnswer
  rw [hf]
  split
  · simp
  · simp only [Bool.false_eq_true, if_false]
    split <;> simp

/-- A request without device memory goes on or takes the error. -/
theorem memRead_ne_device {s : State} (h : NoDevice s) (a : Addr) (n : Nat) (k : List Byte → Progress)
    (hk : ∀ bs x, k bs ≠ .device x) (x : Addr) : memRead s a n k ≠ .device x := by
  rcases memRead_cases s a n k with ⟨-, e⟩ | ⟨-, e⟩ | ⟨hd, -⟩
  · rw [e]; exact hk _ _
  · rw [e]; simp
  · exact absurd hd (portAnswer_ne_device h _ _ _)

theorem memWrite_ne_device {s : State} (h : NoDevice s) (a : Addr) (v : List Byte) (x : Addr) :
    memWrite s a v ≠ .device x := by
  rcases memWrite_cases s a v with ⟨-, e⟩ | ⟨-, e⟩ | ⟨hd, -⟩
  · rw [e]; simp
  · rw [e]; simp
  · exact absurd hd (portAnswer_ne_device h _ _ _)

/-- A loop whose units keep the port's map never meets device memory. -/
theorem forUnits_ne_device {unit : Nat → State → Progress} {s : State} (hs : NoDevice s)
    (hk : ∀ i t u, unit i t = .done u → u.port = t.port) (hu : ∀ i t x, NoDevice t → unit i t ≠ .device x)
    (n : Nat) (x : Addr) : forUnits unit n s ≠ .device x := by
  rcases forUnits_cases (unit := unit) (fun _ t => t.port = s.port) n s rfl
    (fun i _ t u ht h => (hk i t u h).trans ht) with ⟨u, e, -⟩ | ⟨i, -, t, ht, ⟨u, a, -, e⟩ | ⟨a, h1, -⟩⟩
  · rw [e]; simp
  · rw [e]; simp
  · exact absurd h1 (hu i t a (by unfold NoDevice; rw [ht]; exact hs))

theorem loadUnits_ne_device {s : State} (h : NoDevice s) (n : Nat) (x : Addr) :
    forUnits loadUnit n s ≠ .device x := by
  refine forUnits_ne_device h (fun i t u hu => ?_) (fun i t x ht => memRead_ne_device ht _ _ _ (by simp) _) n x
  rcases memRead_cases t (unitAddr t.inCur t.inStr i) vecBytes (fun bs => .done (setVreg t i (regOfBytes bs)))
    with ⟨-, e⟩ | ⟨-, e⟩ | ⟨-, e⟩ <;> rw [e] at hu <;> cases hu
  rfl

theorem maskUnits_ne_device {s : State} (h : NoDevice s) (n : Nat) (x : Addr) :
    forUnits maskUnit n s ≠ .device x := by
  refine forUnits_ne_device h (fun i t u hu => ?_) (fun i t x ht => memRead_ne_device ht _ _ _ (by simp) _) n x
  rcases memRead_cases t (unitAddr t.xorCur t.xorStr i) vecBytes
    (fun bs => .done (setVreg t i (regOfBytes (xorBytes (regSlice (vreg t i) 0 vecBytes) bs))))
    with ⟨-, e⟩ | ⟨-, e⟩ | ⟨-, e⟩ <;> rw [e] at hu <;> cases hu
  rfl

theorem storeUnits_ne_device {s : State} (h : NoDevice s) (n : Nat) (x : Addr) :
    forUnits storeUnit n s ≠ .device x := by
  refine forUnits_ne_device h (fun i t u hu => ?_) (fun i t x ht => memWrite_ne_device ht _ _ _) n x
  rcases memWrite_cases t (unitAddr t.outCur t.outStr i) (regSlice (vreg t i) 0 vecBytes)
    with ⟨-, e⟩ | ⟨-, e⟩ | ⟨-, e⟩ <;> rw [e] at hu <;> cases hu
  rfl

theorem endUop_goes_on {p : Progress} (h : ∀ x, p ≠ .device x) (i : Instr) : ∃ t, endUop p i = .next t := by
  cases p with
  | done s => exact ⟨_, rfl⟩
  | bus s a => exact ⟨_, rfl⟩
  | device a => exact absurd rfl (h a)

/-- Without device memory every operation answers a next state. -/
theorem exec_goes_on {s : State} (h : NoDevice s) (i : Instr) : ∃ t, exec i s = .next t := by
  cases i with
  | process d => exact ⟨_, rfl⟩
  | start => exact ⟨_, rfl⟩
  | srst => exact ⟨_, rfl⟩
  | idle => exact ⟨_, rfl⟩
  | setup => simp only [exec, execSetup]; split <;> exact ⟨_, rfl⟩
  | arb => simp only [exec, execArb]; split <;> (try split) <;> exact ⟨_, rfl⟩
  | tadj => exact ⟨_, rfl⟩
  | ldin w => exact endUop_goes_on (loadUnits_ne_device h _) _
  | ldinT w => exact endUop_goes_on (memRead_ne_device h _ _ _ (by simp)) _
  | ctrgen w =>
    refine endUop_goes_on (memRead_ne_device h _ _ _ fun bs x => memWrite_ne_device ?_ _ _ _) _
    simpa [NoDevice] using h
  | ctrgenT w =>
    refine endUop_goes_on (memRead_ne_device h _ _ _ fun bs x => memWrite_ne_device ?_ _ _ _) _
    simpa [NoDevice, padTail] using h
  | xorin w => exact endUop_goes_on (maskUnits_ne_device h _) _
  | xorinT w => exact endUop_goes_on (memRead_ne_device h _ _ _ (by simp)) _
  | kcall w => exact ⟨_, rfl⟩
  | kcallT w => exact ⟨_, rfl⟩
  | xorout w => exact endUop_goes_on (maskUnits_ne_device h _) _
  | xoroutT w => exact endUop_goes_on (memRead_ne_device h _ _ _ (by simp)) _
  | stout w => exact endUop_goes_on (storeUnits_ne_device h _) _
  | stoutT w => exact endUop_goes_on (memWrite_ne_device h _ _) _
  | adv w => exact ⟨_, rfl⟩
  | advT w => exact ⟨_, rfl⟩
  | finish => exact ⟨_, rfl⟩
  | fault => exact ⟨_, rfl⟩

end Sys2Proof.Machine
end

