-- ==== Sys2Proof/Laws/Lanes.lean ====
section
/-! SUPPORT. Block lanes: the sizes the configuration gives, the lanes of a register written as a concatenation of
blocks, and the tail's padded and masked registers. -/

namespace Sys2Proof.Machine

/-! ### Sizes -/

theorem blockBytes_cases (c : Config) : blockBytes c = 8 ∨ blockBytes c = 16 := by
  unfold blockBytes; cases c.block <;> simp [BlockSize.bytes]

theorem lanes_mul_block (c : Config) : lanesPerReg c * blockBytes c = 16 := by
  unfold lanesPerReg blockBytes vecBytes; cases c.block <;> rfl

theorem lanes_pos (c : Config) : 0 < lanesPerReg c := by
  unfold lanesPerReg blockBytes vecBytes; cases c.block <;> decide

theorem counterBytes_le (c : Config) : counterBytes c ≤ blockBytes c := by
  unfold counterBytes blockBytes; cases c.block <;> cases c.ctr8w8 <;> simp [BlockSize.bytes]

/-- A batch width is a whole number of blocks. -/
theorem width_mod_block (c : Config) (w : Width) : w.regs * 16 % blockBytes c = 0 := by
  unfold blockBytes; cases c.block <;> cases w <;> rfl

@[simp] theorem ctrAdd_length {c : Config} {blk : List Byte} {n : Nat} (h : blk.length = blockBytes c) :
    (ctrAdd c blk n).length = blockBytes c := by
  have := counterBytes_le c
  simp [ctrAdd, h]; omega

theorem blockE_length {c : Config} {table blk : List Byte} {rnd : BitVec 32} (hb : blk.length = blockBytes c)
    (ht : table.length = tableBytes c rnd) : (blockE c table rnd blk).length = blockBytes c := by
  unfold tableBytes at ht
  unfold blockE
  cases hk : c.kernel <;> simp [hk] at ht ⊢ <;> omega

/-! ### A concatenation of blocks -/

/-- Byte `m` of `n` blocks of `B` bytes one after another. -/
theorem flatMap_getD (f : Nat → List Byte) (B n m : Nat) (hf : ∀ k, (f k).length = B) (hm : m < n * B) :
    ((List.range n).flatMap f).getD m 0 = (f (m / B)).getD (m % B) 0 := by
  induction n with
  | zero => omega
  | succ n ih =>
    rw [List.range_succ, List.flatMap_append]
    have hl : ((List.range n).flatMap f).length = n * B := by simp [List.length_flatMap, hf]
    by_cases h : m < n * B
    · rw [List.getD_append _ _ _ _ (by omega)]; exact ih h
    · rw [List.getD_append_right _ _ _ _ (by omega), hl]
      have hq : m / B = n := by apply Nat.div_eq_of_lt_le <;> nlinarith
      have h2 := Nat.div_add_mod m B
      simp only [List.flatMap_singleton, hq]
      rw [hq, Nat.mul_comm] at h2
      congr 1
      omega

/-- Lane `j` of registers whose `i`-th is a concatenation of blocks. -/
theorem laneOf_eq {s t : State} {g : Nat → List Byte} {j : Nat} (hc : t.cfg = s.cfg)
    (hlen : ∀ k, (g k).length = blockBytes s.cfg)
    (h : vreg t (j / lanesPerReg s.cfg) = regOfBytes ((List.range (lanesPerReg s.cfg)).flatMap g)) :
    laneOf t j = g (j % lanesPerReg s.cfg) := by
  have hl := lanes_mul_block s.cfg
  have hm : j % lanesPerReg s.cfg < lanesPerReg s.cfg := Nat.mod_lt _ (lanes_pos _)
  unfold laneOf
  rw [hc, h]
  apply List.ext_getElem (by simp [hlen])
  intro i h1 h2
  simp only [regSlice_length] at h1
  have hi : j % lanesPerReg s.cfg * blockBytes s.cfg + i < lanesPerReg s.cfg * blockBytes s.cfg := by nlinarith
  have e := regSlice_getD (regOfBytes ((List.range (lanesPerReg s.cfg)).flatMap g))
    (j % lanesPerReg s.cfg * blockBytes s.cfg) (blockBytes s.cfg) i h1
  have e2 : (j % lanesPerReg s.cfg * blockBytes s.cfg + i) / blockBytes s.cfg = j % lanesPerReg s.cfg := by
    apply Nat.div_eq_of_lt_le <;> nlinarith
  have e3 : (j % lanesPerReg s.cfg * blockBytes s.cfg + i) % blockBytes s.cfg = i := by
    rw [Nat.add_comm, Nat.add_mul_mod_self_right, Nat.mod_eq_of_lt h1]
  rw [regByte_regOfBytes _ _ (by omega), flatMap_getD g _ _ _ hlen hi, e2, e3] at e
  simpa [h1, h2] using e

theorem laneOf_zero (s : State) : laneOf s 0 = regSlice (vreg s 0) 0 (blockBytes s.cfg) := by simp [laneOf]

/-- A slice known byte by byte. -/
theorem regSlice_eq {r : VReg} {bs : List Byte} {n : Nat} (hl : bs.length = n)
    (h : ∀ k < n, regByte r k = bs.getD k 0) : regSlice r 0 n = bs := by
  apply List.ext_getElem (by simp [hl])
  intro i h1 h2
  simp only [regSlice_length] at h1
  have e := regSlice_getD r 0 n i h1
  rw [Nat.zero_add, h i h1] at e
  simpa [h1, h2, List.getD] using e

/-! ### The tail's registers -/

theorem paddedBlock_padTail {s : State} {blk : List Byte} (w : Width) (h : blk.length = blockBytes s.cfg) :
    PaddedBlock s (padTail blk w.regs s) blk w.regs := by
  have hb := blockBytes_cases s.cfg
  unfold padTail
  refine ⟨fun k hk => ?_, fun i h1 h2 => ?_, fun i hi => ?_⟩ <;> rw [vreg_updateVregs _ _ _ (regs_le_six w)]
  · rw [if_pos (regs_pos w), if_pos rfl, regByte_regOfBytes _ _ hk]
    split
    · rw [List.getD_append _ _ _ _ (by omega)]
    · rw [List.getD_append_right _ _ _ _ (by omega), zeros_getD]
  · rw [if_pos h2, if_neg (by omega)]
  · rw [if_neg (by omega)]

/-- What `maskBlock` leaves when its read is accepted. -/
theorem maskBlock_accept {s : State} (h : portAnswer s.port .read s.xorCur (blockBytes s.cfg) = .accept) :
    ∃ v, maskBlock s = .done { s with vr := v } ∧ MaskedBlock s { s with vr := v } := by
  have hb := blockBytes_cases s.cfg
  unfold maskBlock
  rw [memRead_accept h]
  generalize hr : regOfBytes (xorBytes (regSlice (vreg s 0) 0 (blockBytes s.cfg))
    (bytesAt s.mem s.xorCur (blockBytes s.cfg)) ++ regSlice (vreg s 0) (blockBytes s.cfg)
      (vecBytes - blockBytes s.cfg)) = r
  refine ⟨(setVreg s 0 r).vr, rfl, fun k hk => ?_, fun i hi => ?_⟩
  · show regByte (vreg (setVreg s 0 r) 0) k = _
    rw [vreg_setVreg_self _ _ _ (by decide), ← hr, regByte_regOfBytes _ _ hk]
    split
    · rw [List.getD_append _ _ _ _ (by simp; omega), xorBytes_getD _ _ _ (by simp; omega) (by simp; omega),
        regSlice_getD _ _ _ _ (by omega), bytesAt_getD _ _ _ _ (by omega), Nat.zero_add]
    · rw [List.getD_append_right _ _ _ _ (by simp; omega), regSlice_getD _ _ _ _ (by simp [vecBytes]; omega)]
      simp; congr 1; omega
  · exact vreg_setVreg_ne _ _ _ _ (by omega)

end Sys2Proof.Machine
end

