-- ==== Sys2Proof/Laws/Footprint.lean ====
section
/-! SUPPORT. Which bytes a command owns, said as the rules say it. -/

namespace Sys2Proof.Machine

/-- An address lies in a range exactly when it is one of the range's bytes. -/
theorem inRange_iff {a : Addr} {r : ByteRange} : inRange a r = true ↔ InBytes a r.base r.size := by
  unfold inRange InBytes
  rw [decide_eq_true_eq]
  constructor
  · intro h
    exact ⟨(a - r.base).toNat, h, by rw [BitVec.ofNat_toNat, BitVec.setWidth_eq, BitVec.add_comm, BitVec.sub_add_cancel]⟩
  · rintro ⟨i, hi, rfl⟩
    have : (r.base + BitVec.ofNat 64 i - r.base) = BitVec.ofNat 64 i := by
      rw [BitVec.add_comm, BitVec.add_sub_cancel]
    rw [this, BitVec.toNat_ofNat]
    exact Nat.lt_of_le_of_lt (Nat.mod_le _ _) hi

/-- The flags of a latched command. -/
theorem flagC_latch (s : State) : flagC (latch s) = s.flags.getLsbD 0 := by simp [flagC]
theorem flagD_latch (s : State) : flagD (latch s) = s.flags.getLsbD 1 := by simp [flagD]
theorem flagR_latch (s : State) : flagR (latch s) = s.flags.getLsbD 3 := by simp [flagR]
theorem flagP_latch (s : State) : flagP (latch s) = s.flags.getLsbD 4 := by simp [flagP]

/-- The start cursor of a latched command. -/
theorem startCursor_latch (s : State) (ptr : Addr) :
    startCursor (flagR (latch s)) ptr s.length = commandStart s ptr := by
  simp [startCursor, commandStart, flagR_latch, strideV, vecBytes]

/-- The processed range, by its bytes. -/
theorem processedRange_iff {s : State} {a ptr : Addr} :
    inRange a (processedRange (latch s) ptr) = true ↔ ProcessedByte s a ptr := by
  simp [inRange_iff, processedRange, ProcessedByte, flagR_latch]

/-- The unit at a frozen cursor, by its bytes. -/
theorem frozenUnit_iff {s : State} {a ptr : Addr} :
    inRange a (frozenUnit (latch s) ptr) = true ↔ FrozenByte s a ptr := by
  have hb : batchRuns (latch s) = true ↔
      s.flags.getLsbD 4 = true ∧ ∃ w ∈ batchSet s.cfg, w.regs * 16 ≤ s.length.toNat := by
    change (flagP (latch s) && (batchSet s.cfg).any fun w => decide (w.regs * 16 ≤ s.length.toNat)) = true ↔ _
    rw [flagP_latch]
    simp only [Bool.and_eq_true, List.any_eq_true, decide_eq_true_eq]
  rw [inRange_iff]
  change InBytes a (startCursor (flagR (latch s)) ptr s.length) (if batchRuns (latch s) = true then 16
    else if blockBytes s.cfg ≤ s.length.toNat then blockBytes s.cfg else 0) ↔ FrozenByte s a ptr
  rw [startCursor_latch]
  unfold FrozenByte
  have hB := blockBytes_cases s.cfg
  have mono : InBytes a (commandStart s ptr) (blockBytes s.cfg) → InBytes a (commandStart s ptr) 16 :=
    fun ⟨i, hi, e⟩ => ⟨i, by omega, e⟩
  by_cases h : batchRuns (latch s) = true
  · rw [if_pos h]
    obtain ⟨hp, hw⟩ := hb.mp h
    exact ⟨fun h => .inl ⟨hp, hw, h⟩, fun h => h.elim (·.2.2) fun h => mono h.2⟩
  · rw [if_neg h]
    have h' : ¬(s.flags.getLsbD 4 = true ∧ ∃ w ∈ batchSet s.cfg, w.regs * 16 ≤ s.length.toNat) := fun x => h (hb.mpr x)
    by_cases hl : blockBytes s.cfg ≤ s.length.toNat
    · rw [if_pos hl]
      exact ⟨fun h => .inr ⟨hl, h⟩, fun x => x.elim (fun x => absurd ⟨x.1, x.2.1⟩ h') (·.2)⟩
    · rw [if_neg hl]
      exact ⟨fun ⟨_, hi, _⟩ => absurd hi (by omega), fun x => x.elim (fun x => absurd ⟨x.1, x.2.1⟩ h') fun x => absurd x.1 hl⟩

/-- The subkey table, by its bytes. -/
theorem subkeyTable_iff {s : State} {a : Addr} : (subkeyTable (latch s)).any (inRange a) = true ↔
    s.subkeys ≠ 0#64 ∧ InBytes a s.subkeys (tableBytes s.cfg s.rounds) := by
  by_cases h : s.subkeys = 0#64 <;> simp [subkeyTable, nullp, h, inRange_iff]

/-- The source or the counter block, by its bytes. -/
theorem source_iff {s : State} {a : Addr} :
    inRange a (if flagC (latch s) = true then ⟨startCursor (flagR (latch s)) s.inPtr s.length, blockBytes s.cfg⟩
      else if flagD (latch s) = true then frozenUnit (latch s) s.inPtr else processedRange (latch s) s.inPtr) = true ↔
      (s.flags.getLsbD 0 = true ∧ InBytes a (commandStart s s.inPtr) (blockBytes s.cfg)) ∨
      (s.flags.getLsbD 0 = false ∧ s.flags.getLsbD 1 = true ∧ FrozenByte s a s.inPtr) ∨
      (s.flags.getLsbD 0 = false ∧ s.flags.getLsbD 1 = false ∧ ProcessedByte s a s.inPtr) := by
  rw [flagC_latch, flagD_latch, startCursor_latch]
  cases s.flags.getLsbD 0 <;> cases s.flags.getLsbD 1
  · simpa using processedRange_iff
  · simpa using frozenUnit_iff
  · simpa using inRange_iff
  · simpa using inRange_iff

/-- The destination, by its bytes. -/
theorem dest_iff {s : State} {a : Addr} :
    inRange a (if flagD (latch s) = true then frozenUnit (latch s) s.outPtr else processedRange (latch s) s.outPtr) = true ↔
      (s.flags.getLsbD 1 = true ∧ FrozenByte s a s.outPtr) ∨
      (s.flags.getLsbD 1 = false ∧ ProcessedByte s a s.outPtr) := by
  rw [flagD_latch]
  cases s.flags.getLsbD 1
  · simpa using processedRange_iff
  · simpa using frozenUnit_iff

/-- The mask, by its bytes. -/
theorem mask_iff {s : State} {a : Addr} :
    (if (latch s).xNull = true then [] else [processedRange (latch s) s.xorPtr]).any (inRange a) = true ↔
      s.xorPtr ≠ 0#64 ∧ ProcessedByte s a s.xorPtr := by
  by_cases h : s.xorPtr = 0#64 <;> simp [nullp, h, processedRange_iff]

/-- What a command owns, as the rules say it. -/
theorem commandOwns_iff {s : State} {a : Addr} : commandOwns s a = true ↔ OwnedByte s a := by
  unfold commandOwns OwnedByte
  rw [Bool.or_eq_true, subkeyTable_iff]
  refine or_congr ?_ Iff.rfl
  unfold footprint
  cases hf : setupFault (latch s) with
  | some c => simp
  | none =>
    rw [if_neg (by simp)]
    simp only [List.any_cons, Bool.or_eq_true, true_and]
    refine (or_congr source_iff (or_congr dest_iff mask_iff)).trans ?_
    simp only [or_assoc]
    refine or_congr Iff.rfl (or_congr Iff.rfl (or_congr Iff.rfl ?_))
    rw [or_comm (a := s.xorPtr ≠ 0#64 ∧ _), or_assoc]

end Sys2Proof.Machine
end

