-- ==== Sys2Proof/Laws/PerInstr.lean ====
section
/-! SUPPORT. The statements made of every operation, one lemma a constructor. -/

namespace Sys2Proof.Laws

/-- An operation's bytes are as many as its format has (30_encoding.md R90). -/
def EncodedLength.Statement (i : Instr) : Prop := (encode i).length = formatBytes (formatOf i)

/-- The operations with a UOP word are those of the micro-operation format (30_encoding.md R90, R105). -/
def UopFormat.Statement (i : Instr) : Prop := (encodeUop i).isSome = true ↔ formatOf i = .uop

theorem EncodedLength.process (d : Descriptor) : EncodedLength.Statement (.process d) := Machine.leBytes_length _ _
theorem EncodedLength.start : EncodedLength.Statement .start := Machine.leBytes_length _ _
theorem EncodedLength.srst : EncodedLength.Statement .srst := Machine.leBytes_length _ _
theorem EncodedLength.idle : EncodedLength.Statement .idle := Machine.leBytes_length _ _
theorem EncodedLength.setup : EncodedLength.Statement .setup := Machine.leBytes_length _ _
theorem EncodedLength.arb : EncodedLength.Statement .arb := Machine.leBytes_length _ _
theorem EncodedLength.tadj : EncodedLength.Statement .tadj := Machine.leBytes_length _ _
theorem EncodedLength.ldin (w : Width) : EncodedLength.Statement (.ldin w) := Machine.leBytes_length _ _
theorem EncodedLength.ldinT (w : Width) : EncodedLength.Statement (.ldinT w) := Machine.leBytes_length _ _
theorem EncodedLength.ctrgen (w : Width) : EncodedLength.Statement (.ctrgen w) := Machine.leBytes_length _ _
theorem EncodedLength.ctrgenT (w : Width) : EncodedLength.Statement (.ctrgenT w) := Machine.leBytes_length _ _
theorem EncodedLength.xorin (w : Width) : EncodedLength.Statement (.xorin w) := Machine.leBytes_length _ _
theorem EncodedLength.xorinT (w : Width) : EncodedLength.Statement (.xorinT w) := Machine.leBytes_length _ _
theorem EncodedLength.kcall (w : Width) : EncodedLength.Statement (.kcall w) := Machine.leBytes_length _ _
theorem EncodedLength.kcallT (w : Width) : EncodedLength.Statement (.kcallT w) := Machine.leBytes_length _ _
theorem EncodedLength.xorout (w : Width) : EncodedLength.Statement (.xorout w) := Machine.leBytes_length _ _
theorem EncodedLength.xoroutT (w : Width) : EncodedLength.Statement (.xoroutT w) := Machine.leBytes_length _ _
theorem EncodedLength.stout (w : Width) : EncodedLength.Statement (.stout w) := Machine.leBytes_length _ _
theorem EncodedLength.stoutT (w : Width) : EncodedLength.Statement (.stoutT w) := Machine.leBytes_length _ _
theorem EncodedLength.adv (w : Width) : EncodedLength.Statement (.adv w) := Machine.leBytes_length _ _
theorem EncodedLength.advT (w : Width) : EncodedLength.Statement (.advT w) := Machine.leBytes_length _ _
theorem EncodedLength.finish : EncodedLength.Statement .finish := Machine.leBytes_length _ _
theorem EncodedLength.fault : EncodedLength.Statement .fault := Machine.leBytes_length _ _

theorem UopFormat.process (d : Descriptor) : UopFormat.Statement (.process d) := by simp [UopFormat.Statement, encodeUop, formatOf]
theorem UopFormat.start : UopFormat.Statement .start := by simp [UopFormat.Statement, encodeUop, formatOf]
theorem UopFormat.srst : UopFormat.Statement .srst := by simp [UopFormat.Statement, encodeUop, formatOf]
theorem UopFormat.idle : UopFormat.Statement .idle := by simp [UopFormat.Statement, encodeUop, formatOf]
theorem UopFormat.setup : UopFormat.Statement .setup := by simp [UopFormat.Statement, encodeUop, formatOf]
theorem UopFormat.arb : UopFormat.Statement .arb := by simp [UopFormat.Statement, encodeUop, formatOf]
theorem UopFormat.tadj : UopFormat.Statement .tadj := by simp [UopFormat.Statement, encodeUop, formatOf]
theorem UopFormat.ldin (w : Width) : UopFormat.Statement (.ldin w) := by simp [UopFormat.Statement, encodeUop, formatOf]
theorem UopFormat.ldinT (w : Width) : UopFormat.Statement (.ldinT w) := by simp [UopFormat.Statement, encodeUop, formatOf]
theorem UopFormat.ctrgen (w : Width) : UopFormat.Statement (.ctrgen w) := by simp [UopFormat.Statement, encodeUop, formatOf]
theorem UopFormat.ctrgenT (w : Width) : UopFormat.Statement (.ctrgenT w) := by simp [UopFormat.Statement, encodeUop, formatOf]
theorem UopFormat.xorin (w : Width) : UopFormat.Statement (.xorin w) := by simp [UopFormat.Statement, encodeUop, formatOf]
theorem UopFormat.xorinT (w : Width) : UopFormat.Statement (.xorinT w) := by simp [UopFormat.Statement, encodeUop, formatOf]
theorem UopFormat.kcall (w : Width) : UopFormat.Statement (.kcall w) := by simp [UopFormat.Statement, encodeUop, formatOf]
theorem UopFormat.kcallT (w : Width) : UopFormat.Statement (.kcallT w) := by simp [UopFormat.Statement, encodeUop, formatOf]
theorem UopFormat.xorout (w : Width) : UopFormat.Statement (.xorout w) := by simp [UopFormat.Statement, encodeUop, formatOf]
theorem UopFormat.xoroutT (w : Width) : UopFormat.Statement (.xoroutT w) := by simp [UopFormat.Statement, encodeUop, formatOf]
theorem UopFormat.stout (w : Width) : UopFormat.Statement (.stout w) := by simp [UopFormat.Statement, encodeUop, formatOf]
theorem UopFormat.stoutT (w : Width) : UopFormat.Statement (.stoutT w) := by simp [UopFormat.Statement, encodeUop, formatOf]
theorem UopFormat.adv (w : Width) : UopFormat.Statement (.adv w) := by simp [UopFormat.Statement, encodeUop, formatOf]
theorem UopFormat.advT (w : Width) : UopFormat.Statement (.advT w) := by simp [UopFormat.Statement, encodeUop, formatOf]
theorem UopFormat.finish : UopFormat.Statement .finish := by simp [UopFormat.Statement, encodeUop, formatOf]
theorem UopFormat.fault : UopFormat.Statement .fault := by simp [UopFormat.Statement, encodeUop, formatOf]

end Sys2Proof.Laws
end

