-- ==== Sys2Proof/Laws/Step.lean ====
section
/-! SUPPORT. What a step can do, said once, and the induction over it. -/

namespace Sys2Proof.Machine

/-- Everything a step of `s` can have done from `u`, which is `s` with an action taken off the host's queue or with the
same queue: it ran the micro-operation in UOP or an operation of the host, served an access of the host, or did
nothing. -/
inductive StepTo (s u t : State) : Prop where
  | uop (i : Instr) (hd : decodeUop u.uop = .ok i) (h : exec i u = .next t)
  | process (d : Descriptor) (hf : fetch s = .run (.process d) u) (h : execProcess d u = .next t)
  | start (hf : fetch s = .run .start u) (h : t = startCommand u)
  | srst (hf : fetch s = .run .srst u) (h : t = resetInstance u)
  | write (o b : Nat) (v : BitVec 64) (h : t = hostWrite u o b v)
  | read (v : BitVec 64) (h : t = { u with hostData := v })
  | nothing (h : t = u)
  | store (a : Addr) (v : Byte) (hb : u.busy = true → commandOwns u a = false)
      (h : t = { u with mem := Memory.write u.mem a.toNat v })

theorem step_run {s u : State} {i : Instr} (h : fetch s = .run i u) : step s = exec i u := by simp [step, h]

theorem step_host {s u : State} (h : fetch s = .host u) : step s = .next u := by simp [step, h]

theorem fetch_nil {s : State} (h : s.hostq = []) : fetch s = fetchUop s := by simp [fetch, h]

theorem fetch_cons {s : State} {e : HostEvent} {q : List HostEvent} (h : s.hostq = e :: q) :
    fetch s = fetchHost e { s with hostq := q } := by simp [fetch, h]

/-- What stands next where the host stores to memory: the command's bytes are asked of the state as it is. -/
theorem fetch_store {s : State} {a : Addr} {v : Byte} {q : List HostEvent} (h : s.hostq = .store a v :: q) :
    fetch s = if (s.busy && commandOwns s a) = true then .refuse (.hostStoreDuringCommand a)
      else .host { s with hostq := q, mem := Memory.write s.mem a.toNat v } := by
  rw [fetch_cons h]; rfl

/-- A step of the sequencer, when the host has nothing pending. -/
theorem step_uop {s : State} {i : Instr} (hq : s.hostq = []) (hd : decodeUopFor s.cfg s.uop = .ok i) :
    step s = exec i s :=
  step_run (by simp [fetch_nil hq, fetchUop, hd])

/-- The micro-operation in a position of the transition table is one the instance has. -/
theorem instanceHas_position {s : State} {i : Instr} (h : PositionInv s i) : instanceHas s.cfg i = true := by
  have hb : ∀ w, BatchPosition s w → s.cfg.kw.contains w = true := fun w hw => by
    have := hw.1
    simp only [batchSet, List.mem_filter] at this
    exact List.contains_iff_mem.mpr this.1
  have ht : ∀ w, TailPosition s w → (w == narrowest s.cfg) = true := fun w hw => by simp [hw.1]
  cases i with
  | process d => exact h.elim
  | start => exact h.elim
  | srst => exact h.elim
  | idle | setup | arb | tadj | finish | fault => rfl
  | ldin w => exact hb w h.1
  | ldinT w => exact ht w h.1
  | ctrgen w => exact hb w h.1
  | ctrgenT w => exact ht w h.1
  | xorin w => exact hb w h.1
  | xorinT w => exact ht w h.1
  | kcall w => exact hb w h
  | kcallT w => exact ht w h
  | xorout w => exact hb w h.1
  | xoroutT w => exact ht w h.1
  | stout w => exact hb w h
  | stoutT w => exact ht w h
  | adv w => exact hb w h
  | advT w => exact ht w h

/-- A step of the sequencer in a position of its transition table, when the host has nothing pending. -/
theorem step_position {s : State} {i : Instr} (hq : s.hostq = []) (hd : decodeUop s.uop = .ok i)
    (hp : PositionInv s i) : step s = exec i s :=
  step_uop hq (decodeUopFor_ok.mpr ⟨hd, instanceHas_position hp⟩)

/-- The successor a micro-operation leaves is the one the next step decodes. -/
theorem decodeUop_setUop {i : Instr} {u : BitVec 8} (h : encodeUop i = some u) (s : State) :
    decodeUop (setUop s i).uop = .ok i := by
  rw [setUop_uop, h]
  exact decodeUop_encodeUop h

/-- The successor is the one the next step's instance decodes, where the instance has it. -/
theorem decodeUopFor_setUop {i : Instr} {u : BitVec 8} {s : State} (h : encodeUop i = some u)
    (hi : instanceHas s.cfg i = true) : decodeUopFor (setUop s i).cfg (setUop s i).uop = .ok i :=
  decodeUopFor_ok.mpr ⟨decodeUop_setUop h s, by simpa using hi⟩

/-- One step of a run. -/
theorem run_succ {n : Nat} {s t : State} (h : step s = .next t) :
    Host.Core.run Sys2Proof.core (n + 1) s = Host.Core.run Sys2Proof.core n t := by
  simp only [Host.Core.run, show Sys2Proof.core.step s = .next t from h]

/-- A step whose turn is the sequencer's. -/
theorem fetchUop_next {s u t : State} (hf : fetch s = fetchUop u) (h : step s = .next t) : StepTo s u t := by
  unfold step at h
  rw [hf] at h
  unfold fetchUop at h
  cases hd : decodeUopFor u.cfg u.uop with
  | ok i => simp only [hd] at h; exact .uop i (decodeUopFor_ok.mp hd).1 h
  | error e => simp only [hd] at h; cases h

/-- The step, inverted. -/
theorem step_next {s t : State} (h : step s = .next t) : ∃ q, StepTo s { s with hostq := q } t := by
  cases hq : s.hostq with
  | nil =>
    exact ⟨s.hostq, fetchUop_next (u := s) (by simp [fetch, hq]) h⟩
  | cons e q =>
    refine ⟨q, ?_⟩
    have hf : fetch s = fetchHost e { s with hostq := q } := by simp [fetch, hq]
    have h0 := h
    unfold step at h
    rw [hf] at h
    generalize { s with hostq := q } = u at h hf
    cases e with
    | turn => exact fetchUop_next hf h0
    | command d => exact .process d hf h
    | resetInput => exact .srst hf (by simpa [fetchHost, exec, execSrst] using h.symm)
    | write o b v =>
      simp only [fetchHost] at h hf
      by_cases hc : o = ctrlOffset ∧ b = 32
      · rw [if_pos hc] at h hf
        unfold decodeDoorbell at h hf
        by_cases h1 : (v.setWidth 32).getLsbD 1 = true
        · simp only [h1, if_true] at h hf
          exact .srst hf (by simpa [exec, execSrst] using h.symm)
        · rw [if_neg h1] at h hf
          by_cases h2 : (v.setWidth 32).getLsbD 0 = true
          · simp only [h2, if_true] at h hf
            exact .start hf (by simpa [exec, execStart] using h.symm)
          · rw [if_neg h2] at h
            exact .nothing (by simpa using h.symm)
      · rw [if_neg hc] at h
        exact .write o b v (by simpa using h.symm)
    | read o b => exact .read _ (by simpa [fetchHost] using h.symm)
    | store a v =>
      simp only [fetchHost] at h
      by_cases hb : (u.busy && commandOwns u a) = true
      · rw [if_pos hb] at h; simp at h
      · rw [if_neg hb] at h
        exact .store a v (by simpa using hb) (by simpa using h.symm)

/-- PROCESS is seven operand writes and START. -/
theorem execProcess_next {d : Descriptor} {s t : State} (h : execProcess d s = .next t) {I : State → Prop}
    (hw : ∀ s o b v, I s → I (hostWrite s o b v)) (hst : ∀ s, I s → I (startCommand s)) (hi : I s) : I t := by
  simp only [execProcess, Host.Outcome.next.injEq] at h
  subst h
  exact hst _ (hw _ _ _ _ (hw _ _ _ _ (hw _ _ _ _ (hw _ _ _ _ (hw _ _ _ _ (hw _ _ _ _ (hw _ _ _ _ hi)))))))

/-- A property that every micro-operation, host access, START and reset keeps is kept by every step. -/
theorem step_invariant {I : State → Prop}
    (hq : ∀ s q, I s → I { s with hostq := q })
    (hu : ∀ s t i, I s → decodeUop s.uop = .ok i → exec i s = .next t → I t)
    (hw : ∀ s o b v, I s → I (hostWrite s o b v))
    (hst : ∀ s, I s → I (startCommand s))
    (hr : ∀ s, I s → I (resetInstance s))
    (hd : ∀ s v, I s → I { s with hostData := v })
    (hm : ∀ s (a : Addr) v, I s → I { s with mem := Memory.write s.mem a.toNat v })
    {s t : State} (hi : I s) (h : step s = .next t) : I t := by
  obtain ⟨q, h⟩ := step_next h
  have hi' := hq s q hi
  generalize { s with hostq := q } = u at h hi'
  cases h with
  | uop i hd h => exact hu u t i hi' hd h
  | process d hf h => exact execProcess_next h hw hst hi'
  | start hf h => subst h; exact hst u hi'
  | srst hf h => subst h; exact hr u hi'
  | write o b v h => subst h; exact hw u o b v hi'
  | read v h => subst h; exact hd u v hi'
  | nothing h => subst h; exact hi'
  | store a v hb h => subst h; exact hm u a v hi'


/-! ### The micro-operations, inverted -/

/-- The successor of a data micro-operation (41_arbiter.md R143). -/
def dataSuccessor (s : State) : Instr → Option Instr
  | .process _ => none
  | .start => none
  | .srst => none
  | .idle => none
  | .setup => none
  | .arb => none
  | .tadj => none
  | .ldin w => some (afterLoad s w)
  | .ldinT w => some (afterLoadT s w)
  | .ctrgen w => some (afterLoad s w)
  | .ctrgenT w => some (afterLoadT s w)
  | .xorin w => some (.kcall w)
  | .xorinT w => some (.kcallT w)
  | .kcall w => some (if xorOut s then .xorout w else .stout w)
  | .kcallT w => some (if xorOut s then .xoroutT w else .stoutT w)
  | .xorout w => some (.stout w)
  | .xoroutT w => some (.stoutT w)
  | .stout w => some (.adv w)
  | .stoutT w => some (.advT w)
  | .adv _ => none
  | .advT _ => none
  | .finish => none
  | .fault => none

/-- Everything a micro-operation that answers a next state can have done. -/
inductive UopTo (s t : State) : Instr → Prop where
  | idle (h : t = s) : UopTo s t .idle
  | fault (h : t = s) : UopTo s t .fault
  | setupFault (c : Cause) (hf : setupFault (latch s) = some c) (h : t = raiseFault (latch s) c 0) : UopTo s t .setup
  | setup (hf : Machine.setupFault (latch s) = none) (h : t = setUop (initCommand (latch s)) .arb) : UopTo s t .setup
  | arbBatch (w : Width) (hw : arbBatch s = some w)
      (h : t = setUop (setW s w) (if flagC s then .ctrgen w else .ldin w)) : UopTo s t .arb
  | arbTail (hw : Machine.arbBatch s = none) (hl : blockBytes s.cfg ≤ s.lenRem.toNat)
      (h : t = setUop (setW s (narrowest s.cfg)) (if s.tailMode = false then .tadj
        else if flagC s then .ctrgenT (narrowest s.cfg) else .ldinT (narrowest s.cfg))) : UopTo s t .arb
  | arbFinish (hw : Machine.arbBatch s = none) (hl : s.lenRem.toNat < blockBytes s.cfg) (h : t = setUop s .finish) :
      UopTo s t .arb
  | tadj (h : execTadj s = .next t) : UopTo s t .tadj
  | data (i succ : Instr) (hs : dataSuccessor s i = some succ) (h : DataEnd s succ t) : UopTo s t i
  | adv (w : Width) (h : t = setUop (advance s w.regs (w.regs * vecBytes)) .arb) : UopTo s t (.adv w)
  | advT (w : Width) (h : t = setUop (advance s 1 (blockBytes s.cfg)) .arb) : UopTo s t (.advT w)
  | finish (h : t = { s with remainder := s.lenRem, busy := false, done := true, uop := 0x00#8 }) : UopTo s t .finish

/-- The micro-operation in UOP, inverted. -/
theorem uop_next {i : Instr} {s t : State} (hd : decodeUop s.uop = .ok i) (h : exec i s = .next t) : UopTo s t i := by
  have he := encodeUop_decodeUop hd
  cases i with
  | process d => cases he
  | start => cases he
  | srst => cases he
  | idle => exact .idle (by cases h; rfl)
  | fault => exact .fault (by cases h; rfl)
  | setup =>
    rcases execSetup_next h with ⟨c, hc, h⟩ | ⟨hc, h⟩
    · exact .setupFault c hc h
    · exact .setup hc h
  | arb =>
    rcases execArb_next h with ⟨c, hc, h⟩ | ⟨hc, hl, h⟩ | ⟨hc, hl, h⟩
    · exact .arbBatch c hc h
    · exact .arbTail hc hl h
    · exact .arbFinish hc hl h
  | tadj => exact .tadj h
  | ldin w => exact .data _ _ rfl (execLdin_next h)
  | ldinT w => exact .data _ _ rfl (execLdinT_next h)
  | ctrgen w => exact .data _ _ rfl (execCtrgen_next h)
  | ctrgenT w => exact .data _ _ rfl (execCtrgenT_next h)
  | xorin w => exact .data _ _ rfl (execXorin_next h)
  | xorinT w => exact .data _ _ rfl (execXorinT_next h)
  | kcall w => exact .data _ _ rfl (execKcall_next h)
  | kcallT w => exact .data _ _ rfl (execKcallT_next h)
  | xorout w => exact .data _ _ rfl (execXorout_next h)
  | xoroutT w => exact .data _ _ rfl (execXoroutT_next h)
  | stout w => exact .data _ _ rfl (execStout_next h)
  | stoutT w => exact .data _ _ rfl (execStoutT_next h)
  | adv w => exact .adv w (by cases h; rfl)
  | advT w => exact .advT w (by cases h; rfl)
  | finish => exact .finish (by cases h; rfl)

end Sys2Proof.Machine
end

