-- ==== Sys2Proof/Tests/Slice0.lean ====
section
/-! SUPPORT. Tests: WellFormed refuses what the spec does not admit, the decoder reads the words of the spec, one-step
results with the values of 95_test_vectors.md, and a witness for every statement that has hypotheses. -/

namespace Sys2Proof.Tests

-- One test after another: each kernel evaluation would otherwise hold a thread of its own while it waits.
set_option Elab.async false

open Sys2Proof.Machine

/-! ### Helpers -/

/-- An instance of 95_test_vectors.md section 0: `ASSERT_EN = 1`, `CTR8W = 4`, `CR_POLICY = compose`. -/
def cfg (b : BlockSize) (kw : List Width) (k : KernelFamily) : Config :=
  { block := b, kw := kw, assertEn := true, ctr8w8 := false, crPolicy := .compose, kernel := k }

/-- `B = 16`, `KW = [6,2]`, kernel KA. -/
def c16 : Config := cfg .b16 [.w6, .w2] .ka

/-- `B = 8`, `KW = [6,2]`, kernel KA. -/
def c8 : Config := cfg .b8 [.w6, .w2] .ka

/-- Bytes from numbers. -/
def bytes (l : List Nat) : List Byte := l.map (BitVec.ofNat 8)

/-- Memory with the bytes placed at an address. -/
def put (m : Memory) (a : Nat) (l : List Nat) : Memory := storeBytes m (BitVec.ofNat 64 a) (bytes l)

/-- `n` bytes counting up from `a`. -/
def up (a n : Nat) : List Nat := (List.range n).map (a + ·)

/-- A command in progress: the buffers of 95 section 0, forward strides. -/
def busy (c : Config) (m : Memory) : State :=
  { State.resetOf c with
    sk := 0x8000, rnd := 1, inCur := 0x1000, xorCur := 0x3000, outCur := 0x2000
    inStr := 16, xorStr := 16, outStr := 16, lenRem := 48, f := 0x10, busy := true, mem := m }

/-- Registers `0 .. n-1` filled with the bytes. -/
def fill (s : State) (l : List (List Nat)) : State :=
  { s with vr := Vector.ofFn fun i => regOfBytes (bytes (l.getD i.val [])) }

/-- What a step that answers a next state shows. -/
def sees {α : Type} (o : Host.Outcome State Fault Refusal) (f : State → α) : Option α :=
  match o with
  | .next s => some (f s)
  | .fault _ => none
  | .refused _ => none

/-- Register `i` as numbers. -/
def reg (s : State) (i : Nat) : List Nat := (regSlice (vreg s i) 0 16).map BitVec.toNat

/-- Memory as numbers. -/
def mem (s : State) (a n : Nat) : List Nat := (bytesAt s.mem (BitVec.ofNat 64 a) n).map BitVec.toNat

/-- The command `PROCESS 0x8000, 1, 0x1000, x, 0x2000, l, f`. -/
def cmd (x l f : Nat) : Descriptor :=
  { subkeys := 0x8000, rounds := 1, inPtr := 0x1000, xorPtr := BitVec.ofNat 64 x, outPtr := 0x2000
    length := BitVec.ofNat 64 l, flags := BitVec.ofNat 32 f }

/-- A started command of `cmd` before its SETUP. -/
def started (c : Config) (x l f : Nat) : State :=
  { State.resetOf c with
    subkeys := 0x8000, rounds := 1, inPtr := 0x1000, xorPtr := BitVec.ofNat 64 x, outPtr := 0x2000
    length := BitVec.ofNat 64 l, flags := BitVec.ofNat 32 f, busy := true, uop := 0x10 }

/-- A faulted instance after V-BUS. -/
def faulted : State :=
  { busy c16 [] with busy := false, fault := true, cause := 6, fAddr := 0x2010, uop := 0xF0, lenRem := 32 }

/-! ### WellFormed and the canonical form -/

theorem test_wf_reserved_flag : Instr.wellFormed c16 (.process (cmd 0 32 0x20)) = false := by decide
theorem test_wf_batch_width : Instr.wellFormed c16 (.ldin .w4) = false := by decide
theorem test_wf_tail_kernel_is_no_batch : Instr.wellFormed (cfg .b16 [.w6, .w1] .kx) (.ldin .w1) = false := by decide
theorem test_wf_ctrgen_width : Instr.wellFormed c16 (.ctrgen .w1) = false := by decide
theorem test_wf_xorin_width : Instr.wellFormed c16 (.xorin .w1) = false := by decide
theorem test_wf_kcall_width : Instr.wellFormed c16 (.kcall .w1) = false := by decide
theorem test_wf_xorout_width : Instr.wellFormed c16 (.xorout .w4) = false := by decide
theorem test_wf_stout_width : Instr.wellFormed c16 (.stout .w4) = false := by decide
theorem test_wf_adv_width : Instr.wellFormed c16 (.adv .w4) = false := by decide
theorem test_wf_tail_widths : ([Instr.ldinT .w6, .ctrgenT .w6, .xorinT .w1, .kcallT .w4, .xoroutT .w6, .stoutT .w1,
    .advT .w6].map (Instr.wellFormed c16)) = [false, false, false, false, false, false, false] := by decide
theorem test_wf_accepts : ([Instr.process (cmd 0 32 0x1F), .ldin .w6, .ldin .w2, .ldinT .w2, .start, .fault].map
    (Instr.wellFormed c16)) = [true, true, true, true, true, true] := by decide
theorem test_wf_batch_of_one_register : Instr.wellFormed (cfg .b8 [.w2, .w1] .kx) (.ldin .w1) = true := by decide
theorem test_wf_no_width : Config.wf (cfg .b16 [] .kx) = false := by decide
theorem test_wf_four_widths : Config.wf (cfg .b16 [.w6, .w4, .w2, .w1] .kx) = false := by decide
theorem test_wf_rising_widths : Config.wf (cfg .b16 [.w2, .w6] .kx) = false := by decide
theorem test_wf_equal_widths : Config.wf (cfg .b16 [.w2, .w2] .kx) = false := by decide
theorem test_memory_order : Memory.wf [(2, 1#8), (1, 1#8)] = false := by decide
theorem test_memory_twice : Memory.wf [(1, 1#8), (1, 2#8)] = false := by decide
theorem test_memory_unlisted_value : Memory.wf [(1, 0#8)] = false := by decide
theorem test_memory_range : Memory.wf [(2 ^ 64, 1#8)] = false := by decide
theorem test_memory_erases : Memory.write (Memory.write [] 7 5#8) 7 0#8 = [] := by decide

/-! ### Decoding: words written out from the encodings of 30_encoding.md R99, R105 to R108 -/

theorem test_decode_idle : decodeUop 0b0000_0_000#8 = .ok .idle := by rfl
theorem test_decode_setup : decodeUop 0b0001_0_000#8 = .ok .setup := by rfl
theorem test_decode_arb : decodeUop 0b0010_0_000#8 = .ok .arb := by rfl
theorem test_decode_tadj : decodeUop 0b0011_0_000#8 = .ok .tadj := by rfl
theorem test_decode_ldin : decodeUop 0b0100_0_001#8 = .ok (.ldin .w1) := by rfl
theorem test_decode_ldin_t : decodeUop 0b0100_1_110#8 = .ok (.ldinT .w6) := by rfl
theorem test_decode_ctrgen : decodeUop 0b0101_0_110#8 = .ok (.ctrgen .w6) := by rfl
theorem test_decode_ctrgen_t : decodeUop 0b0101_1_001#8 = .ok (.ctrgenT .w1) := by rfl
theorem test_decode_xorin : decodeUop 0b0110_0_010#8 = .ok (.xorin .w2) := by rfl
theorem test_decode_xorin_t : decodeUop 0b0110_1_010#8 = .ok (.xorinT .w2) := by rfl
theorem test_decode_kcall : decodeUop 0b0111_0_100#8 = .ok (.kcall .w4) := by rfl
theorem test_decode_kcall_t : decodeUop 0b0111_1_001#8 = .ok (.kcallT .w1) := by rfl
theorem test_decode_xorout : decodeUop 0b1000_0_110#8 = .ok (.xorout .w6) := by rfl
theorem test_decode_xorout_t : decodeUop 0b1000_1_010#8 = .ok (.xoroutT .w2) := by rfl
theorem test_decode_stout : decodeUop 0b1001_0_010#8 = .ok (.stout .w2) := by rfl
theorem test_decode_stout_t : decodeUop 0b1001_1_001#8 = .ok (.stoutT .w1) := by rfl
theorem test_decode_adv : decodeUop 0b1010_0_110#8 = .ok (.adv .w6) := by rfl
theorem test_decode_adv_t : decodeUop 0b1010_1_001#8 = .ok (.advT .w1) := by rfl
theorem test_decode_finish : decodeUop 0b1011_0_000#8 = .ok .finish := by rfl
theorem test_decode_fault : decodeUop 0b1111_0_000#8 = .ok .fault := by rfl
theorem test_decode_reserved_op : decodeUop 0xD6#8 = .error .reservedOp := by rfl
theorem test_decode_reserved_width : decodeUop 0x43#8 = .error .reservedWidth := by rfl
theorem test_decode_foreign_widths : ([0x41, 0x4E, 0xA4, 0x46, 0x4A, 0xB0].map fun u => (decodeUopFor c16 u).isOk) =
    [false, false, false, true, true, true] := by decide
theorem test_decode_control_fields : decodeUop 0x28#8 = .error .controlFields := by rfl
theorem test_decode_start : decodeDoorbell 0xFFFFFFFD#32 = .ok .start := by rfl
theorem test_decode_srst : decodeDoorbell 0x00000002#32 = .ok .srst := by rfl
theorem test_decode_srst_wins : decodeDoorbell 0x00000003#32 = .ok .srst := by rfl
theorem test_decode_no_doorbell : decodeDoorbell 0xFFFFFFFC#32 = .error .noDoorbell := by rfl
/-- V-ENC-PROCESS: `PROCESS 0x8000, 10, 0x1000, 0x3000, 0x2000, 149, {P}`, each register in its own bytes. -/
theorem test_decode_process : decode .cmd (bytes
    ([0x10, 0, 0, 0] ++ [0x00, 0x80, 0, 0, 0, 0, 0, 0] ++ [0x0A, 0, 0, 0] ++ [0x00, 0x10, 0, 0, 0, 0, 0, 0]
      ++ [0x00, 0x30, 0, 0, 0, 0, 0, 0] ++ [0x00, 0x20, 0, 0, 0, 0, 0, 0] ++ [0x95, 0, 0, 0, 0, 0, 0, 0] ++ [0x77]))
    = .ok (.process { subkeys := 0x8000, rounds := 10, inPtr := 0x1000, xorPtr := 0x3000, outPtr := 0x2000
                      length := 149, flags := 0x10 }, [0x77#8]) := by rfl
theorem test_decode_too_short : decode .db (bytes [2, 0, 0]) = .error .tooShort := by rfl
theorem test_table_word_process : decodeTableWord 32 0x1F = some (.process
    { subkeys := 0, rounds := 0, inPtr := 0, xorPtr := 0, outPtr := 0, length := 0, flags := 0x1F }) := by rfl
theorem test_table_word_start : decodeTableWord 32 0xFFFFFFFD = some .start := by rfl
theorem test_table_word_uop : decodeTableWord 8 0x99 = some (.stoutT .w1) := by rfl
theorem test_fetch_word_uop : fetch (State.reset.withFetchWord 8 0x99) = .run (.stoutT .w1) { State.reset with uop := 0x99 } := by
  rfl
theorem test_fetch_word_srst : fetch (State.reset.withFetchWord 32 2) = .run .srst State.reset := by rfl
theorem test_fetch_word_process : fetch (State.reset.withFetchWord 32 0x10) = .run (.process
    { subkeys := 0, rounds := 0, inPtr := 0, xorPtr := 0, outPtr := 0, length := 0, flags := 0x10 }) State.reset := by rfl

/-! ### The host's operations and the composed registers -/

/-- The CONFIG values of 95 section 0. -/
theorem test_config_words : [configWord (cfg .b16 [.w6, .w1] .kx), configWord (cfg .b16 [.w6, .w2] .kx),
    configWord (cfg .b16 [.w4, .w2, .w1] .kx), configWord { cfg .b8 [.w6, .w2] .kx with ctr8w8 := true },
    configWord (cfg .b8 [.w2] .kx)] = [0x41C, 0x42C, 0x4A8, 0xC2D, 0x405] := by decide +kernel
/-- V-ENC-STRIDES, the third value. -/
theorem test_strides_word : stridesWord { busy c8 [] with inStr := -8, xorStr := 0, outStr := -8 } = 0x00F800F8 := by
  decide +kernel
/-- V-FAULT-SETUP, START right after reset: the doorbell is accepted. -/
theorem test_start : sees (exec .start (State.resetOf c16)) (fun t => (t.uop, statusWord t)) =
    some (0x10#8, 0x00001001#32) := by decide +kernel
/-- V-FAULT-STICKY: START has no effect. -/
theorem test_start_dropped_faulted : sees (exec .start faulted) statusWord = some 0x0000F064 := by decide +kernel
/-- V-ENC-PROCESS. -/
theorem test_process : sees (exec (.process (cmd 0x3000 149 0x10)) (State.resetOf c16))
    (fun t => (t.inPtr, t.xorPtr, t.length, t.flags, t.busy)) =
    some (0x1000#64, 0x3000#64, 149#64, 0x10#32, true) := by decide +kernel
/-- P5: a command in the fault state writes its operands and is dropped. -/
theorem test_process_faulted : sees (exec (.process (cmd 0 32 0x10)) faulted) (fun t => (t.length, statusWord t)) =
    some (32#64, 0x0000F064#32) := by decide +kernel
/-- V-FAULT-STICKY: SRST. -/
theorem test_srst : sees (exec .srst faulted) (fun t => (statusWord t, t.fAddr, t.lenRem, t.fault)) =
    some (0#32, 0#64, 0#64, false) := by decide +kernel
/-- V-RESET: memory stays. -/
theorem test_srst_keeps_memory : sees (exec .srst (busy c16 (put [] 0x2000 [1, 2]))) (fun t => mem t 0x2000 3) =
    some [1, 2, 0] := by decide +kernel
theorem test_idle : sees (exec .idle (State.resetOf c16)) statusWord = some 0 := by decide +kernel
theorem test_fault : sees (exec .fault faulted) statusWord = some 0x0000F064 := by decide +kernel
/-- V-BUSY-WRITE. -/
theorem test_busy_write : sees (step { started c16 0 32 0x10 with hostq := [.write 0x10 64 0x5000] }) (·.inPtr) =
    some 0x1000 := by decide +kernel

/-! ### SETUP, ARB, TADJ, ADV, FINISH -/

/-- V-SETUP, the row `{R,P}` with a null mask. -/
theorem test_setup : sees (exec .setup (started c16 0 149 0x18)) (fun t =>
    (t.inCur, t.xorCur, t.outCur, stridesWord t, t.uop)) =
    some (0x1085#64, 0x0085#64, 0x2085#64, 0x00F000F0#32, 0x20#8) := by decide +kernel
/-- V-FAULT-SETUP: LEN_SHORT before BAD_FLAGS. -/
theorem test_setup_fault : sees (exec .setup (started c16 0 15 0x20)) (fun t => (statusWord t, t.fAddr)) =
    some (0x0000F044#32, 0#64) := by decide +kernel
/-- P1: 149 bytes left, `KW = [6,2]`. -/
theorem test_arb_batch : sees (exec .arb { busy c16 [] with lenRem := 149 }) (fun t => (t.w, t.uop)) =
    some (6#3, 0x46#8) := by decide +kernel
/-- P1: 21 bytes left: the tail. -/
theorem test_arb_tail : sees (exec .arb { busy c16 [] with lenRem := 21 }) (fun t => (t.w, t.uop)) =
    some (2#3, 0x30#8) := by decide +kernel
/-- P2: after ADV 2 the cursors `0x0FFB`, ...; TADJ. -/
theorem test_tadj : sees (exec .tadj { busy c8 [] with
    inCur := 0x0FFB, xorCur := 0x2FFB, outCur := 0x1FFB, inStr := -16, xorStr := -16, outStr := -16 })
    (fun t => (t.inCur, t.xorCur, t.outCur, stridesWord t, t.tailMode, t.uop)) =
    some (0x1003#64, 0x3003#64, 0x2003#64, 0x00F8F8F8#32, true, 0x4A#8) := by decide +kernel
/-- V-CR8: a frozen counter cursor and its stride stay. -/
theorem test_tadj_frozen : sees (exec .tadj { busy c8 [] with f := 0x19, inCur := 0x1018, inStr := 0 })
    (fun t => (t.inCur, t.inStr, t.uop)) = some (0x1018#64, 0#64, 0x5A#8) := by decide +kernel
/-- P2: ADV 2 from `0x101B`, ... . -/
theorem test_adv : sees (exec (.adv .w2) { busy c8 [] with
    inCur := 0x101B, xorCur := 0x301B, outCur := 0x201B, inStr := -16, xorStr := -16, outStr := -16, lenRem := 43 })
    (fun t => (t.inCur, t.xorCur, t.outCur, t.lenRem, t.uop)) =
    some (0x0FFB#64, 0x2FFB#64, 0x1FFB#64, 11#64, 0x20#8) := by decide +kernel
/-- P2: ADV.T 2 from `0x1003`, ... . -/
theorem test_adv_t : sees (exec (.advT .w2) { busy c8 [] with
    inCur := 0x1003, xorCur := 0x3003, outCur := 0x2003, inStr := -8, xorStr := -8, outStr := -8, lenRem := 11 })
    (fun t => (t.inCur, t.xorCur, t.outCur, t.lenRem, t.uop)) =
    some (0x0FFB#64, 0x2FFB#64, 0x1FFB#64, 3#64, 0x20#8) := by decide +kernel
/-- S1: the end state. -/
theorem test_finish : sees (exec .finish { busy c16 [] with tailMode := true, lenRem := 1, uop := 0xB0 })
    (fun t => (t.remainder, statusWord t)) = some (1#64, 0x0000000A#32) := by decide +kernel

/-! ### The data micro-operations -/

/-- V-PAD16: the second unit of the batch. -/
theorem test_ldin : sees (exec (.ldin .w2) (busy c16 (put [] 0x1000 (up 0 48)))) (fun t => (reg t 1, t.uop)) =
    some (up 16 16, 0x72#8) := by decide +kernel
/-- V-BUS: the read at `0x1010` refused. -/
theorem test_ldin_fault : sees (exec (.ldin .w2)
    { busy c16 (put [] 0x1000 (up 0 32)) with port := [⟨0x1010, 16, .refuseRead⟩] })
    (fun t => (statusWord t, t.fAddr, reg t 0, reg t 1)) =
    some (0x0000F064#32, 0x1010#64, up 0 16, List.replicate 16 0) := by decide +kernel
/-- V-B8-FWD: the tail's registers. -/
theorem test_ldin_t : sees (exec (.ldinT .w2)
    (fill { busy c8 (put [] 0x1000 (up 0 43)) with inCur := 0x1020 } [up 1 16, up 1 16]))
    (fun t => (reg t 0, reg t 1, t.uop)) =
    some (up 0x20 8 ++ List.replicate 8 0, List.replicate 16 0, 0x7A#8) := by decide +kernel
/-- S2: lane 5 of the batch and the counter written back. -/
theorem test_ctrgen : sees (exec (.ctrgen .w6) { busy c16 (put [] 0x1000 (List.replicate 15 0 ++ [0xFE])) with f := 0x11 })
    (fun t => (reg t 5, mem t 0x1000 16)) =
    some (List.replicate 14 0 ++ [1, 3], List.replicate 14 0 ++ [1, 4]) := by decide +kernel
/-- V-CTR8, `CTR8W = 4`: the low four bytes wrap inside the batch. -/
theorem test_ctrgen_b8 : sees (exec (.ctrgen .w2) (busy c8 (put [] 0x1000 [1, 2, 3, 4, 0xFF, 0xFF, 0xFF, 0xFD])))
    (fun t => (reg t 1, mem t 0x1000 8)) =
    some ([1, 2, 3, 4, 0xFF, 0xFF, 0xFF, 0xFF, 1, 2, 3, 4, 0, 0, 0, 0], [1, 2, 3, 4, 0, 0, 0, 1]) := by decide +kernel
/-- V-CTRADD, `CTR8W = 8`: the carry leaves the low four bytes. -/
theorem test_ctrgen_t : sees (exec (.ctrgenT .w2)
    (busy { c8 with ctr8w8 := true } (put [] 0x1000 [1, 2, 3, 4, 0xFF, 0xFF, 0xFF, 0xFF])))
    (fun t => (reg t 0, reg t 1, mem t 0x1000 8)) =
    some ([1, 2, 3, 4, 0xFF, 0xFF, 0xFF, 0xFF] ++ List.replicate 8 0, List.replicate 16 0, [1, 2, 3, 5, 0, 0, 0, 0]) := by
  decide +kernel
/-- V-CTRADD, `B = 16`: a carry through eight bytes. -/
theorem test_ctr_add : (ctrAdd c16 (bytes (List.replicate 8 0 ++ List.replicate 8 0xFF)) 1) =
    bytes (List.replicate 7 0 ++ [1] ++ List.replicate 8 0) := by decide +kernel
/-- P2: the first batch's registers after the mask are all `0x80`. -/
theorem test_xorin : sees (exec (.xorin .w2)
    (fill { busy c8 (put [] 0x3000 (up 0x8B 32)) with f := 0x1C } [up 0x0B 16, up 0x1B 16])) (fun t => (reg t 1, t.uop)) =
    some (List.replicate 16 0x80, 0x72#8) := by decide +kernel
/-- P2: the tail's block, the padding untouched. -/
theorem test_xorin_t : sees (exec (.xorinT .w2)
    (fill { busy c8 (put [] 0x3000 (up 0x83 16)) with f := 0x1C } [up 3 8 ++ up 0x40 8])) (fun t => (reg t 0, t.uop)) =
    some (List.replicate 8 0x80 ++ up 0x40 8, 0x7A#8) := by decide +kernel
/-- V-B8-FWD: KA on both lanes; the successor with a mask on output. -/
theorem test_kcall : sees (exec (.kcall .w2)
    (fill (busy c8 (put [] 0x8000 (up 1 8))) [up 0 16, up 16 16])) (fun t => (reg t 1, t.uop)) =
    some ([0x11, 0x13, 0x15, 0x17, 0x19, 0x1B, 0x1D, 0x1F, 0x19, 0x1B, 0x1D, 0x1F, 0x21, 0x23, 0x25, 0x27], 0x82#8) := by
  decide +kernel
/-- S1: KX. -/
theorem test_kcall_t : sees (exec (.kcallT .w1)
    (fill { busy (cfg .b16 [.w6, .w1] .kx) (put [] 0x8000 (up 0xA0 16)) with xNull := true } [up 0 16]))
    (fun t => (reg t 0, t.uop)) = some (List.replicate 16 0xA0, 0x99#8) := by decide +kernel
/-- V-XOR-OUT: the first block. -/
theorem test_xorout : sees (exec (.xorout .w2) (fill (busy c16 (put [] 0x3000 (List.replicate 16 0x0F)))
    [[0xF1, 0x02, 0x13, 0x24, 0x35, 0x46, 0x57, 0x68, 0x79, 0x8A, 0x9B, 0xAC, 0xBD, 0xCE, 0xDF, 0xF0]]))
    (fun t => (reg t 0, t.uop)) =
    some ([0xFE, 0x0D, 0x1C, 0x2B, 0x3A, 0x49, 0x58, 0x67, 0x76, 0x85, 0x94, 0xA3, 0xB2, 0xC1, 0xD0, 0xFF], 0x92#8) := by
  decide +kernel
/-- V-CHAIN, forward: the tail's mask `30 x 16` on `32 x 16`. -/
theorem test_xorout_t : sees (exec (.xoroutT .w2) (fill (busy c16 (put [] 0x3000 (List.replicate 16 0x30)))
    [List.replicate 16 0x32])) (fun t => (reg t 0, t.uop)) = some (List.replicate 16 2, 0x9A#8) := by decide +kernel
/-- V-D: both units at one address, the last store wins. -/
theorem test_stout : sees (exec (.stout .w2) (fill { busy c16 (put [] 0x2000 (List.replicate 32 0xEE)) with outStr := 0 }
    [List.replicate 16 0x10, List.replicate 16 0x13])) (fun t => (mem t 0x2000 32, t.uop)) =
    some (List.replicate 16 0x13 ++ List.replicate 16 0xEE, 0xA2#8) := by decide +kernel
/-- V-BUS: the write at `0x2010` refused, the one before it performed. -/
theorem test_stout_fault : sees (exec (.stout .w2)
    (fill { busy c16 [] with port := [⟨0x2010, 16, .refuseWrite⟩] } [up 1 16, up 1 16]))
    (fun t => (mem t 0x2000 17, t.fAddr, t.lenRem)) = some (up 1 16 ++ [0], 0x2010#64, 48#64) := by decide +kernel
/-- V-B8-FWD: eight bytes are written. -/
theorem test_stout_t : sees (exec (.stoutT .w2) (fill { busy c8 (put [] 0x2020 (List.replicate 11 0xEE)) with outCur := 0x2020 }
    [[0x21, 0x23, 0x25, 0x27, 0x29, 0x2B, 0x2D, 0x2F] ++ up 1 8])) (fun t => (mem t 0x2020 11, t.uop)) =
    some ([0x21, 0x23, 0x25, 0x27, 0x29, 0x2B, 0x2D, 0x2F, 0xEE, 0xEE, 0xEE], 0xAA#8) := by decide +kernel
/-- Device memory has no meaning (20_memory.md R69). -/
theorem test_device : exec (.ldin .w2) { busy c16 [] with port := [⟨0x1000, 1, .device⟩] } =
    .refused (.deviceMemory 0x1000) := by rfl

/-- A word of a width the instance lacks is placed in an instance that has it (93 U45; entry 7). -/
theorem test_fetch_foreign_width : (match fetch (State.reset.withFetchWord 8 0x4A) with
    | .run i s => some (i, s.cfg.kw)
    | _ => none) = some (.ldinT .w2, [.w2]) := by decide
/-- And no step runs it in an instance that lacks it. -/
theorem test_step_foreign_width : step { State.reset with uop := 0x4A } = .fault (.reservedUop 0x4A) := by rfl
/-- `B = 8`, `R = 1`, 43 bytes at 0x1000: the processed range is `[0x1003, 0x102B)` (20_memory.md R78). -/
theorem test_store_while_busy : ([0x1002, 0x1003, 0x102A, 0x102B].map fun a =>
    (sees (step { started c8 0 43 0x18 with hostq := [.store a 7] }) fun t => mem t a.toNat 1)) =
    [some [7], none, none, some [7]] := by decide +kernel

/-! ### Witnesses: each statement's hypotheses are met, every clause of it -/

theorem witness_DoorbellWordsRing : ∃ (s : State) (q : List HostEvent),
    s.hostq = .write 0x38 32 0xFFFFFFFF :: q ∧ (0xFFFFFFFF#64).getLsbD 1 = true ∧
    (0xFFFFFFFD#64).getLsbD 1 = false ∧ (0xFFFFFFFD#64).getLsbD 0 = true ∧
    (0xFFFFFFFC#64).getLsbD 1 = false ∧ (0xFFFFFFFC#64).getLsbD 0 = false :=
  ⟨{ State.reset with hostq := [.write 0x38 32 0xFFFFFFFF] }, [], rfl, by decide⟩

theorem witness_ReservedUopWordsAreInvalid : Config.wf c16 = true := by decide

theorem witness_StepRunsTheDecodedMicroOperation :
    decodeUopFor c16 { busy c16 [] with uop := 0x46 }.uop = .ok (.ldin .w6) ∧ (busy c16 []).hostq = [] ∧
    decodeUopFor c16 (started c16 0 32 0).uop = .ok .setup ∧
    ({ started c16 0 32 0 with hostq := [.turn] } : State).hostq = .turn :: [] := by decide +kernel

theorem witness_StepRunsTheHostsOperation :
    ({ State.reset with hostq := [.command (cmd 0 32 0x10)] } : State).hostq = .command (cmd 0 32 0x10) :: [] ∧
    ({ State.reset with hostq := [.resetInput] } : State).hostq = .resetInput :: [] := ⟨rfl, rfl⟩

/-- The last byte of the destination is owned, the byte after it is not. -/
theorem witness_HostStoreRefusedOnTheCommandsBytes :
    let s := { started c16 0 40 0x10 with hostq := [.store 0x201F 1], mem := put [] 0 [1] }
    s.hostq = .store 0x201F 1 :: [] ∧ Memory.wf s.mem = true ∧ s.busy = true ∧ OwnedByte s 0x201F ∧
    ({ s with busy := false } : State).busy = false ∧ ¬OwnedByte s 0x2020 :=
  ⟨rfl, by decide +kernel, rfl, commandOwns_iff.mp (by decide +kernel), rfl,
    fun h => absurd (commandOwns_iff.mpr h) (by decide +kernel)⟩

theorem witness_HostPortAccessesWholeRegisters :
    ({ State.reset with hostq := [.read 0x80 32] } : State).hostq = .read 0x80 32 :: [] ∧
    ({ State.reset with hostq := [.write 0x38 64 1] } : State).hostq = .write 0x38 64 1 :: [] ∧
    ¬(0x38 = 0x38 ∧ 64 = 32) := by decide

theorem witness_OperandRegistersBelongToTheHost :
    let a := started c16 0 32 0x10
    let b := { a with hostq := [.turn] }
    let c := { a with hostq := [.write 0x10 64 0x5000] }
    (∃ t, step a = .next t) ∧ a.hostq = [] ∧ (∃ t, step b = .next t) ∧ b.hostq = .turn :: [] ∧
    (∃ t, step c = .next t) ∧ c.busy = true ∧ ∀ u, fetch c ≠ .run .srst u :=
  ⟨⟨_, rfl⟩, rfl, ⟨_, rfl⟩, rfl, ⟨_, rfl⟩, rfl, fun u h => by cases h⟩

theorem witness_ConfigWordFields : Config.wf (cfg .b16 [.w6, .w4, .w2] .kx) = true ∧
    Config.wf (cfg .b8 [.w1] .kx) = true := by decide

theorem witness_StridesWordShowsTheStrides :
    StrideInv { busy c8 [] with inStr := -16, xorStr := 0 } ∧
    StrideInv { busy c8 [] with inStr := -8, xorStr := 0, outStr := 8, tailMode := true } := by
  unfold StrideInv StrideLegal; decide +kernel

theorem witness_StartAcceptedOnlyWhenIdle :
    State.reset.busy = false ∧ State.reset.fault = false ∧ faulted.fault = true ∧ (busy c16 []).busy = true := by decide

theorem witness_ProcessWritesTheDescriptorAndStarts :
    State.reset.busy = false ∧ State.reset.fault = false ∧ faulted.busy = false ∧ faulted.fault = true ∧
    (busy c16 []).busy = true := by decide

theorem witness_RegistersReadZeroAfterReset : (0x00 : Nat) ≠ 0x50 ∧ (0x80 : Nat) ≠ 0x50 := by decide

theorem witness_OnlyResetLeavesTheFaultState :
    let s := { faulted with hostq := [.command (cmd 0 32 0x10)] }
    s.uop = 0xF0#8 ∧ s.fault = true ∧ s.busy = false ∧ ∃ t, step s = .next t := ⟨rfl, rfl, rfl, _, rfl⟩

theorem witness_PortRefusesWrappingAndRefusingRanges :
    2 ^ 64 < (0xFFFFFFFFFFFFFFF1#64).toNat + 16 ∧ (0xFFFFFFFFFFFFFFF0#64).toNat + 16 ≤ 2 ^ 64 ∧
    (∀ r ∈ [(⟨0x2010, 16, .refuseWrite⟩ : PortRegion)], touches r 0x2000 16 = true → r.kind ≠ .device ∧
      refuses r.kind .write = false) ∧
    (∀ r ∈ [(⟨0x2010, 16, .refuseWrite⟩ : PortRegion)], touches r 0x2001 16 = true → r.kind ≠ .device) ∧
    ∃ r ∈ [(⟨0x2010, 16, .refuseWrite⟩ : PortRegion)], touches r 0x2001 16 = true ∧ refuses r.kind .write = true := by
  decide +kernel

/-- The six checks of SETUP, in order: each at a state that passes the checks before it. -/
theorem witness_SetupChecksInOrder :
    let s := started c16 0 16 0x10
    let c := { s with cfg := { c16 with crPolicy := .refuse } }
    s.inPtr ≠ 0#64 ∧ s.subkeys ≠ 0#64 ∧ s.outPtr ≠ 0#64 ∧ blockBytes s.cfg ≤ s.length.toNat ∧
    ({ s with subkeys := 0 } : State).subkeys = 0#64 ∧ ({ s with inPtr := 0 } : State).inPtr = 0#64 ∧
    ({ s with outPtr := 0 } : State).outPtr = 0#64 ∧
    ({ s with length := 15 } : State).length.toNat < blockBytes s.cfg ∧ s.cfg.assertEn = true ∧
    ({ s with flags := 0x80000000 } : State).flags.extractLsb' 5 27 ≠ 0#27 ∧
    ({ c with flags := 0x19 } : State).flags.extractLsb' 5 27 = 0#27 ∧
    ({ c with flags := 0x19 } : State).flags.getLsbD 0 = true ∧ ({ c with flags := 0x19 } : State).flags.getLsbD 3 = true ∧
    c.cfg.crPolicy = .refuse := by decide +kernel

theorem witness_SetupInitialisesTheCommand :
    let s := started c16 0x3000 16 0x1F
    s.subkeys ≠ 0#64 ∧ s.inPtr ≠ 0#64 ∧ s.outPtr ≠ 0#64 ∧
    (blockBytes s.cfg ≤ s.length.toNat ∨ s.cfg.assertEn = false) ∧ s.flags.extractLsb' 5 27 = 0#27 ∧
    ¬(s.flags.getLsbD 0 = true ∧ s.flags.getLsbD 3 = true ∧ s.cfg.crPolicy = .refuse) := by decide +kernel

theorem witness_SetupForgetsTheEarlierCommand :
    let s := started c16 0 32 0x10
    let s' := { s with inCur := 7, lenRem := 9, tailMode := true, w := 6 }
    s' = { s with inCur := s'.inCur, lenRem := s'.lenRem, tailMode := s'.tailMode, w := s'.w } ∧
    ∃ t t', exec .setup s = .next t ∧ exec .setup s' = .next t' ∧ t.uop = 0x20#8 := ⟨rfl, _, _, rfl, rfl, rfl⟩

/-- V-SHORT, with the longest short length. -/
theorem witness_ShortCommandConsumesNothing :
    let s := started { c16 with assertEn := false } 0 15 0x18
    s.hostq = [] ∧ s.uop = 0x10#8 ∧ s.subkeys ≠ 0#64 ∧ s.inPtr ≠ 0#64 ∧ s.outPtr ≠ 0#64 ∧
    s.flags.extractLsb' 5 27 = 0#27 ∧
    ¬(s.flags.getLsbD 0 = true ∧ s.flags.getLsbD 3 = true ∧ s.cfg.crPolicy = .refuse) ∧
    s.cfg.assertEn = false ∧ s.length.toNat < blockBytes s.cfg := by decide +kernel

/-- ARB: 96 bytes just reach width 6, 95 leave width 2, 31 leave the tail, 15 leave nothing. -/
theorem witness_ArbPicksTheWidestBatch :
    Config.wf c16 = true ∧ Width.w6 ∈ batchSet c16 ∧ Width.w2 ∈ batchSet c16 ∧
    (busy c16 []).tailMode = false ∧ (busy c16 []).f.getLsbD 4 = true ∧
    Width.w6.regs * 16 ≤ (96#64).toNat ∧ (∀ v ∈ batchSet c16, v.regs * 16 ≤ (96#64).toNat → v.regs ≤ Width.w6.regs) ∧
    Width.w2.regs * 16 ≤ (95#64).toNat ∧ (∀ v ∈ batchSet c16, v.regs * 16 ≤ (95#64).toNat → v.regs ≤ Width.w2.regs) ∧
    (∀ v ∈ batchSet c16, (31#64).toNat < v.regs * 16) ∧ blockBytes c16 ≤ (16#64).toNat ∧
    (15#64).toNat < blockBytes c16 ∧ ({ busy c16 [] with tailMode := true } : State).tailMode = true ∧
    ({ busy c16 [] with f := 0 } : State).f.getLsbD 4 = false := by decide +kernel

/-- Every request accepted; the first and the last unit of six refused. -/
theorem witness_LdinLoadsTheUnits :
    UnitsAccepted (busy c16 []) .read 0x1000 16 6 ∧
    FirstRefused { busy c16 [] with port := [⟨0x1000, 1, .refuseRead⟩] } .read 0x1000 16 0 ∧
    FirstRefused { busy c16 [] with port := [⟨0x105F, 1, .refuseAll⟩] } .read 0x1000 16 5 := by
  unfold FirstRefused UnitsAccepted; decide +kernel

theorem witness_XorinMasksTheUnits :
    UnitsAccepted (busy c16 []) .read 0x3000 16 6 ∧
    FirstRefused { busy c16 [] with port := [⟨0x3000, 1, .refuseRead⟩] } .read 0x3000 16 0 ∧
    FirstRefused { busy c16 [] with port := [⟨0x305F, 1, .refuseAll⟩] } .read 0x3000 16 5 := by
  unfold FirstRefused UnitsAccepted; decide +kernel

theorem witness_XoroutMasksTheUnits :
    UnitsAccepted (busy c16 []) .read (busy c16 []).xorCur (busy c16 []).xorStr Width.w6.regs ∧
    FirstRefused { busy c16 [] with port := [⟨0x3000, 1, .refuseRead⟩] } .read 0x3000 16 0 ∧
    FirstRefused { busy c16 [] with port := [⟨0x305F, 1, .refuseAll⟩] } .read 0x3000 16 5 := by
  unfold FirstRefused UnitsAccepted; decide +kernel

theorem witness_StoutStoresTheUnits :
    Memory.wf (busy c16 (put [] 0x2000 [0xEE])).mem = true ∧ UnitsAccepted (busy c16 []) .write 0x2000 16 6 ∧
    FirstRefused { busy c16 [] with port := [⟨0x2000, 1, .refuseWrite⟩] } .write 0x2000 16 0 ∧
    FirstRefused { busy c16 [] with port := [⟨0x205F, 1, .refuseAll⟩] } .write 0x2000 16 5 := by
  unfold FirstRefused UnitsAccepted; decide +kernel

theorem witness_CounterAdderIsBigEndianModular :
    (bytes (List.replicate 16 0xFF)).length = blockBytes c16 ∧ (bytes (List.replicate 8 0xFF)).length = blockBytes c8 := by
  decide

/-- The largest sum that does not wrap. -/
theorem witness_CounterWidthsAgreeWithoutWrap :
    c8.block = .b8 ∧ (bytes [1, 2, 3, 4, 0xFF, 0xFF, 0xFF, 0xFD]).length = 8 ∧
    beInt ((bytes [1, 2, 3, 4, 0xFF, 0xFF, 0xFF, 0xFD]).drop 4) + 2 < 2 ^ 32 := by decide +kernel

/-- The read and the write accepted; the read refused; the write-back alone refused. -/
theorem witness_CtrgenSynthesizesTheCounters :
    Memory.wf (busy c16 (put [] 0x1000 [1])).mem = true ∧ portAnswer [] .read 0x1000 16 = .accept ∧
    portAnswer [] .write 0x1000 16 = .accept ∧ portAnswer [⟨0x100F, 1, .refuseAll⟩] .read 0x1000 16 = .error ∧
    portAnswer [⟨0x100F, 1, .refuseWrite⟩] .read 0x1000 16 = .accept ∧
    portAnswer [⟨0x100F, 1, .refuseWrite⟩] .write 0x1000 16 = .error := by decide +kernel

theorem witness_CtrgenTailSynthesizesOneCounter :
    Memory.wf (busy c8 (put [] 0x1000 [1])).mem = true ∧ portAnswer [⟨0x1008, 1, .refuseAll⟩] .read 0x1000 8 = .accept ∧
    portAnswer [⟨0x1008, 1, .refuseAll⟩] .write 0x1000 8 = .accept ∧
    portAnswer [⟨0x1007, 1, .refuseAll⟩] .read 0x1000 8 = .error ∧
    portAnswer [⟨0x1007, 1, .refuseWrite⟩] .read 0x1000 8 = .accept ∧
    portAnswer [⟨0x1007, 1, .refuseWrite⟩] .write 0x1000 8 = .error := by decide +kernel

theorem witness_LdinTailLoadsOneBlock :
    portAnswer (busy c8 []).port .read (busy c8 []).inCur (blockBytes c8) = .accept ∧
    portAnswer [] .read 0xFFFFFFFFFFFFFFF8 8 = .accept ∧ portAnswer [] .read 0xFFFFFFFFFFFFFFF9 8 = .error := by
  decide +kernel

theorem witness_XorinTailMasksOneBlock :
    portAnswer (busy c8 []).port .read (busy c8 []).xorCur (blockBytes c8) = .accept ∧
    portAnswer [⟨0x3007, 1, .refuseRead⟩] .read 0x3000 8 = .error := by decide +kernel

theorem witness_XoroutTailMasksOneBlock :
    portAnswer (busy c16 []).port .read (busy c16 []).xorCur (blockBytes c16) = .accept ∧
    portAnswer [⟨0x300F, 1, .refuseRead⟩] .read 0x3000 16 = .error := by decide +kernel

theorem witness_StoutTailStoresOneBlock :
    Memory.wf (busy c8 (put [] 0x2000 [0xEE])).mem = true ∧
    portAnswer (busy c8 []).port .write (busy c8 []).outCur (blockBytes c8) = .accept ∧
    portAnswer [⟨0x2007, 1, .refuseWrite⟩] .write 0x2000 8 = .error := by decide +kernel

/-- With no mask, and with one. -/
theorem witness_TailIterationIsOneFunction :
    let s := { busy c8 (put [] 0x1000 (up 1 8)) with uop := 0x4A, tailMode := true }
    s.hostq = [] ∧ s.uop = 0x48#8 + BitVec.ofNat 8 Width.w2.regs ∧ Memory.wf s.mem = true ∧
    portAnswer s.port .read s.inCur (blockBytes s.cfg) = .accept ∧ s.xNull = false ∧
    portAnswer s.port .read s.xorCur (blockBytes s.cfg) = .accept ∧
    portAnswer s.port .write s.outCur (blockBytes s.cfg) = .accept ∧
    ({ s with xNull := true } : State).xNull = true := by decide +kernel

theorem witness_TestKernelsInvert : (bytes (up 0 16)).length = (bytes (up 0xA0 16)).length := by decide

/-- Two states with the same block and different padding. -/
theorem witness_PaddingLanesDoNotReachTheBlock :
    let s := fill (busy c8 []) [up 1 16]
    let s' := fill (busy c8 []) [up 1 8 ++ up 0x40 8, up 9 16]
    s' = { s with vr := s'.vr } ∧ s.vr ≠ s'.vr ∧ laneOf s 0 = laneOf s' 0 ∧
    (sees (exec (.kcallT .w2) s) fun _ => true) = some true ∧
    (sees (exec (.kcallT .w2) s') fun _ => true) = some true := by decide +kernel

/-- Each of the four forms goes through from two states with different registers. -/
theorem witness_AssemblyIgnoresOldRegisters :
    ([Instr.ldin .w6, .ldinT .w6, .ctrgen .w6, .ctrgenT .w6].all fun i =>
      sees (exec i (busy c16 [])) (·.uop != 0xF0#8) == some true &&
      sees (exec i { busy c16 [] with vr := (fill (busy c16 []) [up 1 16]).vr }) (·.uop != 0xF0#8) == some true) = true := by
  decide +kernel

/-- A request of the greatest length, at the top of the space. -/
theorem witness_StoredBytesAreReadBack :
    Memory.wf (put [] 0xFFFFFFFFFFFFFFF8 [1]) = true ∧ (bytes (up 0 16)).length ≤ 16 := by decide +kernel

/-- A state in the middle of a command, after its first ADV, that has every invariant. -/
def running : State :=
  { started c16 0x3000 149 0x10 with
    sk := 0x8000, rnd := 1, f := 0x10, inCur := 0x1060, xorCur := 0x3060, outCur := 0x2060
    inStr := 16, xorStr := 16, outStr := 16, lenRem := 53, w := 2, uop := 0x42 }

theorem running_position : SequencerInv running := ⟨.ldin .w2, by rfl, by
  unfold PositionInv BatchPosition; decide +kernel⟩

theorem running_steps : ∃ t, step running = .next t := ⟨_, by rfl⟩

theorem running_status : StatusInv running := by unfold StatusInv; decide +kernel

theorem witness_MemoryStaysCanonical : Memory.wf running.mem = true ∧ ∃ t, step running = .next t :=
  ⟨rfl, running_steps⟩

theorem witness_StatusStaysExclusive : StatusInv running ∧ ∃ t, step running = .next t :=
  ⟨running_status, running_steps⟩

theorem witness_FaultRecordStaysConsistent : FaultRecordInv running ∧ FaultRecordInv faulted ∧
    ∃ t, step running = .next t :=
  ⟨by unfold FaultRecordInv; decide +kernel, by unfold FaultRecordInv; decide +kernel, running_steps⟩

theorem witness_StridesStayLegal : StrideInv running ∧ ∃ t, step running = .next t :=
  ⟨by unfold StrideInv StrideLegal; decide +kernel, running_steps⟩

theorem witness_SequencerStaysInItsTable : SequencerInv running ∧ ∃ t, step running = .next t :=
  ⟨running_position, running_steps⟩

theorem witness_ResultStaysBelowOneBlock :
    StatusInv running ∧ SequencerInv running ∧ ResultInv running ∧ (∃ t, step running = .next t) ∧
    ResultInv { running with uop := 0, busy := false, done := true, lenRem := 5, remainder := 5 } :=
  ⟨running_status, running_position, by unfold ResultInv; decide +kernel, running_steps, by
    unfold ResultInv; decide +kernel⟩

theorem witness_CursorsStayTiedToTheLength :
    StrideInv running ∧ SequencerInv running ∧ CursorInv running ∧ ∃ t, step running = .next t :=
  ⟨by unfold StrideInv StrideLegal; decide +kernel, running_position, by
    unfold CursorInv Running CursorPlace; decide +kernel, running_steps⟩

theorem witness_LengthLeftKeepsTheRemainder :
    SequencerInv running ∧ LengthInv running ∧ ∃ t, step running = .next t :=
  ⟨running_position, by unfold LengthInv Running; decide +kernel, running_steps⟩

theorem witness_ConfigurationNeverChanges : ∃ t, step running = .next t := running_steps

theorem witness_ReservedWordsAreNeverMet : SequencerInv running := running_position

theorem witness_StartedCommandFaultsOrEndsWithItsRemainder :
    let s := { started c16 0x3000 149 0x10 with port := [⟨0, 16, .refuseAll⟩] }
    s.hostq = [] ∧ s.uop = 0x10#8 ∧ NoDevice s := by
  unfold NoDevice; decide +kernel

end Sys2Proof.Tests
end

section
/-! SUPPORT. What an instance is wired with stays (00_scope.md R5, 10_state.md R28): what each operation does to the
configuration and to the memory port's map, and the statement O58 about every step. -/

namespace Sys2Proof.Machine

/-- `t` is the same instance behind the same memory port as `s` (00_scope.md R5, 10_state.md R28; entry 5). -/
def SameWiring (s t : State) : Prop := t.cfg = s.cfg ∧ t.port = s.port

/-! ### The host's accesses and START -/

@[simp] theorem hostWrite_cfg (s : State) (o b : Nat) (v : BitVec 64) : (hostWrite s o b v).cfg = s.cfg := by
  obtain ⟨_, _, _, _, _, _, _, h⟩ := hostWrite_frame s o b v
  rw [h]

@[simp] theorem hostWrite_port (s : State) (o b : Nat) (v : BitVec 64) : (hostWrite s o b v).port = s.port := by
  obtain ⟨_, _, _, _, _, _, _, h⟩ := hostWrite_frame s o b v
  rw [h]

@[simp] theorem startCommand_cfg (s : State) : (startCommand s).cfg = s.cfg := by
  unfold startCommand
  split <;> rfl

@[simp] theorem startCommand_port (s : State) : (startCommand s).port = s.port := by
  unfold startCommand
  split <;> rfl

/-! ### The micro-operations -/

/-- A data micro-operation ends in its successor or in the BUS fault, and neither touches the wiring. -/
theorem DataEnd.sameWiring {s t : State} {succ : Instr} (h : DataEnd s succ t) : SameWiring s t := by
  obtain ⟨v, m, -, rfl | ⟨a, rfl⟩⟩ := h
  · exact ⟨rfl, rfl⟩
  · exact ⟨rfl, rfl⟩

/-- Every way a micro-operation can end is an update of other fields. -/
theorem UopTo.sameWiring {s t : State} {i : Instr} (h : UopTo s t i) : SameWiring s t := by
  cases h with
  | data _ succ hs h => exact h.sameWiring
  | tadj h => cases h; exact ⟨rfl, rfl⟩
  | idle h | fault h | finish h | adv w h | advT w h => subst h; exact ⟨rfl, rfl⟩
  | setupFault c hf h | setup hf h => subst h; exact ⟨rfl, rfl⟩
  | arbBatch w hw h | arbTail hw hl h | arbFinish hw hl h => subst h; exact ⟨rfl, rfl⟩

/-! ### Every step -/

/-- A step keeps the wiring of its instance: it is an invariant of the step to stay wired as a given state `r`. -/
theorem step_keeps_wiring {r s t : State} (hs : SameWiring r s) (h : step s = .next t) : SameWiring r t := by
  refine step_invariant (I := SameWiring r) (fun _ _ hi => hi) ?uop ?write ?start (fun _ hi => hi)
    (fun _ _ hi => hi) (fun _ _ _ hi => hi) hs h
  case uop =>
    intro u v i ⟨hc, hp⟩ hd he
    obtain ⟨hcv, hpv⟩ := (uop_next hd he).sameWiring
    exact ⟨hcv.trans hc, hpv.trans hp⟩
  case write => intro u o b v hi; simpa [SameWiring] using hi
  case start => intro u hi; simpa [SameWiring] using hi

/-- Settles O58: a state is wired as itself, and every step keeps the wiring. -/
theorem configurationNeverChanges : Obligations.ConfigurationNeverChanges :=
  fun _ _ h => step_keeps_wiring ⟨rfl, rfl⟩ h

end Sys2Proof.Machine
end

section
/-! SUPPORT. What the host sees of the sequencer, kept by every step (10_state.md R26, R29, R36, R48): what a step can do to
the status, the fault record and the result, said once, and the statements O50, O51, O52 and O54 about every step. -/

namespace Sys2Proof.Machine

/-! ### Words of a running command -/

/-- UOP holds neither IDLE nor FAULT: a command runs (10_state.md R44, R49). -/
def AtWork (s : State) : Prop := s.uop ≠ 0x00#8 ∧ s.uop ≠ 0xF0#8

/-- A micro-operation other than IDLE and FAULT. -/
def runsCommand (i : Instr) : Bool := (encodeUop i).isSome && i != .idle && i != .fault

/-- One word, one operation: only IDLE has the word 0x00, only FAULT the word 0xF0. -/
theorem atWork_of_decode {s : State} {i : Instr} (hd : decodeUop s.uop = .ok i) (hi : runsCommand i = true) :
    AtWork s := by
  have he := encodeUop_decodeUop hd
  simp only [runsCommand, Bool.and_eq_true, bne_iff_ne] at hi
  obtain ⟨⟨-, h0⟩, hF⟩ := hi
  exact ⟨fun h => h0 (encodeUop_inj (h ▸ he :) rfl), fun h => hF (encodeUop_inj (h ▸ he :) rfl)⟩

/-- With such a micro-operation as successor the sequencer stays at work. -/
theorem atWork_setUop {i : Instr} (hi : runsCommand i = true) (s : State) : AtWork (setUop s i) := by
  have hu := hi
  simp only [runsCommand, Bool.and_eq_true, Option.isSome_iff_exists] at hu
  obtain ⟨⟨⟨u, hu⟩, -⟩, -⟩ := hu
  exact atWork_of_decode (decodeUop_setUop hu s) hi

/-- A data micro-operation and its successor both belong to a running command (41_arbiter.md R143). -/
theorem runsCommand_dataSuccessor {s : State} {i succ : Instr} (h : dataSuccessor s i = some succ) :
    runsCommand i = true ∧ runsCommand succ = true := by
  cases i <;> cases h
  case ldin | ctrgen => unfold afterLoad; split <;> exact ⟨rfl, rfl⟩
  case ldinT | ctrgenT => unfold afterLoadT; split <;> exact ⟨rfl, rfl⟩
  case kcall | kcallT => split <;> exact ⟨rfl, rfl⟩
  all_goals exact ⟨rfl, rfl⟩

/-! ### What a step can do to the status -/

/-- BUSY, DONE, FAULT, CAUSE, UOP, FADDR, REMAINDER, LENREM and the configuration of `t` are those of `s`. -/
def SameStatus (s t : State) : Prop :=
  t = { s with
    subkeys := t.subkeys, rounds := t.rounds, inPtr := t.inPtr, xorPtr := t.xorPtr, outPtr := t.outPtr
    length := t.length, flags := t.flags, tailMode := t.tailMode, sk := t.sk, rnd := t.rnd, f := t.f, xNull := t.xNull
    inCur := t.inCur, xorCur := t.xorCur, outCur := t.outCur, inStr := t.inStr, xorStr := t.xorStr, outStr := t.outStr
    w := t.w, vr := t.vr, mem := t.mem, port := t.port, hostq := t.hostq, hostData := t.hostData, freeIx := t.freeIx }

/-- Everything a step, or one of its operations, can do to the status, the fault record and the result. -/
inductive StatusStep (s t : State) : Prop where
  /-- An access of the host, a dropped doorbell, IDLE or FAULT. -/
  | kept (h : SameStatus s t)
  /-- START is accepted (40_command_setup.md R121). -/
  | started (hb : s.busy = false) (hf : s.fault = false)
      (h : SameStatus { s with busy := true, done := false, uop := 0x10#8 } t)
  /-- A reset (70_reset_and_hazards.md R241). -/
  | wasReset (h : SameStatus (State.resetOf s.cfg) t)
  /-- A fault is taken (60_exceptions.md R214). -/
  | faulted (c : Cause) (a : Addr) (h : SameStatus (raiseFault s c a) t)
  /-- A micro-operation goes on to its successor, LENREM as it leaves it (41_arbiter.md R143). -/
  | wentOn (hw : AtWork s) (hw' : AtWork t) (l : BitVec 64) (h : SameStatus { s with uop := t.uop, lenRem := l } t)
  /-- FINISH (44_tail.md R190). -/
  | finished (hd : decodeUop s.uop = .ok .finish)
      (h : SameStatus { s with remainder := s.lenRem, busy := false, done := true, uop := 0x00#8 } t)

/-- A write of the host shows in no status. -/
theorem sameStatus_hostWrite (s : State) (o b : Nat) (v : BitVec 64) : SameStatus s (hostWrite s o b v) := by
  obtain ⟨_, _, _, _, _, _, _, h⟩ := hostWrite_frame s o b v
  rw [h]; rfl

/-- START is accepted or dropped. -/
theorem startCommand_cases (s : State) :
    (s.busy = false ∧ s.fault = false ∧ startCommand s = { s with busy := true, done := false, uop := 0x10#8 }) ∨
    startCommand s = s := by
  unfold startCommand
  split
  · next h => exact .inl ⟨h.1, h.2, rfl⟩
  · exact .inr rfl

theorem startCommand_statusStep (s : State) : StatusStep s (startCommand s) := by
  obtain ⟨hb, hf, h⟩ | h := startCommand_cases s
  · exact .started hb hf (by rw [h]; rfl)
  · exact .kept (by rw [h]; rfl)

/-- PROCESS is START after writes that show in no status (30_encoding.md R101). -/
theorem execProcess_statusStep {d : Descriptor} {s t : State} (h : execProcess d s = .next t) : StatusStep s t := by
  cases hb : s.busy with
  | true =>
    rw [execProcess_busy hb] at h
    cases h
    exact .kept rfl
  | false =>
    rw [execProcess_idle hb] at h
    cases h
    obtain ⟨-, hf, h⟩ | h := startCommand_cases { s with
      subkeys := d.subkeys, rounds := d.rounds, inPtr := d.inPtr, xorPtr := d.xorPtr, outPtr := d.outPtr
      length := d.length, flags := d.flags }
    · exact .started hb hf (by rw [h]; rfl)
    · exact .kept (by rw [h]; rfl)

/-- A micro-operation that is neither IDLE nor FAULT goes on to another one, takes a fault, or is FINISH. -/
theorem UopTo.statusStep {s t : State} {i : Instr} (hd : decodeUop s.uop = .ok i) (h : UopTo s t i) :
    StatusStep s t := by
  have work := atWork_of_decode hd
  cases h with
  | idle h | fault h => subst h; exact .kept rfl
  | setupFault c hf h => subst h; exact .faulted c 0 rfl
  | setup hf h => subst h; exact .wentOn (work rfl) (atWork_setUop rfl _) s.length rfl
  | arbBatch w hw h =>
    subst h
    exact .wentOn (work rfl) (atWork_setUop (by split <;> rfl) _) s.lenRem rfl
  | arbTail hw hl h =>
    subst h
    exact .wentOn (work rfl) (atWork_setUop (by split; rfl; split <;> rfl) _) s.lenRem rfl
  | arbFinish hw hl h => subst h; exact .wentOn (work rfl) (atWork_setUop rfl _) s.lenRem rfl
  | tadj h => cases h; exact .wentOn (work rfl) (atWork_setUop (by split <;> rfl) _) s.lenRem rfl
  | data _ succ hs h =>
    obtain ⟨hi, hsucc⟩ := runsCommand_dataSuccessor hs
    obtain ⟨v, m, -, rfl | ⟨a, rfl⟩⟩ := h
    · exact .wentOn (work hi) (atWork_setUop hsucc _) s.lenRem rfl
    · exact .faulted .bus a rfl
  | adv w h | advT w h => subst h; exact .wentOn (work rfl) (atWork_setUop rfl _) _ rfl
  | finish h => subst h; exact .finished hd rfl

/-- What a step can do to the status, whatever the host has pending; the host's queue itself is no part of it. -/
theorem step_statusStep {s t : State} (h : step s = .next t) : StatusStep s t := by
  obtain ⟨q, h⟩ := step_next h
  have hu : StatusStep { s with hostq := q } t := by
    cases h with
    | uop i hd h => exact (uop_next hd h).statusStep hd
    | process d hf h => exact execProcess_statusStep h
    | start hf h => subst h; exact startCommand_statusStep _
    | srst hf h => subst h; exact .wasReset rfl
    | write o b v h => subst h; exact .kept (sameStatus_hostWrite _ o b v)
    | read v h | nothing h | store a v hb h => subst h; exact .kept rfl
  cases hu with
  | kept h => exact .kept h
  | started hb hf h => exact .started hb hf h
  | wasReset h => exact .wasReset h
  | faulted c a h => exact .faulted c a h
  | wentOn hw hw' l h => exact .wentOn hw hw' l h
  | finished hd h => exact .finished hd h

/-! ### The status -/

theorem StatusInv.of_same {s t : State} (h : SameStatus s t) (hs : StatusInv s) : StatusInv t := by
  rw [h]; exact hs

/-- A running command is BUSY, not faulted and not DONE. -/
theorem StatusInv.atWork {s : State} (hs : StatusInv s) (hw : AtWork s) :
    s.busy = true ∧ s.fault = false ∧ s.done = false :=
  hs.2.2 hw.1 hw.2

/-- The state that is BUSY, not faulted and not DONE at a word that is neither IDLE nor FAULT. -/
theorem statusInv_of_atWork {s : State} (hw : AtWork s) (hb : s.busy = true) (hf : s.fault = false)
    (hd : s.done = false) : StatusInv s :=
  ⟨fun h => absurd h hw.1, fun h => absurd h hw.2, fun _ _ => ⟨hb, hf, hd⟩⟩

theorem statusInv_raiseFault (s : State) (c : Cause) (a : Addr) : StatusInv (raiseFault s c a) := by
  simp [StatusInv]

theorem statusInv_resetOf (c : Config) : StatusInv (State.resetOf c) := by
  simp [StatusInv, State.resetOf]

/-- Settles O50: IDLE, FAULT and the words of a running command exclude each other, and each step that changes UOP changes
the three status bits with it. -/
theorem statusStaysExclusive : Obligations.StatusStaysExclusive := by
  intro s t hs h
  cases step_statusStep h with
  | kept h => exact hs.of_same h
  | started hb hf h =>
    rw [h]
    exact statusInv_of_atWork (by simp [AtWork]) rfl hf rfl
  | wasReset h => exact (statusInv_resetOf _).of_same h
  | faulted c a h => exact (statusInv_raiseFault s c a).of_same h
  | wentOn hw hw' l h =>
    obtain ⟨hb, hf, hd⟩ := hs.atWork hw
    rw [h]
    exact statusInv_of_atWork hw' hb hf hd
  | finished hd h =>
    obtain ⟨-, hf, -⟩ := hs.atWork (atWork_of_decode hd rfl)
    rw [h]
    exact ⟨fun _ => ⟨rfl, hf⟩, nofun, fun h0 => absurd rfl h0⟩

/-! ### The fault record -/

theorem FaultRecordInv.of_same {s t : State} (h : SameStatus s t) (hs : FaultRecordInv s) : FaultRecordInv t := by
  rw [h]; exact hs

/-- Fault entry records one of the codes 1 to 7, and an address for BUS alone (60_exceptions.md R211, R214). -/
theorem faultRecordInv_raiseFault (s : State) (c : Cause) (a : Addr) : FaultRecordInv (raiseFault s c a) := by
  cases c <;> simp [FaultRecordInv, causeCode]

theorem faultRecordInv_resetOf (c : Config) : FaultRecordInv (State.resetOf c) := by
  simp [FaultRecordInv, State.resetOf]

/-- Settles O51: only a fault and a reset write the record, and each writes it whole. -/
theorem faultRecordStaysConsistent : Obligations.FaultRecordStaysConsistent := by
  intro s t hs h
  cases step_statusStep h with
  | faulted c a h => exact (faultRecordInv_raiseFault s c a).of_same h
  | wasReset h => exact (faultRecordInv_resetOf _).of_same h
  | kept h => exact hs.of_same h
  | started hb hf h => rw [h]; exact hs
  | wentOn hw hw' l h => rw [h]; exact hs
  | finished hd h => rw [h]; exact hs

/-! ### The result -/

theorem ResultInv.of_same {s t : State} (h : SameStatus s t) (hs : ResultInv s) : ResultInv t := by
  rw [h]; exact hs

theorem resultInv_of_not_done {s : State} (h : s.done = false) : ResultInv s :=
  fun hd => absurd hd (by simp [h])

/-- FINISH stands in the transition table only where less than a block is left (41_arbiter.md R140, R143). -/
theorem SequencerInv.finish {s : State} (hs : SequencerInv s) (hd : decodeUop s.uop = .ok .finish) :
    s.lenRem.toNat < blockBytes s.cfg := by
  obtain ⟨i, hi, hp⟩ := hs
  cases hi.symm.trans hd
  exact hp

/-- Settles O54: FINISH sets DONE, with less than a block left; while DONE no micro-operation runs. -/
theorem resultStaysBelowOneBlock : Obligations.ResultStaysBelowOneBlock := by
  intro s t hst hsq hs h
  cases step_statusStep h with
  | kept h => exact hs.of_same h
  | started hb hf h => rw [h]; exact resultInv_of_not_done rfl
  | wasReset h => rw [h]; exact resultInv_of_not_done rfl
  | faulted c a h => rw [h]; exact resultInv_of_not_done rfl
  | wentOn hw hw' l h =>
    obtain ⟨-, -, hd⟩ := hst.atWork hw
    rw [h]
    exact resultInv_of_not_done hd
  | finished hd h => rw [h]; exact fun _ => ⟨rfl, hsq.finish hd⟩

/-! ### The strides -/

theorem strideB_cases (c : Config) : strideB c = 8#64 ∨ strideB c = 16#64 := by
  unfold strideB blockBytes
  cases c.block
  · exact .inl rfl
  · exact .inr rfl

/-- SETUP's strides are 0 or plus or minus V (40_command_setup.md R126, R128). -/
theorem strideLegal_startStride (c : Config) (frozen reverse : Bool) :
    StrideLegal c false (startStride frozen reverse) := by
  cases frozen <;> cases reverse <;> simp [StrideLegal, startStride]

/-- TADJ takes a legal stride of either phase to 0 or plus or minus B (44_tail.md R181). -/
theorem strideLegal_tailStride {c : Config} {tail : Bool} {str : Addr} (h : StrideLegal c tail str) :
    StrideLegal c true (tailStride c str) := by
  obtain hB | hB := strideB_cases c <;> simp only [StrideLegal, tailStride, hB, if_true] at h ⊢
  all_goals
    cases tail
    · obtain rfl | rfl | rfl := h <;> decide
    · obtain rfl | rfl | rfl := h <;> decide

theorem strideInv_resetOf (c : Config) : StrideInv (State.resetOf c) := ⟨.inl rfl, .inl rfl, .inl rfl⟩

/-- SETUP and TADJ leave the strides of their phase, every other micro-operation leaves strides and phase alone. -/
theorem UopTo.strideInv {s t : State} {i : Instr} (hs : StrideInv s) (h : UopTo s t i) : StrideInv t := by
  cases h with
  | setup hf h =>
    subst h
    exact ⟨strideLegal_startStride _ _ _, strideLegal_startStride _ _ _, strideLegal_startStride _ _ _⟩
  | tadj h =>
    cases h
    obtain ⟨hin, hxor, hout⟩ := hs
    exact ⟨strideLegal_tailStride hin, strideLegal_tailStride hxor, strideLegal_tailStride hout⟩
  | data _ succ hsucc h => obtain ⟨v, m, -, rfl | ⟨a, rfl⟩⟩ := h <;> exact hs
  | idle h | fault h | finish h | adv w h | advT w h => subst h; exact hs
  | setupFault c hf h | arbBatch w hw h | arbTail hw hl h | arbFinish hw hl h => subst h; exact hs

/-- Settles O52: the strides change in SETUP, TADJ and a reset alone. -/
theorem stridesStayLegal : Obligations.StridesStayLegal := by
  intro s t hs h
  refine step_invariant (I := StrideInv) (fun _ _ hi => hi) ?uop ?write ?start (fun _ _ => strideInv_resetOf _)
    (fun _ _ hi => hi) (fun _ _ _ hi => hi) hs h
  case uop => intro u v i hi hd he; exact (uop_next hd he).strideInv hi
  case write =>
    intro u o b v hi
    obtain ⟨_, _, _, _, _, _, _, h⟩ := hostWrite_frame u o b v
    rw [h]; exact hi
  case start =>
    intro u hi
    obtain ⟨-, -, h⟩ | h := startCommand_cases u <;> rw [h] <;> exact hi

end Sys2Proof.Machine
end

section
/-! SUPPORT. The host port (10_state.md R21 to R28, R36, R47): the composed words by their fields, the register map, and the
statements O9, O11, O12, O13 and O17. -/

namespace Sys2Proof.Machine

/-! ### The fields of the composed words

A concatenation is peeled from its low end: each `extractLsb'_append_eq_of_le` drops a field below the one asked for, the
`extractLsb'_append_eq_of_add_le` drops everything above it. -/

/-- Settles O11: STATUS is a concatenation, read field by field. -/
theorem statusWordFields : Obligations.StatusWordFields := by
  intro s
  refine ⟨?busy, ?done, ?fault, ?tailMode, ?cause, ?uop, ?rest⟩
  case busy | done | fault | tailMode =>
    simp only [statusWord, BitVec.getLsbD_append, BitVec.getLsbD_ofBool]
    rfl
  case cause | uop | rest =>
    simp (disch := decide) only [statusWord, BitVec.extractLsb'_append_eq_of_le,
      BitVec.extractLsb'_append_eq_of_add_le, Nat.reduceSub, BitVec.extractLsb'_eq_self]

/-- The field of the width at place `i` of `KW`, as a number of registers (10_state.md R28, 30_encoding.md R106). -/
theorem kwField_toNat (c : Config) (i : Nat) : (kwField c i).toNat = ((c.kw[i]?).map Width.regs).getD 0 := by
  unfold kwField
  cases c.kw[i]? with
  | some w => exact widthField_toNat w
  | none => rfl

/-- The width fields of CONFIG (10_state.md R28). -/
theorem configWord_kwFields (c : Config) :
    (configWord c).extractLsb' 1 3 = kwField c 0 ∧ (configWord c).extractLsb' 4 3 = kwField c 1 ∧
    (configWord c).extractLsb' 7 3 = kwField c 2 := by
  refine ⟨?_, ?_, ?_⟩ <;>
    simp (disch := decide) only [configWord, BitVec.extractLsb'_append_eq_of_le,
      BitVec.extractLsb'_append_eq_of_add_le, Nat.reduceSub, BitVec.extractLsb'_eq_self]

/-- An admitted configuration has a first width (00_scope.md R5). -/
theorem kwField_zero_pos {c : Config} (hc : Config.wf c = true) : 0 < (kwField c 0).toNat := by
  rw [kwField_toNat]
  cases hk : c.kw with
  | nil => simp [Config.wf, hk] at hc
  | cons w r => exact regs_pos w

/-- Settles O12: CONFIG is a concatenation, read field by field; `KW` is not empty. -/
theorem configWordFields : Obligations.ConfigWordFields := by
  intro c hc
  obtain ⟨h1, h2, h3⟩ := configWord_kwFields c
  refine ⟨?b8, ?kw1, ?kw2, ?kw3, ?assertEn, ?ctr8w8, ?crRef, ?rest, ?pos⟩
  case kw1 => rw [h1, kwField_toNat]
  case kw2 => rw [h2, kwField_toNat]
  case kw3 => rw [h3, kwField_toNat]
  case pos => rw [h1]; exact kwField_zero_pos hc
  case rest =>
    simp (disch := decide) only [configWord, BitVec.extractLsb'_append_eq_of_le, Nat.reduceSub,
      BitVec.extractLsb'_eq_self]
  case b8 | assertEn | ctr8w8 | crRef =>
    simp only [configWord, BitVec.getLsbD_append, BitVec.getLsbD_ofBool]
    rfl

/-- A legal stride of either phase, as a number (10_state.md R36). -/
theorem strideLegal_cases {c : Config} {tail : Bool} {str : Addr} (h : StrideLegal c tail str) :
    str = 0#64 ∨ str = 8#64 ∨ str = -8#64 ∨ str = 16#64 ∨ str = -16#64 := by
  cases tail with
  | false =>
    obtain h | h | h := h
    · exact .inl h
    · exact .inr (.inr (.inr (.inl h)))
    · exact .inr (.inr (.inr (.inr h)))
  | true =>
    obtain hB | hB := strideB_cases c <;> simp only [StrideLegal, hB, if_true] at h <;> tauto

/-- A legal stride fits a signed byte. -/
theorem signExtend_setWidth_of_strideLegal {c : Config} {tail : Bool} {str : Addr} (h : StrideLegal c tail str) :
    (str.setWidth 8).signExtend 64 = str := by
  obtain rfl | rfl | rfl | rfl | rfl := strideLegal_cases h <;> decide

/-- The fields of STRIDES (10_state.md R36). -/
theorem stridesWord_fields (s : State) :
    (stridesWord s).extractLsb' 0 8 = s.inStr.setWidth 8 ∧ (stridesWord s).extractLsb' 8 8 = s.xorStr.setWidth 8 ∧
    (stridesWord s).extractLsb' 16 8 = s.outStr.setWidth 8 ∧ (stridesWord s).extractLsb' 24 8 = 0#8 := by
  refine ⟨?_, ?_, ?_, ?_⟩ <;>
    simp (disch := decide) only [stridesWord, BitVec.extractLsb'_append_eq_of_le,
      BitVec.extractLsb'_append_eq_of_add_le, Nat.reduceSub, BitVec.extractLsb'_eq_self]

/-- Settles O13: each field is its stride cut to a byte, and a legal stride fits a byte. -/
theorem stridesWordShowsTheStrides : Obligations.StridesWordShowsTheStrides := by
  rintro s ⟨hin, hxor, hout⟩
  obtain ⟨h0, h8, h16, h24⟩ := stridesWord_fields s
  rw [h0, h8, h16, signExtend_setWidth_of_strideLegal hin, signExtend_setWidth_of_strideLegal hxor,
    signExtend_setWidth_of_strideLegal hout]
  exact ⟨rfl, rfl, rfl, h24⟩

/-! ### The register map -/

/-- A read answers 0 where no register of that width stands at the offset, or one that holds 0 (10_state.md R21). -/
theorem hostReadValue_eq_zero {s : State} {o b : Nat} (h : ∀ v, hostRegister s o = some (b, v) → v = 0) :
    hostReadValue s o b = 0 := by
  unfold hostReadValue
  cases hr : hostRegister s o with
  | none => rfl
  | some r =>
    obtain ⟨n, v⟩ := r
    by_cases hn : n = b
    · subst hn
      simpa using h v hr
    · exact if_neg hn

theorem statusWord_resetOf (c : Config) : statusWord (State.resetOf c) = 0 := by
  dsimp only [statusWord, State.resetOf]
  decide

theorem stridesWord_resetOf (c : Config) : stridesWord (State.resetOf c) = 0 := by
  dsimp only [stridesWord, State.resetOf]
  decide

/-- After reset the register at every offset but CONFIG's holds 0 (10_state.md R47). In the order of the register map STATUS
is row 9, CONFIG row 11 and STRIDES row 17; the last case is an offset without a register. -/
theorem hostRegister_resetOf {c : Config} {o n : Nat} {v : BitVec 64} (ho : o ≠ 0x50)
    (h : hostRegister (State.resetOf c) o = some (n, v)) : v = 0 := by
  unfold hostRegister at h
  split at h
  case h_9 => cases h; rw [statusWord_resetOf]; rfl
  case h_11 => exact absurd rfl ho
  case h_17 => cases h; rw [stridesWord_resetOf]; rfl
  case h_18 => cases h
  all_goals cases h; rfl

/-- Settles O17: no register but CONFIG has a bit set after reset. -/
theorem registersReadZeroAfterReset : Obligations.RegistersReadZeroAfterReset :=
  fun _ => ⟨fun _ _ ho => hostReadValue_eq_zero fun _ h => hostRegister_resetOf ho h,
    rfl, rfl, rfl, rfl, rfl, rfl, rfl, rfl, rfl⟩

/-- Settles O9: a read and a write of the host, each by the rows of the register map; a read where the map has no register,
or CTRL, answers 0. -/
theorem hostPortAccessesWholeRegisters : Obligations.HostPortAccessesWholeRegisters := by
  intro s q offset bits
  refine ⟨fun hq => ?read, fun v hq hctrl => ?write⟩
  case read =>
    rw [step_host (fetch_cons hq)]
    congr 2
    split
    case h_17 => -- no row of the statement's table: the map has CTRL there (row 8), another width, or nothing
      refine hostReadValue_eq_zero fun v hv => ?_
      unfold hostRegister at hv
      split at hv
      case h_8 => cases hv; rfl
      case h_18 => cases hv
      all_goals cases hv; simp_all
    all_goals rfl
  case write =>
    rw [step_host (u := hostWrite { s with hostq := q } offset bits v) ((fetch_cons hq).trans (if_neg hctrl))]
    rfl

end Sys2Proof.Machine
end

section
/-! SUPPORT. What the registers depend on and who writes them (10_state.md R22, R42, R47, R50): the statements O10, O23, O47
and O57. -/

namespace Sys2Proof.Machine

/-! ### The operand registers (10_state.md R22) -/

/-- The seven operand registers of `t` are those of `s`. -/
def SameOperands (s t : State) : Prop :=
  t.subkeys = s.subkeys ∧ t.rounds = s.rounds ∧ t.inPtr = s.inPtr ∧ t.xorPtr = s.xorPtr ∧
  t.outPtr = s.outPtr ∧ t.length = s.length ∧ t.flags = s.flags

theorem SameOperands.refl (s : State) : SameOperands s s := ⟨rfl, rfl, rfl, rfl, rfl, rfl, rfl⟩

/-- No way a micro-operation can end writes an operand register. -/
theorem UopTo.sameOperands {s t : State} {i : Instr} (h : UopTo s t i) : SameOperands s t := by
  cases h with
  | data _ succ hs h => obtain ⟨v, m, -, rfl | ⟨a, rfl⟩⟩ := h <;> exact .refl _
  | tadj h => cases h; exact .refl _
  | idle h | fault h | finish h | adv w h | advT w h => subst h; exact .refl _
  | setupFault c hf h | setup hf h => subst h; exact .refl _
  | arbBatch w hw h | arbTail hw hl h | arbFinish hw hl h => subst h; exact .refl _

/-- A step whose turn is the sequencer's ran the micro-operation in UOP. -/
theorem uopTo_of_fetchUop {s u t : State} (hf : fetch s = fetchUop u) (h : step s = .next t) : ∃ i, UopTo u t i := by
  unfold step at h
  rw [hf, fetchUop] at h
  cases hd : decodeUopFor u.cfg u.uop with
  | ok i => rw [hd] at h; exact ⟨i, uop_next (decodeUopFor_ok.mp hd).1 h⟩
  | error e => rw [hd] at h; cases h

/-- While BUSY the host's writes, PROCESS and START are dropped (10_state.md R22, R25), so only a reset is left. -/
theorem StepTo.sameOperands {s u t : State} (h : StepTo s u t) (hb : u.busy = true)
    (hr : ∀ u, fetch s ≠ .run .srst u) : SameOperands u t := by
  cases h with
  | uop i hd h => exact (uop_next hd h).sameOperands
  | process d hf h =>
    rw [execProcess_busy hb] at h
    cases h
    exact .refl _
  | start hf h => rw [h, startCommand_drop (.inl hb)]; exact .refl _
  | srst hf h => exact absurd hf (hr _)
  | write o b v h => rw [h, hostWrite_busy hb]; exact .refl _
  | read v h | nothing h | store a v hb h => subst h; exact .refl _

/-- Settles O10: a turn of the sequencer is a micro-operation, which writes no operand; any other step while BUSY is an
access that is dropped, or writes elsewhere. -/
theorem operandRegistersBelongToTheHost : Obligations.OperandRegistersBelongToTheHost := by
  rintro s t h (hq | ⟨q, hq⟩ | ⟨hb, hr⟩)
  · obtain ⟨i, hi⟩ := uopTo_of_fetchUop (fetch_nil hq) h
    exact hi.sameOperands
  · obtain ⟨i, hi⟩ := uopTo_of_fetchUop (u := { s with hostq := q }) (fetch_cons hq) h
    exact hi.sameOperands
  · obtain ⟨q, h⟩ := step_next h
    exact h.sameOperands hb hr

/-! ### SETUP starts afresh (10_state.md R50) -/

/-- `s'` is `s` but for what SETUP sets, and the vector registers. -/
def SameForSetup (s s' : State) : Prop :=
  s' = { s with sk := s'.sk, rnd := s'.rnd, f := s'.f, xNull := s'.xNull, inCur := s'.inCur, xorCur := s'.xorCur,
                outCur := s'.outCur, inStr := s'.inStr, xorStr := s'.xorStr, outStr := s'.outStr,
                lenRem := s'.lenRem, tailMode := s'.tailMode, w := s'.w, vr := s'.vr }

/-- SETUP's checks read the operand registers and the flags they were latched into. -/
theorem setupFault_latch_congr {s s' : State} (h : SameForSetup s s') : setupFault (latch s') = setupFault (latch s) := by
  rw [h]; rfl

/-- What SETUP writes it computes from the operand registers. -/
theorem initCommand_latch_congr {s s' : State} (h : SameForSetup s s') :
    initCommand (latch s') = { initCommand (latch s) with vr := s'.vr } := by
  rw [h]; rfl

/-- Settles O23: the same check fails, or none does and every register an earlier command has set is set anew. -/
theorem setupForgetsTheEarlierCommand : Obligations.SetupForgetsTheEarlierCommand := by
  intro s s' t t' hs h h'
  have hfault := setupFault_latch_congr hs
  obtain ⟨c, hc, rfl⟩ | ⟨hc, rfl⟩ := execSetup_next h <;> obtain ⟨c', hc', rfl⟩ | ⟨hc', rfl⟩ := execSetup_next h'
  · rw [hfault, hc] at hc'
    cases hc'
    exact ⟨⟨rfl, rfl, rfl⟩, fun hu => absurd hu (by simp)⟩
  · rw [hfault, hc] at hc'; cases hc'
  · rw [hfault, hc] at hc'; cases hc'
  · rw [initCommand_latch_congr hs]
    exact ⟨⟨rfl, rfl, rfl⟩, fun _ => rfl⟩

/-! ### Assembly steps forget the old registers (10_state.md R42) -/

/-- Two states that differ in vector registers alone, and there not in the first `n`. -/
def AgreeUpTo (n : Nat) (t t' : State) : Prop := t' = { t with vr := t'.vr } ∧ ∀ k < n, vreg t k = vreg t' k

/-- Registers filled without regard to what they held. -/
theorem agreeUpTo_updateVregs {g : Nat → VReg → VReg} (hg : ∀ i r r', g i r = g i r') {n : Nat} (hn : n ≤ 6)
    (s : State) (v : Vector VReg 6) : AgreeUpTo n (updateVregs g n s) (updateVregs g n { s with vr := v }) := by
  refine ⟨?_, fun k hk => ?_⟩
  · rw [updateVregs_frame g n s, updateVregs_frame g n { s with vr := v }]
  · rw [vreg_updateVregs _ _ _ hn, vreg_updateVregs _ _ _ hn, if_pos hk, if_pos hk]
    exact hg k _ _

/-- A read that went through was accepted, and so went what follows it. -/
theorem memRead_done {s u : State} {a : Addr} {n : Nat} {k : List Byte → Progress} (h : memRead s a n k = .done u) :
    portAnswer s.port .read a n = .accept ∧ k (bytesAt s.mem a n) = .done u := by
  obtain ⟨hp, e⟩ | ⟨-, e⟩ | ⟨-, e⟩ := memRead_cases s a n k <;> rw [e] at h
  · exact ⟨hp, h⟩
  · cases h
  · cases h

/-- A write that went through was accepted. -/
theorem memWrite_done {s u : State} {a : Addr} {v : List Byte} (h : memWrite s a v = .done u) :
    portAnswer s.port .write a v.length = .accept ∧ u = { s with mem := storeBytes s.mem a v } := by
  obtain ⟨hp, e⟩ | ⟨-, e⟩ | ⟨-, e⟩ := memWrite_cases s a v <;> rw [e] at h <;> cases h
  exact ⟨hp, rfl⟩

/-- Where `p` goes through, so does `p'`, and they leave the same but for registers from `n` on. -/
def GoesAlike (n : Nat) (p p' : Progress) : Prop := ∀ u, p = .done u → ∃ u', p' = .done u' ∧ AgreeUpTo n u u'

theorem AgreeUpTo.goesAlike {n : Nat} {t t' : State} (h : AgreeUpTo n t t') : GoesAlike n (.done t) (.done t') := by
  rintro u ⟨⟩
  exact ⟨t', rfl, h⟩

/-- A read asks the port and memory, which no vector register is part of. -/
theorem goesAlike_memRead {n : Nat} {s : State} {v : Vector VReg 6} {a : Addr} {len : Nat}
    {k k' : List Byte → Progress} (hk : ∀ bs, GoesAlike n (k bs) (k' bs)) :
    GoesAlike n (memRead s a len k) (memRead { s with vr := v } a len k') := by
  intro u hu
  obtain ⟨hp, hu⟩ := memRead_done hu
  obtain ⟨u', hu', hag⟩ := hk _ u hu
  exact ⟨u', (memRead_accept (s := { s with vr := v }) hp).trans hu', hag⟩

theorem goesAlike_memWrite {n : Nat} {t t' : State} (h : AgreeUpTo n t t') (a : Addr) (bs : List Byte) :
    GoesAlike n (memWrite t a bs) (memWrite t' a bs) := by
  intro u hu
  obtain ⟨hp, rfl⟩ := memWrite_done hu
  obtain ⟨hframe, hregs⟩ := h
  refine ⟨{ t' with mem := storeBytes t.mem a bs }, ?_, by rw [hframe], hregs⟩
  rw [hframe]
  exact memWrite_accept hp

/-- Loads that went through were all accepted. -/
theorem unitsAccepted_of_loadUnits_done {s u : State} {n : Nat} (h : forUnits loadUnit n s = .done u) :
    UnitsAccepted s .read s.inCur s.inStr n := by
  induction n generalizing u with
  | zero => exact fun i hi => absurd hi (by omega)
  | succ n ih =>
    rw [forUnits] at h
    cases hn : forUnits loadUnit n s with
    | bus v a => rw [hn] at h; cases h
    | device a => rw [hn] at h; cases h
    | done v =>
      have hacc := ih hn
      rw [loadUnits_done s n hacc] at h
      have hlast := (memRead_done (show loadUnit n (updateVregs (loadedReg s) n s) = .done u from h)).1
      simp only [updateVregs_port, updateVregs_inCur, updateVregs_inStr] at hlast
      intro i hi
      obtain hlt | rfl := Nat.lt_succ_iff_lt_or_eq.mp hi
      · exact hacc i hlt
      · exact hlast

/-- The loads of LDIN fill each register from memory alone. -/
theorem goesAlike_loadUnits {n : Nat} (hn : n ≤ 6) (s : State) (v : Vector VReg 6) :
    GoesAlike n (forUnits loadUnit n s) (forUnits loadUnit n { s with vr := v }) := by
  intro u hu
  have hacc := unitsAccepted_of_loadUnits_done hu
  cases hu.symm.trans (loadUnits_done s n hacc)
  exact ⟨_, loadUnits_done { s with vr := v } n hacc, agreeUpTo_updateVregs (fun _ _ _ => rfl) hn s v⟩

/-- A micro-operation that took no fault went through, and so does its like. -/
theorem GoesAlike.agreeUpTo {n : Nat} {p p' : Progress} {i : Instr} {t t' : State} (hp : GoesAlike n p p')
    (h : endUop p i = .next t) (h' : endUop p' i = .next t') (hf : t.uop ≠ 0xF0#8) : AgreeUpTo n t t' := by
  obtain ⟨u, hu, rfl⟩ | ⟨u, a, -, rfl⟩ := endUop_next h
  · obtain ⟨u', rfl, hag⟩ := hp u hu
    cases h'
    obtain ⟨hframe, hregs⟩ := hag
    exact ⟨by rw [hframe]; rfl, hregs⟩
  · exact absurd rfl hf

/-- Settles O47: each of the four fills its registers from memory and the counter alone, and the successor is chosen by the
flags. -/
theorem assemblyIgnoresOldRegisters : Obligations.AssemblyIgnoresOldRegisters := by
  intro s v w i t t' hi h h' hf
  have fill {g : Nat → VReg → VReg} (hg : ∀ i r r', g i r = g i r') := agreeUpTo_updateVregs hg (regs_le_six w) s v
  obtain rfl | rfl | rfl | rfl := hi
  case inl => exact (goesAlike_loadUnits (regs_le_six w) s v).agreeUpTo h h' hf
  case inr.inl =>
    exact (goesAlike_memRead fun _ => (fill fun _ _ _ => rfl).goesAlike).agreeUpTo h h' hf
  case inr.inr.inl | inr.inr.inr =>
    exact (goesAlike_memRead fun _ => goesAlike_memWrite (fill fun _ _ _ => rfl) _ _).agreeUpTo h h' hf

/-! ### Right after reset -/

theorem sequencerInv_resetOf (c : Config) : SequencerInv (State.resetOf c) := ⟨.idle, decodeUop_encodeUop rfl, trivial⟩

/-- After reset no command runs. -/
theorem not_running_resetOf (c : Config) : ¬Running (State.resetOf c) := fun h => Bool.noConfusion h.1

/-- Settles O57: each invariant of a state whose registers are 0, that is idle and owes no result. -/
theorem resetHasEveryInvariant : Obligations.ResetHasEveryInvariant :=
  ⟨rfl, by decide, fun c => ⟨rfl, statusInv_resetOf c, faultRecordInv_resetOf c, strideInv_resetOf c,
    sequencerInv_resetOf c, resultInv_of_not_done rfl, fun h => absurd h (not_running_resetOf c),
    fun h => absurd h (not_running_resetOf c)⟩⟩

end Sys2Proof.Machine
end

section
/-! SUPPORT. The data space and its port (20_memory.md R60 to R62, R67, R70, R76, R77): the statements O20, O48 and O49. -/

namespace Sys2Proof.Machine

/-! ### Memory stays canonical -/

/-- A micro-operation writes memory by whole stored bytes or not at all. -/
theorem UopTo.wf_mem {s t : State} {i : Instr} (hs : Memory.wf s.mem = true) (h : UopTo s t i) :
    Memory.wf t.mem = true := by
  cases h with
  | data _ succ hsucc h => obtain ⟨v, m, hm, rfl | ⟨a, rfl⟩⟩ := h <;> exact hm hs
  | tadj h => cases h; exact hs
  | idle h | fault h | finish h | adv w h | advT w h => subst h; exact hs
  | setupFault c hf h | setup hf h => subst h; exact hs
  | arbBatch w hw h | arbTail hw hl h | arbFinish hw hl h => subst h; exact hs

/-- Settles O49: memory changes by the stores of micro-operations and the host's stores of a byte, and each of them keeps the
canonical form. -/
theorem memoryStaysCanonical : Obligations.MemoryStaysCanonical := by
  intro s t hs h
  refine step_invariant (I := fun s => Memory.wf s.mem = true) (fun _ _ hi => hi) ?uop ?write ?start (fun _ hi => hi)
    (fun _ _ hi => hi) ?store hs h
  case uop => intro u v i hi hd he; exact (uop_next hd he).wf_mem hi
  case write =>
    intro u o b v hi
    obtain ⟨_, _, _, _, _, _, _, h⟩ := hostWrite_frame u o b v
    rw [h]; exact hi
  case start =>
    intro u hi
    obtain ⟨-, -, h⟩ | h := startCommand_cases u <;> rw [h] <;> exact hi
  case store => intro u a v hi; exact Memory.wf_write u.mem _ v a.isLt hi

/-! ### The port's answer -/

/-- A request past `2^64` is an error, whatever the ranges say (20_memory.md R76). -/
theorem portAnswer_of_wraps {port : List PortRegion} {acc : Access} {a : Addr} {n : Nat} (h : 2 ^ 64 < a.toNat + n) :
    portAnswer port acc a n = .error := if_pos h

/-- Within the space and off device memory, only the ranges that refuse the access decide (20_memory.md R77). -/
theorem portAnswer_of_fits {port : List PortRegion} {acc : Access} {a : Addr} {n : Nat} (h : a.toNat + n ≤ 2 ^ 64)
    (hd : ∀ r ∈ port, touches r a n = true → r.kind ≠ .device) :
    portAnswer port acc a n =
      if (port.any fun r => refuses r.kind acc && touches r a n) = true then .error else .accept := by
  have hdev : ¬(port.any fun r => r.kind == .device && touches r a n) = true := by
    simp only [List.any_eq_true, Bool.and_eq_true, beq_iff_eq]
    rintro ⟨r, hr, hk, ht⟩
    exact hd r hr ht hk
  unfold portAnswer
  rw [if_neg (Nat.not_lt.mpr h), if_neg hdev]

/-- Settles O20: a wrapping request is an error, and any other one off device memory is an error exactly where some touched
range refuses it; the address enters by the bytes alone, so no alignment does. -/
theorem portRefusesWrappingAndRefusingRanges : Obligations.PortRefusesWrappingAndRefusingRanges := by
  refine fun port acc a n => ⟨portAnswer_of_wraps, fun hfit hok => ?accepted, fun hfit hdev href => ?refused⟩
  case accepted =>
    rw [portAnswer_of_fits hfit fun r hr ht => (hok r hr ht).1, if_neg]
    simp only [List.any_eq_true, Bool.and_eq_true]
    rintro ⟨r, hr, hk, ht⟩
    exact absurd hk (by simp [(hok r hr ht).2])
  case refused =>
    obtain ⟨r, hr, ht, hk⟩ := href
    rw [portAnswer_of_fits hfit hdev, if_pos]
    exact List.any_eq_true.mpr ⟨r, hr, by rw [hk, ht]; rfl⟩

/-! ### Read after write -/

/-- A request stored and read again, byte by byte, for any length the address space has room for (20_memory.md R61, R62). -/
theorem bytesAt_storeBytes_self (m : Memory) (a : Addr) (v : List Byte) (hm : Memory.wf m = true)
    (hl : v.length ≤ 2 ^ 64) : bytesAt (storeBytes m a v) a v.length = v := by
  refine List.ext_getElem (bytesAt_length _ _ _) fun k hk hkv => ?_
  rw [← List.getD_eq_getElem _ 0 hk, ← List.getD_eq_getElem _ 0 hkv, bytesAt_getD _ _ _ _ hkv,
    byteAt_storeBytes_of_lt _ _ _ _ hm hkv hl]

/-- Settles O48: a request of at most 16 bytes does not overlap itself, even where it wraps past `2^64`. -/
theorem storedBytesAreReadBack : Obligations.StoredBytesAreReadBack := by
  intro m a v hm h16
  have hl : v.length ≤ 2 ^ 64 := by omega
  exact ⟨bytesAt_storeBytes_self m a v hm hl, fun x hx => byteAt_storeBytes_of_ne v m a x hm hl hx⟩

end Sys2Proof.Machine
end

section
/-! SUPPORT. Where the cursors of a running command stand (20_memory.md R79, 40_command_setup.md R127, R128, 44_tail.md R181,
R191): the place of one cursor under SETUP, TADJ and the advance, and the statement O55 about every step. -/

namespace Sys2Proof.Machine

/-! ### The unit of a phase -/

/-- The bytes of one unit: a native vector before TADJ, a block after it (44_tail.md R181). -/
def unitBytes (c : Config) (tail : Bool) : Nat := if tail then blockBytes c else vecBytes

theorem unitBytes_cases (c : Config) (tail : Bool) : unitBytes c tail = 8 ∨ unitBytes c tail = 16 := by
  cases tail with
  | false => exact .inr rfl
  | true =>
    unfold unitBytes blockBytes
    cases c.block
    · exact .inl rfl
    · exact .inr rfl

/-- A legal stride is 0 or plus or minus one unit of the phase (10_state.md R36). -/
theorem strideLegal_iff (c : Config) (tail : Bool) (str : Addr) :
    StrideLegal c tail str ↔
      str = 0#64 ∨ str = BitVec.ofNat 64 (unitBytes c tail) ∨ str = -BitVec.ofNat 64 (unitBytes c tail) := by
  cases tail <;> rfl

/-! ### The place of one cursor -/

theorem cursorPlace_frozen (reverse : Bool) (ptr cur length lenRem : Addr) :
    CursorPlace reverse ptr cur 0#64 length lenRem ↔ cur = if reverse then ptr + length - 16#64 else ptr := by
  simp [CursorPlace]

theorem cursorPlace_forward {u : Nat} (hu : u = 8 ∨ u = 16) (reverse : Bool) (ptr cur length lenRem : Addr) :
    CursorPlace reverse ptr cur (BitVec.ofNat 64 u) length lenRem ↔ cur = ptr + (length - lenRem) := by
  obtain rfl | rfl := hu <;> simp [CursorPlace]

theorem cursorPlace_reverse {u : Nat} (hu : u = 8 ∨ u = 16) (reverse : Bool) (ptr cur length lenRem : Addr) :
    CursorPlace reverse ptr cur (-BitVec.ofNat 64 u) length lenRem ↔ cur = ptr + lenRem - BitVec.ofNat 64 u := by
  rw [BitVec.sub_eq_add_neg]
  obtain rfl | rfl := hu <;> simp [CursorPlace]

/-- SETUP puts a cursor in its place, with nothing consumed (40_command_setup.md R126 to R129). -/
theorem cursorPlace_start (frozen reverse : Bool) (ptr length : Addr) :
    CursorPlace reverse ptr (startCursor reverse ptr length) (startStride frozen reverse) length length := by
  cases frozen with
  | true =>
    have hstr : startStride true reverse = 0#64 := by cases reverse <;> rfl
    rw [hstr]
    exact (cursorPlace_frozen ..).mpr rfl
  | false =>
    cases reverse with
    | false => exact (cursorPlace_forward (u := vecBytes) (.inr rfl) ..).mpr (by simp [startCursor])
    | true => exact (cursorPlace_reverse (u := vecBytes) (.inr rfl) ..).mpr rfl

/-- TADJ keeps a cursor in its place: forward and frozen ones stay, a reverse one moves up by what its unit shrinks by
(44_tail.md R181). -/
theorem CursorPlace.tadj {c : Config} {reverse : Bool} {ptr cur str length lenRem : Addr}
    (hp : CursorPlace reverse ptr cur str length lenRem) (hs : StrideLegal c false str) :
    CursorPlace reverse ptr (tailCursor c cur str) (tailStride c str) length lenRem := by
  obtain rfl | rfl | rfl := hs
  case inl => exact hp
  case inr.inl =>
    have hcur : cur = ptr + (length - lenRem) := (cursorPlace_forward (unitBytes_cases c false) ..).mp hp
    exact (cursorPlace_forward (unitBytes_cases c true) ..).mpr hcur
  case inr.inr =>
    have hcur : cur = ptr + lenRem - strideV := (cursorPlace_reverse (unitBytes_cases c false) ..).mp hp
    refine (cursorPlace_reverse (unitBytes_cases c true) ..).mpr ?_
    change cur + (strideV - strideB c) = ptr + lenRem - strideB c
    rw [hcur]
    ring

/-- An advance by `n` units of the phase keeps a cursor in its place, the length lowered by as many bytes
(42_batch_datapath.md R160, 44_tail.md R188). -/
theorem CursorPlace.advance {c : Config} {tail reverse : Bool} {ptr cur str length lenRem : Addr} (n : Nat)
    (hp : CursorPlace reverse ptr cur str length lenRem) (hs : StrideLegal c tail str) :
    CursorPlace reverse ptr (unitAddr cur str n) str length (lenRem - BitVec.ofNat 64 (n * unitBytes c tail)) := by
  rw [BitVec.ofNat_mul]
  obtain rfl | rfl | rfl := (strideLegal_iff c tail str).mp hs
  case inl =>
    rw [cursorPlace_frozen] at hp ⊢
    rw [← hp, unitAddr, BitVec.mul_zero, BitVec.add_zero]
  case inr.inl =>
    rw [cursorPlace_forward (unitBytes_cases c tail)] at hp ⊢
    rw [hp, unitAddr]
    ring
  case inr.inr =>
    rw [cursorPlace_reverse (unitBytes_cases c tail)] at hp ⊢
    rw [hp, unitAddr]
    ring

/-! ### The three cursors -/

/-- The three cursors of `s` are in their places. -/
def CursorsPlaced (s : State) : Prop :=
  CursorPlace (flagR s) s.inPtr s.inCur s.inStr s.length s.lenRem ∧
  CursorPlace (flagR s) s.xorPtr s.xorCur s.xorStr s.length s.lenRem ∧
  CursorPlace (flagR s) s.outPtr s.outCur s.outStr s.length s.lenRem

theorem cursorInv_iff (s : State) : CursorInv s ↔ (Running s → CursorsPlaced s) := Iff.rfl

theorem cursorsPlaced_initCommand (s : State) : CursorsPlaced (initCommand s) :=
  ⟨cursorPlace_start _ _ _ _, cursorPlace_start _ _ _ _, cursorPlace_start _ _ _ _⟩

theorem CursorsPlaced.tadj {s t : State} (hp : CursorsPlaced s) (hs : StrideInv s) (htail : s.tailMode = false)
    (h : execTadj s = .next t) : CursorsPlaced t := by
  obtain ⟨pin, pxor, pout⟩ := hp
  obtain ⟨hin, hxor, hout⟩ := hs
  rw [htail] at hin hxor hout
  cases h
  exact ⟨pin.tadj hin, pxor.tadj hxor, pout.tadj hout⟩

theorem CursorsPlaced.advance {s : State} (hp : CursorsPlaced s) (hs : StrideInv s) (n : Nat) :
    CursorsPlaced (advance s n (n * unitBytes s.cfg s.tailMode)) := by
  obtain ⟨pin, pxor, pout⟩ := hp
  obtain ⟨hin, hxor, hout⟩ := hs
  exact ⟨pin.advance n hin, pxor.advance n hxor, pout.advance n hout⟩

theorem cursorInv_of_not_busy {s : State} (h : s.busy = false) : CursorInv s :=
  fun ⟨hb, _⟩ => absurd hb (by simp [h])

/-- While BUSY a write of the host is dropped, else no command runs (10_state.md R22). -/
theorem CursorInv.hostWrite {s : State} (hs : CursorInv s) (o b : Nat) (v : BitVec 64) :
    CursorInv (hostWrite s o b v) := by
  cases hb : s.busy with
  | true => rw [hostWrite_busy hb]; exact hs
  | false =>
    obtain ⟨_, _, _, _, _, _, _, h⟩ := hostWrite_frame s o b v
    rw [h]; exact cursorInv_of_not_busy hb

/-- A command that starts stands at its SETUP, where nothing is asked of the cursors. -/
theorem CursorInv.startCommand {s : State} (hs : CursorInv s) : CursorInv (startCommand s) := by
  obtain ⟨-, -, h⟩ | h := startCommand_cases s <;> rw [h]
  · exact fun ⟨_, hu⟩ => absurd rfl hu
  · exact hs

/-- A BUSY instance at any word but SETUP's runs its command. -/
theorem running_of_decode {s : State} {i : Instr} (hd : decodeUop s.uop = .ok i) (hi : i ≠ .setup)
    (hb : s.busy = true) : Running s :=
  ⟨hb, fun hu => hi (encodeUop_inj (hu ▸ encodeUop_decodeUop hd :) rfl)⟩

theorem dataSuccessor_setup {s : State} {i succ : Instr} (h : dataSuccessor s i = some succ) : i ≠ .setup := by
  rintro rfl
  cases h

/-- The sequencer's position, read at the micro-operation that stands in UOP. -/
theorem SequencerInv.position {s : State} {i : Instr} (hs : SequencerInv s) (hd : decodeUop s.uop = .ok i) :
    PositionInv s i := by
  obtain ⟨j, hj, hp⟩ := hs
  cases hj.symm.trans hd
  exact hp

/-- SETUP, TADJ and the two advances move the cursors, each to their places; every other micro-operation leaves them and what
places them, or ends the command. -/
theorem UopTo.cursorInv {s t : State} {i : Instr} (hstr : StrideInv s) (hp : PositionInv s i) (hc : CursorInv s)
    (hd : decodeUop s.uop = .ok i) (h : UopTo s t i) : CursorInv t := by
  have run (hi : i ≠ .setup) (hb : s.busy = true) : CursorsPlaced s := hc (running_of_decode hd hi hb)
  cases h with
  | idle h | fault h => subst h; exact hc
  | setupFault c hf h | finish h => subst h; exact cursorInv_of_not_busy rfl
  | setup hf h =>
    subst h
    exact fun _ => cursorsPlaced_initCommand _
  | arbBatch w hw h | arbTail hw hl h | arbFinish hw hl h =>
    subst h
    exact fun ⟨hb, _⟩ => run nofun hb
  | data _ succ hs h =>
    obtain ⟨v, m, -, rfl | ⟨a, rfl⟩⟩ := h
    · exact fun ⟨hb, _⟩ => run (dataSuccessor_setup hs) hb
    · exact cursorInv_of_not_busy rfl
  | tadj h =>
    obtain ⟨htail, -, -⟩ := hp
    refine (cursorInv_iff t).mpr fun ⟨hb, _⟩ => (run nofun ?_).tadj hstr htail h
    cases h
    exact hb
  | adv w h =>
    obtain ⟨-, -, htail, -, -⟩ := hp
    have hunit : vecBytes = unitBytes s.cfg s.tailMode := by rw [htail]; rfl
    rw [h, hunit]
    exact fun ⟨hb, _⟩ => (run nofun hb).advance hstr w.regs
  | advT w h =>
    obtain ⟨-, -, htail, -⟩ := hp
    have hunit : blockBytes s.cfg = 1 * unitBytes s.cfg s.tailMode := by rw [htail, Nat.one_mul]; rfl
    rw [h, hunit]
    exact fun ⟨hb, _⟩ => (run nofun hb).advance hstr 1

/-- Settles O55: the sequencer keeps each cursor in its place, the host cannot move the operands of a running command, and a
start, a fault and a reset leave none running past SETUP. -/
theorem cursorsStayTiedToTheLength : Obligations.CursorsStayTiedToTheLength := by
  intro s t hstr hseq hc h
  obtain ⟨q, h⟩ := step_next h
  have hstr' : StrideInv { s with hostq := q } := hstr
  have hseq' : SequencerInv { s with hostq := q } := hseq
  have hc' : CursorInv { s with hostq := q } := hc
  cases h with
  | uop i hd h => exact (uop_next hd h).cursorInv hstr' (hseq'.position hd) hc' hd
  | process d hf h => exact execProcess_next h (fun _ o b v hi => hi.hostWrite o b v) (fun _ hi => hi.startCommand) hc'
  | start hf h => subst h; exact hc'.startCommand
  | srst hf h => subst h; exact cursorInv_of_not_busy rfl
  | write o b v h => subst h; exact hc'.hostWrite o b v
  | read v h | nothing h | store a v hb h => subst h; exact hc'

end Sys2Proof.Machine
end

section
/-! SUPPORT. The encodings (30_encoding.md R90 to R108): reading back what the encoder wrote, format by format, the words of
the micro-operation map by their operation nibble, and the statements O1, O2 and O3. -/

namespace Sys2Proof.Machine

/-! ### Numbers built of fields, least significant first -/

/-- The lowest field is read back. -/
theorem ofNat_add_mul_pow {w : Nat} (b : BitVec w) (x : Nat) : BitVec.ofNat w (b.toNat + 2 ^ w * x) = b :=
  BitVec.eq_of_toNat_eq (by simp [Nat.mod_eq_of_lt b.isLt])

/-- Past the lowest field stand the others. -/
theorem add_mul_pow_div {w : Nat} (b : BitVec w) (x : Nat) : (b.toNat + 2 ^ w * x) / 2 ^ w = x := by
  rw [Nat.add_mul_div_left _ _ (Nat.two_pow_pos w), Nat.div_eq_of_lt b.isLt, Nat.zero_add]

/-- One more field takes its width. -/
theorem add_mul_pow_lt {w m x : Nat} (b : BitVec w) (hx : x < 2 ^ m) : b.toNat + 2 ^ w * x < 2 ^ (w + m) := by
  calc b.toNat + 2 ^ w * x < 2 ^ w * (x + 1) := by rw [Nat.mul_succ]; have := b.isLt; omega
    _ ≤ 2 ^ w * 2 ^ m := Nat.mul_le_mul_left _ hx
    _ = 2 ^ (w + m) := (pow_add 2 w m).symm

/-! ### Commands (R91) -/

/-- The seven registers of a descriptor have 48 bytes. -/
theorem descriptorNat_lt (d : Descriptor) : descriptorNat d < 256 ^ formatBytes .cmd :=
  calc descriptorNat d < 2 ^ (32 + (64 + (32 + (64 + (64 + (64 + 64)))))) :=
        add_mul_pow_lt _ <| add_mul_pow_lt _ <| add_mul_pow_lt _ <| add_mul_pow_lt _ <| add_mul_pow_lt _ <|
          add_mul_pow_lt _ d.length.isLt
    _ = 2 ^ (8 * formatBytes .cmd) := congrArg (2 ^ ·) rfl
    _ = 256 ^ formatBytes .cmd := pow_mul 2 8 _

theorem descriptorOfNat_descriptorNat (d : Descriptor) : descriptorOfNat (descriptorNat d) = d := by
  simp only [descriptorOfNat, descriptorNat, add_mul_pow_div, ofNat_add_mul_pow, BitVec.ofNat_toNat,
    BitVec.setWidth_eq]

/-! ### Micro-operation words (R105, R107) -/

/-- An operation of the micro-operation format has a word, and its number is that of the word. -/
theorem encodeNat_of_uop {i : Instr} (h : formatOf i = .uop) : ∃ u, encodeUop i = some u ∧ encodeNat i = u.toNat := by
  cases i
  case process | start | srst => cases h
  all_goals exact ⟨_, rfl, rfl⟩

theorem decodeNat_encodeNat_of_uop {i : Instr} (h : formatOf i = .uop) :
    encodeNat i < 256 ^ formatBytes (formatOf i) ∧ decodeNat (formatOf i) (encodeNat i) = .ok i := by
  obtain ⟨u, hu, hn⟩ := encodeNat_of_uop h
  rw [h, hn, decodeNat, BitVec.ofNat_toNat, BitVec.setWidth_eq]
  exact ⟨u.isLt, decodeUop_encodeUop hu⟩

/-! ### Bytes (R90) -/

/-- The number of an operation fits the bytes of its format and names the operation there. -/
theorem decodeNat_encodeNat (i : Instr) :
    encodeNat i < 256 ^ formatBytes (formatOf i) ∧ decodeNat (formatOf i) (encodeNat i) = .ok i := by
  cases i
  case process d => exact ⟨descriptorNat_lt d, congrArg (Except.ok ∘ Instr.process) (descriptorOfNat_descriptorNat d)⟩
  case start | srst => exact ⟨by decide, rfl⟩
  all_goals exact decodeNat_encodeNat_of_uop rfl

/-- Bytes that hold a number in a format are read as that number, and the bytes after them are left. -/
theorem decode_leBytes_append {fmt : Format} {n : Nat} {i : Instr} (hn : n < 256 ^ formatBytes fmt)
    (hi : decodeNat fmt n = .ok i) (rest : List Byte) :
    decode fmt (leBytes (formatBytes fmt) n ++ rest) = .ok (i, rest) := by
  have hlen : (leBytes (formatBytes fmt) n).length = formatBytes fmt := leBytes_length _ _
  have hlong : ¬ (leBytes (formatBytes fmt) n ++ rest).length < formatBytes fmt := by simp
  rw [decode, if_neg hlong, List.take_left' hlen, List.drop_left' hlen, leNat_leBytes, Nat.mod_eq_of_lt hn, hi]

/-- Settles O1: the bytes give back the number, and the number its operation. -/
theorem decodeEncodeRoundTrip : Obligations.DecodeEncodeRoundTrip := by
  intro i rest
  obtain ⟨hn, hi⟩ := decodeNat_encodeNat i
  exact decode_leBytes_append hn hi rest

/-! ### The micro-operation map (R107) -/

/-- A data word is the word of its row, with no width filled in, plus the width. -/
theorem uopWord_widthField (op : BitVec 4) (t : Bool) (w : Width) :
    uopWord op t (widthField w) = uopWord op t 0#3 + BitVec.ofNat 8 w.regs := by
  cases w <;> revert op t <;> decide

/-- The word of a data operation, as the map lists it. -/
theorem decodeUop_data_row {op : BitVec 4} {t : Bool} {i : Instr} {w : Width}
    (h : encodeUop i = some (uopWord op t (widthField w))) :
    decodeUop (uopWord op t 0#3 + BitVec.ofNat 8 w.regs) = .ok i :=
  decodeUop_encodeUop (uopWord_widthField op t w ▸ h)

/-- Settles O2: each word of the map is what the encoder writes for its operation, and the decoder undoes the encoder. -/
theorem uopWordsDecodeAsMapped : Obligations.UopWordsDecodeAsMapped := by
  refine ⟨decodeUop_encodeUop rfl, decodeUop_encodeUop rfl, decodeUop_encodeUop rfl, decodeUop_encodeUop rfl,
    decodeUop_encodeUop rfl, decodeUop_encodeUop rfl, fun w => ?_⟩
  exact ⟨decodeUop_data_row (op := 0x4#4) (t := false) rfl, decodeUop_data_row (op := 0x4#4) (t := true) rfl,
    decodeUop_data_row (op := 0x5#4) (t := false) rfl, decodeUop_data_row (op := 0x5#4) (t := true) rfl,
    decodeUop_data_row (op := 0x6#4) (t := false) rfl, decodeUop_data_row (op := 0x6#4) (t := true) rfl,
    decodeUop_data_row (op := 0x7#4) (t := false) rfl, decodeUop_data_row (op := 0x7#4) (t := true) rfl,
    decodeUop_data_row (op := 0x8#4) (t := false) rfl, decodeUop_data_row (op := 0x8#4) (t := true) rfl,
    decodeUop_data_row (op := 0x9#4) (t := false) rfl, decodeUop_data_row (op := 0x9#4) (t := true) rfl,
    decodeUop_data_row (op := 0xA#4) (t := false) rfl, decodeUop_data_row (op := 0xA#4) (t := true) rfl⟩

/-! ### Reserved words (R108, 93 U45) -/

theorem decodeWidth_eq_none {f : BitVec 3} :
    decodeWidth f = none ↔ f.toNat = 0 ∨ f.toNat = 3 ∨ f.toNat = 5 ∨ f.toNat = 7 := by
  revert f; decide

theorem controlUop_error {u : BitVec 8} {i : Instr} :
    (∃ e, controlUop u i = .error e) ↔ u.extractLsb' 0 4 ≠ 0#4 := by
  unfold controlUop
  split <;> simp [*]

/-- Every word is a control word of an operation every instance has, a data word of a batch and a tail form, or of a reserved
operation, by its upper four bits (R107, R108). -/
inductive UopWordKind (u : BitVec 8) : Prop where
  | control (i : Instr) (hd : decodeUop u = controlUop u i) (hi : ∀ c, instanceHas c i = true)
      (hop : (u.extractLsb' 4 4).toNat ≤ 0x3 ∨ (u.extractLsb' 4 4).toNat = 0xB ∨ (u.extractLsb' 4 4).toNat = 0xF)
  | data (batch tail : Width → Instr) (hd : decodeUop u = dataUop u batch tail)
      (hb : ∀ c w, instanceHas c (batch w) = c.kw.contains w)
      (ht : ∀ c w, instanceHas c (tail w) = (w == narrowest c))
      (hop : 0x4 ≤ (u.extractLsb' 4 4).toNat ∧ (u.extractLsb' 4 4).toNat ≤ 0xA)
  | reserved (hd : decodeUop u = .error .reservedOp)
      (hop : 0xC ≤ (u.extractLsb' 4 4).toNat ∧ (u.extractLsb' 4 4).toNat ≤ 0xE)

theorem uopWordKind (u : BitVec 8) : UopWordKind u := by
  have hlt : (u.extractLsb' 4 4).toNat < 16 := (u.extractLsb' 4 4).isLt
  have hd := decodeUop.eq_def u
  generalize hn : (u.extractLsb' 4 4).toNat = n at hlt hd
  have hkind : (n ≤ 0x3 ∨ n = 0xB ∨ n = 0xF) ∨ (0x4 ≤ n ∧ n ≤ 0xA) ∨ (0xC ≤ n ∧ n ≤ 0xE) := by omega
  obtain (hlow | rfl | rfl) | ⟨hlo, hhi⟩ | ⟨hlo, hhi⟩ := hkind
  · interval_cases n <;> exact .control _ hd (fun _ => rfl) (by omega)
  · exact .control _ hd (fun _ => rfl) (by omega)
  · exact .control _ hd (fun _ => rfl) (by omega)
  · interval_cases n <;> exact .data _ _ hd (fun _ _ => rfl) (fun _ _ => rfl) (by omega)
  · interval_cases n <;> exact .reserved hd (by omega)

theorem dataUop_error {u : BitVec 8} {batch tail : Width → Instr} :
    (∃ e, dataUop u batch tail = .error e) ↔ decodeWidth (u.extractLsb' 0 3) = none := by
  unfold dataUop
  split <;> simp [*]

/-- A data word that the map reads names the form of its `t` bit at the width of its `w` field. -/
theorem dataUop_ok {u : BitVec 8} {batch tail : Width → Instr} {w : Width}
    (h : decodeWidth (u.extractLsb' 0 3) = some w) :
    dataUop u batch tail = .ok (if u.getLsbD 3 then tail w else batch w) := by
  rw [dataUop, h]

/-- The instance's decoder refuses what the map's does, and the operations the instance lacks. -/
theorem decodeUopFor_error {c : Config} {u : BitVec 8} :
    (∃ e, decodeUopFor c u = .error e) ↔
      (∃ e, decodeUop u = .error e) ∨ ∃ i, decodeUop u = .ok i ∧ instanceHas c i = false := by
  unfold decodeUopFor
  cases decodeUop u with
  | error e => simp
  | ok i => cases hi : instanceHas c i <;> simp [hi]

/-- The narrowest width of an admitted configuration is one of its widths. -/
theorem narrowest_mem {c : Config} (hc : Config.wf c = true) : narrowest c ∈ c.kw := by
  have hne : c.kw ≠ [] := by
    simp only [Config.wf, Bool.and_eq_true, decide_eq_true_eq] at hc
    exact hc.1.1
  rw [narrowest, List.getLastD_eq_getLast?, List.getLast?_eq_getLast_of_ne_nil hne]
  exact List.getLast_mem hne

/-- No width of the instance has so many registers, said of the widths. -/
theorem forall_regs_ne_iff {c : Config} {w : Width} : (∀ v ∈ c.kw, v.regs ≠ w.regs) ↔ w ∉ c.kw :=
  ⟨fun h hw => h w hw rfl, fun h _ hv he => h (regs_inj he ▸ hv)⟩

/-- The reserved words of R108, by the kind of the word. -/
theorem decodeUop_error (u : BitVec 8) :
    (∃ e, decodeUop u = .error e) ↔
      (0xC ≤ (u.extractLsb' 4 4).toNat ∧ (u.extractLsb' 4 4).toNat ≤ 0xE) ∨
      ((0x4 ≤ (u.extractLsb' 4 4).toNat ∧ (u.extractLsb' 4 4).toNat ≤ 0xA) ∧
        ((u.extractLsb' 0 3).toNat = 0 ∨ (u.extractLsb' 0 3).toNat = 3 ∨
         (u.extractLsb' 0 3).toNat = 5 ∨ (u.extractLsb' 0 3).toNat = 7)) ∨
      (((u.extractLsb' 4 4).toNat ≤ 0x3 ∨ (u.extractLsb' 4 4).toNat = 0xB ∨ (u.extractLsb' 4 4).toNat = 0xF) ∧
        u.extractLsb' 0 4 ≠ 0#4) := by
  cases uopWordKind u with
  | control i hd hi hop =>
    rw [hd, controlUop_error]
    refine ⟨fun h => .inr (.inr ⟨hop, h⟩), ?_⟩
    rintro (h | ⟨h, -⟩ | ⟨-, h⟩)
    · omega
    · omega
    · exact h
  | data batch tail hd hb ht hop =>
    rw [hd, dataUop_error, decodeWidth_eq_none]
    omega
  | reserved hd hop =>
    simp only [hd, hop, true_and, true_or, iff_true]
    exact ⟨_, rfl⟩

/-- Among the words the map reads the instance lacks the data words of a width outside `KW` or, in a tail form, other than
`WN` (93 U45). -/
theorem decodeUop_lacked {c : Config} (hc : Config.wf c = true) {u : BitVec 8} (hok : ¬∃ e, decodeUop u = .error e) :
    (∃ i, decodeUop u = .ok i ∧ instanceHas c i = false) ↔
      (0x4 ≤ (u.extractLsb' 4 4).toNat ∧ (u.extractLsb' 4 4).toNat ≤ 0xA) ∧
        ((∀ w ∈ c.kw, w.regs ≠ (u.extractLsb' 0 3).toNat) ∨
         (u.getLsbD 3 = true ∧ (u.extractLsb' 0 3).toNat ≠ (narrowest c).regs)) := by
  cases uopWordKind u with
  | control i hd hi hop =>
    have hlacks : ¬∃ j, decodeUop u = .ok j ∧ instanceHas c j = false := by
      rintro ⟨j, hj, hlack⟩
      rw [hd, controlUop] at hj
      split at hj <;> cases hj
      rw [hi] at hlack
      cases hlack
    refine iff_of_false hlacks ?_
    omega
  | data batch tail hd hb ht hop =>
    rw [hd, dataUop_error] at hok
    obtain ⟨w, hw⟩ := Option.ne_none_iff_exists'.mp hok
    rw [hd, dataUop_ok hw, decodeWidth_some hw, widthField_toNat, forall_regs_ne_iff]
    simp only [hop, true_and, Except.ok.injEq, exists_eq_left', and_self]
    cases u.getLsbD 3 with
    | false => simp [hb]
    | true =>
      have hnarrow : w ∉ c.kw → w ≠ narrowest c := fun h he => h (he ▸ narrowest_mem hc)
      have hregs : w.regs ≠ (narrowest c).regs ↔ w ≠ narrowest c := not_congr ⟨regs_inj, congrArg _⟩
      simp only [if_true, ht, beq_eq_false_iff_ne, hregs, true_and]
      exact ⟨.inr, fun h => h.elim hnarrow id⟩
  | reserved hd hop => exact absurd ⟨_, hd⟩ hok

/-- Settles O3: the map's decoder by the kind of the word, and the instance's by what it lacks of the words the map reads. -/
theorem reservedUopWordsAreInvalid : Obligations.ReservedUopWordsAreInvalid := by
  refine ⟨decodeUop_error, fun c u hc => ⟨?_, fun i h => (decodeUopFor_ok.mp h).1⟩⟩
  rw [decodeUopFor_error]
  by_cases herr : ∃ e, decodeUop u = .error e
  · exact iff_of_true (.inl herr) (.inl herr)
  · rw [decodeUop_lacked hc herr]

end Sys2Proof.Machine
end

section
/-! SUPPORT. The host's operations (30_encoding.md R99, R101; 40_command_setup.md R120, R121; 70_reset_and_hazards.md R240): what
the head of the host's queue runs, and the statements O4, O6 and O15. -/

namespace Sys2Proof.Machine

/-- A doorbell is read from bits 1 and 0 of what the host writes to CTRL (R99). -/
theorem decodeDoorbell_setWidth (v : BitVec 64) :
    decodeDoorbell (v.setWidth 32) =
      if v.getLsbD 1 = true then .ok .srst else if v.getLsbD 0 = true then .ok .start else .error .noDoorbell := by
  simp [decodeDoorbell]

/-- A whole write of CTRL runs the doorbell it rings (R99). -/
theorem fetchHost_ring {v : BitVec 64} {i : Instr} (h : decodeDoorbell (v.setWidth 32) = .ok i) (s : State) :
    fetchHost (.write ctrlOffset 32 v) s = .run i s := by
  simp [fetchHost, h]

/-- A whole write of CTRL that rings no doorbell does nothing (R99). -/
theorem fetchHost_noRing {v : BitVec 64} {e : DecodeError} (h : decodeDoorbell (v.setWidth 32) = .error e) (s : State) :
    fetchHost (.write ctrlOffset 32 v) s = .host s := by
  simp [fetchHost, h]

/-- Settles O4: bit 1, then bit 0, of the word decide what the write of CTRL runs. -/
theorem doorbellWordsRing : Obligations.DoorbellWordsRing := by
  intro s q v hq
  have hf := fetch_cons hq
  have hd := decodeDoorbell_setWidth v
  by_cases h1 : v.getLsbD 1 = true
  · rw [if_pos h1] at hd ⊢
    exact step_run (hf.trans (fetchHost_ring hd _))
  rw [if_neg h1] at hd ⊢
  by_cases h0 : v.getLsbD 0 = true
  · rw [if_pos h0] at hd ⊢
    exact step_run (hf.trans (fetchHost_ring hd _))
  · rw [if_neg h0] at hd ⊢
    exact step_host (hf.trans (fetchHost_noRing hd _))

/-- Settles O6: a pending command and the reset input are fetched as PROCESS and SRST. -/
theorem stepRunsTheHostsOperation : Obligations.StepRunsTheHostsOperation :=
  fun _ _ => ⟨fun _ hq => step_run (fetch_cons hq), fun hq => step_run (fetch_cons hq)⟩

/-- Settles O15: while not BUSY the seven writes land and START is accepted or, in the fault state, dropped; while BUSY all
eight are dropped. -/
theorem processWritesTheDescriptorAndStarts : Obligations.ProcessWritesTheDescriptorAndStarts := by
  refine fun s d => ⟨fun hb hf => ?_, fun hb hf => ?_, fun hb => execProcess_busy hb d⟩
  · exact (execProcess_idle hb d).trans (congrArg _ (startCommand_accept hb hf))
  · exact (execProcess_idle hb d).trans (congrArg _ (startCommand_drop (.inr hf)))

end Sys2Proof.Machine
end

section
/-! SUPPORT. The sequencer stays in its transition table (41_arbiter.md R140, R143; 30_encoding.md R106, R108): the position each
micro-operation leaves to its successor, and the statements O53 and O59 about every step. -/

namespace Sys2Proof.Machine

/-! ### What a position is read from -/

/-- The configuration, the latched flags and XNULL, LENREM, W and TAILMODE of `t` are those of `s`. -/
def SamePosition (s t : State) : Prop :=
  t = { t with cfg := s.cfg, f := s.f, xNull := s.xNull, lenRem := s.lenRem, w := s.w, tailMode := s.tailMode }

/-- A position is read from those registers alone. -/
theorem PositionInv.of_same {s t : State} {i : Instr} (h : SamePosition s t) (hp : PositionInv s i) :
    PositionInv t i := by
  rw [h]
  cases i <;> exact hp

/-- What changes neither UOP nor a register of the position keeps the sequencer in its table. -/
theorem SequencerInv.of_same {s t : State} (h : SamePosition s t) (hu : t.uop = s.uop) (hs : SequencerInv s) :
    SequencerInv t := by
  obtain ⟨i, hd, hp⟩ := hs
  exact ⟨i, hu ▸ hd, hp.of_same h⟩

/-- Only micro-operations have a position, and each has a word. -/
theorem PositionInv.exists_word {s : State} {i : Instr} (hp : PositionInv s i) : ∃ u, encodeUop i = some u := by
  cases i
  case process | start | srst => exact hp.elim
  all_goals exact ⟨_, rfl⟩

/-- A successor whose position holds puts the sequencer in its table. -/
theorem PositionInv.sequencerInv_setUop {s : State} {i : Instr} (hp : PositionInv s i) : SequencerInv (setUop s i) := by
  obtain ⟨u, hu⟩ := hp.exists_word
  exact ⟨i, decodeUop_setUop hu s, hp.of_same rfl⟩

/-! ### Words whose position always holds -/

theorem sequencerInv_of_fault {s : State} (h : s.uop = 0xF0#8) : SequencerInv s :=
  ⟨.fault, h ▸ decodeUop_encodeUop rfl, trivial⟩

theorem sequencerInv_of_idle {s : State} (h : s.uop = 0x00#8) : SequencerInv s :=
  ⟨.idle, h ▸ decodeUop_encodeUop rfl, trivial⟩

theorem sequencerInv_of_setup {s : State} (h : s.uop = 0x10#8) : SequencerInv s :=
  ⟨.setup, h ▸ decodeUop_encodeUop rfl, trivial⟩

/-! ### The micro-operations -/

/-- The successor of a data micro-operation goes on with the same iteration, under the predicate that chose it (R143). -/
theorem PositionInv.dataSuccessor {s : State} {i succ : Instr} (hp : PositionInv s i)
    (h : dataSuccessor s i = some succ) : PositionInv s succ := by
  cases i <;> cases h
  case ldin | ctrgen =>
    obtain ⟨hb, -⟩ := hp
    unfold afterLoad
    cases hx : xorIn s with
    | false => exact hb
    | true => exact ⟨hb, hx⟩
  case ldinT | ctrgenT =>
    obtain ⟨ht, -⟩ := hp
    unfold afterLoadT
    cases hx : xorIn s with
    | false => exact ht
    | true => exact ⟨ht, hx⟩
  case kcall | kcallT =>
    cases hx : xorOut s with
    | false => exact hp
    | true => exact ⟨hp, hx⟩
  case xorin | xorinT | xorout | xoroutT => exact hp.1
  case stout | stoutT => exact hp

/-- A data micro-operation hands its position to its successor, or takes the BUS fault. -/
theorem DataEnd.sequencerInv {s t : State} {succ : Instr} (h : DataEnd s succ t) (hp : PositionInv s succ) :
    SequencerInv t := by
  obtain ⟨v, m, -, rfl | ⟨a, rfl⟩⟩ := h
  · exact PositionInv.sequencerInv_setUop (hp.of_same rfl)
  · exact sequencerInv_of_fault rfl

/-- A batch width ARB selects is a position to start the batch in (R140). -/
theorem batchPosition_of_arbBatch {s : State} {w : Width} (h : arbBatch s = some w) : BatchPosition (setW s w) w := by
  obtain ⟨hw, htail, hP, hl⟩ := arbBatch_some h
  exact ⟨hw, rfl, htail, hP, hl⟩

/-- An iteration starts with CTRGEN in counter mode and with LDIN else (R143). -/
theorem positionInv_batchStart {s : State} {w : Width} (h : BatchPosition s w) :
    PositionInv s (if flagC s then .ctrgen w else .ldin w) := by
  cases hC : flagC s <;> exact ⟨h, hC⟩

theorem positionInv_tailStart {s : State} {w : Width} (h : TailPosition s w) :
    PositionInv s (if flagC s then .ctrgenT w else .ldinT w) := by
  cases hC : flagC s <;> exact ⟨h, hC⟩

/-- ARB's tail path goes through TADJ the first time and starts the tail iteration after (R140). -/
theorem positionInv_arbTail {s : State} (hw : s.w = widthField (narrowest s.cfg))
    (hl : blockBytes s.cfg ≤ s.lenRem.toNat) :
    PositionInv s (if s.tailMode = false then .tadj
      else if flagC s then .ctrgenT (narrowest s.cfg) else .ldinT (narrowest s.cfg)) := by
  cases htail : s.tailMode with
  | false => exact ⟨htail, hw, hl⟩
  | true => exact positionInv_tailStart ⟨rfl, hw, htail, hl⟩

/-- Whatever way a micro-operation ends from its position, its successor stands in its own. -/
theorem UopTo.sequencerInv {s t : State} {i : Instr} (hs : SequencerInv s) (hp : PositionInv s i) (h : UopTo s t i) :
    SequencerInv t := by
  cases h with
  | idle h | fault h => subst h; exact hs
  | setupFault c hf h => subst h; exact sequencerInv_of_fault rfl
  | finish h => subst h; exact sequencerInv_of_idle rfl
  | setup hf h | adv w h | advT w h => subst h; exact PositionInv.sequencerInv_setUop trivial
  | arbBatch w hw h => subst h; exact (positionInv_batchStart (batchPosition_of_arbBatch hw)).sequencerInv_setUop
  | arbTail hw hl h => subst h; exact (positionInv_arbTail (s := setW s (narrowest s.cfg)) rfl hl).sequencerInv_setUop
  | arbFinish hw hl h => subst h; exact PositionInv.sequencerInv_setUop hl
  | tadj h =>
    obtain ⟨-, hw, hl⟩ := hp
    cases h
    exact PositionInv.sequencerInv_setUop (positionInv_tailStart ⟨rfl, hw, rfl, hl⟩)
  | data _ succ hsucc h => exact h.sequencerInv (hp.dataSuccessor hsucc)

/-! ### Every step -/

/-- A write of the host reaches neither UOP nor a register of the position (10_state.md R22). -/
theorem SequencerInv.hostWrite {s : State} (hs : SequencerInv s) (o b : Nat) (v : BitVec 64) :
    SequencerInv (hostWrite s o b v) := by
  obtain ⟨_, _, _, _, _, _, _, h⟩ := hostWrite_frame s o b v
  rw [h]
  exact hs.of_same rfl rfl

/-- START leaves SETUP in UOP, or everything as it was (40_command_setup.md R121). -/
theorem SequencerInv.startCommand {s : State} (hs : SequencerInv s) : SequencerInv (startCommand s) := by
  obtain ⟨-, -, h⟩ | h := startCommand_cases s <;> rw [h]
  · exact sequencerInv_of_setup rfl
  · exact hs

/-- Settles O53: a micro-operation leads from its position to that of its successor, and the host cannot reach what a position
is read from but by a start or a reset. -/
theorem sequencerStaysInItsTable : Obligations.SequencerStaysInItsTable := by
  intro s t hs h
  refine step_invariant (I := SequencerInv) (fun _ _ hi => hi.of_same rfl rfl) ?uop
    (fun _ o b v hi => hi.hostWrite o b v) (fun _ hi => hi.startCommand) (fun _ _ => sequencerInv_of_idle rfl)
    (fun _ _ hi => hi.of_same rfl rfl) (fun _ _ _ hi => hi.of_same rfl rfl) hs h
  case uop => intro u v i hi hd he; exact (uop_next hd he).sequencerInv hi (hi.position hd)

/-- The word of a position is one the instance has, so the sequencer's turn runs it. -/
theorem SequencerInv.fetchUop_run {s : State} (hs : SequencerInv s) : ∃ i, fetchUop s = .run i s := by
  obtain ⟨i, hd, hp⟩ := hs
  exact ⟨i, by simp only [fetchUop, decodeUopFor_ok.mpr ⟨hd, instanceHas_position hp⟩]⟩

/-- Only the sequencer's turn can meet an invalid word. -/
theorem fetchHost_ne_stop {e : HostEvent} {s : State} {f : Fault} (hs : SequencerInv s) : fetchHost e s ≠ .stop f := by
  cases e with
  | turn =>
    obtain ⟨i, hi⟩ := hs.fetchUop_run
    simp [fetchHost, hi]
  | command d | resetInput | read o b => nofun
  | write o b v =>
    simp only [fetchHost]
    split
    · split <;> simp
    · simp
  | store a v => simp only [fetchHost]; split <;> simp

theorem fetch_ne_stop {s : State} {f : Fault} (hs : SequencerInv s) : fetch s ≠ .stop f := by
  cases hq : s.hostq with
  | nil =>
    obtain ⟨i, hi⟩ := hs.fetchUop_run
    simp [fetch_nil hq, hi]
  | cons e q =>
    rw [fetch_cons hq]
    exact fetchHost_ne_stop (hs.of_same rfl rfl)

/-- Settles O59: in its table the sequencer meets no invalid word, and no operation is a fault of the model. -/
theorem reservedWordsAreNeverMet : Obligations.ReservedWordsAreNeverMet := by
  intro s f hs h
  unfold step at h
  cases hf : fetch s with
  | run i t => rw [hf] at h; exact exec_ne_fault i t f h
  | host t | refuse r => rw [hf] at h; cases h
  | stop g => exact fetch_ne_stop hs hf

end Sys2Proof.Machine
end

section
/-! SUPPORT. START and SETUP (40_command_setup.md R121 to R130): the doorbell's condition, SETUP's checks and the state it
starts a command from, the end of a command shorter than a block, and the statements O14, O21, O22 and O24. -/

namespace Sys2Proof.Machine

/-! ### START (R121) -/

/-- Settles O14: `startCommand` is all that START does. -/
theorem startAcceptedOnlyWhenIdle : Obligations.StartAcceptedOnlyWhenIdle :=
  fun _ => ⟨rfl, fun hb hf => congrArg Host.Outcome.next (startCommand_accept hb hf),
    fun h => congrArg Host.Outcome.next (startCommand_drop h)⟩

/-! ### SETUP's two ends (R122) -/

theorem exec_setup_of_fault {s : State} {c : Cause} (h : setupFault (latch s) = some c) :
    exec .setup s = .next (raiseFault (latch s) c 0) := by
  simp only [exec, execSetup, h]

theorem exec_setup_of_no_fault {s : State} (h : setupFault (latch s) = none) :
    exec .setup s = .next (setUop (initCommand (latch s)) .arb) := by
  simp only [exec, execSetup, h]

/-! ### The checks (R124) -/

/-- SETUP's checks, said of the operand registers. -/
theorem setupFault_latch (s : State) :
    setupFault (latch s) =
      if s.subkeys = 0#64 then some .nullSubkeys
      else if s.inPtr = 0#64 then some .nullIn
      else if s.outPtr = 0#64 then some .nullOut
      else if s.length.toNat < blockBytes s.cfg ∧ s.cfg.assertEn = true then some .lenShort
      else if s.flags.extractLsb' 5 27 ≠ 0#27 then some .badFlags
      else if s.flags.getLsbD 0 = true ∧ s.flags.getLsbD 3 = true ∧ s.cfg.crPolicy = .refuse then some .crRefused
      else none := by
  rw [← flagC_latch, ← flagR_latch]; rfl

/-- The length test lets a command pass that has a block, or any command where it is switched off (R130). -/
theorem not_lenShort {s : State} (h : blockBytes s.cfg ≤ s.length.toNat ∨ s.cfg.assertEn = false) :
    ¬(s.length.toNat < blockBytes s.cfg ∧ s.cfg.assertEn = true) := by
  rintro ⟨hl, ha⟩
  obtain hB | hoff := h
  · exact absurd hl (Nat.not_lt.mpr hB)
  · exact absurd (ha.symm.trans hoff) (by decide)

/-- Settles O21: each clause passes the tests before its own. -/
theorem setupChecksInOrder : Obligations.SetupChecksInOrder := by
  rintro s l rfl
  refine ⟨fun hsk => exec_setup_of_fault ?_, fun hsk hin => exec_setup_of_fault ?_,
    fun hsk hin hout => exec_setup_of_fault ?_, fun hsk hin hout hl ha => exec_setup_of_fault ?_,
    fun hsk hin hout hlen => ⟨fun hbad => exec_setup_of_fault ?_, fun hfl hC hR hcr => exec_setup_of_fault ?_⟩⟩ <;>
    rw [setupFault_latch]
  · rw [if_pos hsk]
  · rw [if_neg hsk, if_pos hin]
  · rw [if_neg hsk, if_neg hin, if_pos hout]
  · rw [if_neg hsk, if_neg hin, if_neg hout, if_pos ⟨hl, ha⟩]
  · rw [if_neg hsk, if_neg hin, if_neg hout, if_neg (not_lenShort hlen), if_pos hbad]
  · rw [if_neg hsk, if_neg hin, if_neg hout, if_neg (not_lenShort hlen), if_neg (not_not_intro hfl),
      if_pos ⟨hC, hR, hcr⟩]

/-- A command that meets the preconditions passes every check. -/
theorem setupFault_latch_eq_none {s : State} (hsk : s.subkeys ≠ 0#64) (hin : s.inPtr ≠ 0#64) (hout : s.outPtr ≠ 0#64)
    (hlen : blockBytes s.cfg ≤ s.length.toNat ∨ s.cfg.assertEn = false) (hfl : s.flags.extractLsb' 5 27 = 0#27)
    (hcr : ¬(s.flags.getLsbD 0 = true ∧ s.flags.getLsbD 3 = true ∧ s.cfg.crPolicy = .refuse)) :
    setupFault (latch s) = none := by
  rw [setupFault_latch, if_neg hsk, if_neg hin, if_neg hout, if_neg (not_lenShort hlen), if_neg (not_not_intro hfl),
    if_neg hcr]

/-! ### The state a command starts from (R126 to R129) -/

theorem startStride_eq (frozen reverse : Bool) :
    startStride frozen reverse = if frozen = true then 0#64 else if reverse = true then -16#64 else 16#64 := by
  cases frozen <;> cases reverse <;> rfl

/-- Settles O22: no check fails, and the strides are `startStride` of the latched flags. -/
theorem setupInitialisesTheCommand : Obligations.SetupInitialisesTheCommand := by
  intro s hsk hin hout hlen hfl hcr
  rw [exec_setup_of_no_fault (setupFault_latch_eq_none hsk hin hout hlen hfl hcr)]
  have hinStr : startStride (flagC (latch s) || flagD (latch s)) (flagR (latch s)) =
      if s.flags.getLsbD 0 = true ∨ s.flags.getLsbD 1 = true then 0#64
      else if s.flags.getLsbD 3 = true then -16#64 else 16#64 := by
    simp only [startStride_eq, flagC_latch, flagD_latch, flagR_latch, Bool.or_eq_true]
  have hxorStr : startStride (latch s).xNull (flagR (latch s)) =
      if s.xorPtr = 0#64 then 0#64 else if s.flags.getLsbD 3 = true then -16#64 else 16#64 := by
    simp only [startStride_eq, flagR_latch, latch_xNull, beq_iff_eq, nullp]
  have houtStr : startStride (flagD (latch s)) (flagR (latch s)) =
      if s.flags.getLsbD 1 = true then 0#64 else if s.flags.getLsbD 3 = true then -16#64 else 16#64 := by
    simp only [startStride_eq, flagD_latch, flagR_latch]
  rw [← hinStr, ← hxorStr, ← houtStr, ← flagR_latch]
  rfl

/-! ### A command shorter than a block (R130) -/

/-- A member of BATCHSET takes more than a block (41_arbiter.md R140). -/
theorem blockBytes_lt_of_mem_batchSet {c : Config} {w : Width} (h : w ∈ batchSet c) :
    blockBytes c < w.regs * vecBytes := by
  simpa using (List.mem_filter.mp h).2

theorem arbBatch_eq_none_of_short {s : State} (h : s.lenRem.toNat < blockBytes s.cfg) : arbBatch s = none := by
  refine Option.eq_none_iff_forall_ne_some.mpr fun w hw => ?_
  obtain ⟨hmem, -, -, hfits⟩ := arbBatch_some hw
  have := blockBytes_lt_of_mem_batchSet hmem
  omega

/-- With less than a block left ARB goes to FINISH (41_arbiter.md R140). -/
theorem exec_arb_of_short {s : State} (h : s.lenRem.toNat < blockBytes s.cfg) :
    exec .arb s = .next (setUop s .finish) := by
  simp only [exec, execArb, arbBatch_eq_none_of_short h, if_neg (Nat.not_le.mpr h)]

/-- From ARB with less than a block left two steps end the command, with what is left as its result (41_arbiter.md R140,
44_tail.md R190). -/
theorem run_arb_of_short {s : State} (hq : s.hostq = []) (hd : decodeUopFor s.cfg s.uop = .ok .arb)
    (hl : s.lenRem.toNat < blockBytes s.cfg) :
    Host.Core.run Sys2Proof.core 2 s =
      .next { s with remainder := s.lenRem, busy := false, done := true, uop := 0x00#8 } := by
  have harb : step s = .next (setUop s .finish) := (step_uop hq hd).trans (exec_arb_of_short hl)
  have hfinish : step (setUop s .finish) = exec .finish (setUop s .finish) :=
    step_uop hq (decodeUopFor_setUop rfl rfl)
  exact (run_succ harb).trans (run_succ hfinish)

/-- Settles O24: SETUP passes, ARB finds no block in LENREM = LENGTH, FINISH hands it over as REMAINDER. -/
theorem shortCommandConsumesNothing : Obligations.ShortCommandConsumesNothing := by
  intro s hq hu hsk hin hout hfl hcr ha hl
  have hdec : decodeUopFor s.cfg s.uop = .ok .setup := hu ▸ decodeUopFor_encodeUop rfl rfl
  have hpass : setupFault (latch s) = none := setupFault_latch_eq_none hsk hin hout (.inr ha) hfl hcr
  have hsetup := (step_uop hq hdec).trans (exec_setup_of_no_fault hpass)
  have hend := run_arb_of_short (s := setUop (initCommand (latch s)) .arb) hq (decodeUopFor_setUop rfl rfl) hl
  exact ⟨_, (run_succ hsetup).trans hend, rfl, rfl, rfl, rfl, rfl, rfl, fun _ => rfl⟩

end Sys2Proof.Machine
end

section
/-! SUPPORT. The arbiter and the run of a command (41_arbiter.md R140, R143 to R145; 44_tail.md R192; 70_reset_and_hazards.md
R260): what a turn of the sequencer runs, the batch ARB picks, the length left over every step, the number of
micro-operations a command still takes, and the statements O5, O8, O26, O56 and O60. -/

namespace Sys2Proof.Machine

/-! ### The sequencer's turn (R143, R145) -/

/-- What `decodeUopFor` reads in UOP stands next when the host does nothing. -/
theorem fetchUop_run {s : State} {i : Instr} (h : decodeUopFor s.cfg s.uop = .ok i) : fetchUop s = .run i s := by
  simp only [fetchUop, h]

/-- Settles O5: with an empty queue and with the host's turn at its head the sequencer's micro-operation stands next. -/
theorem stepRunsTheDecodedMicroOperation : Obligations.StepRunsTheDecodedMicroOperation :=
  fun _ _ hd => ⟨fun hq => step_uop hq hd, fun _ hq => step_run ((fetch_cons hq).trans (fetchUop_run hd))⟩

/-- Settles O8: the meanings of the two words are the identity. -/
theorem idleAndFaultWordsChangeNothing : Obligations.IdleAndFaultWordsChangeNothing :=
  fun _ => ⟨rfl, rfl⟩

/-! ### The widest batch (R140) -/

theorem pairwise_of_widthsDecreasing {l : List Width} (h : widthsDecreasing l = true) :
    l.Pairwise fun v w => w.regs < v.regs := by
  rw [← List.isChain_iff_pairwise]
  induction l with
  | nil => exact .nil
  | cons a l ih =>
    cases l with
    | nil => exact .singleton a
    | cons b l =>
      simp only [widthsDecreasing, Bool.and_eq_true, decide_eq_true_eq] at h
      exact .cons_cons h.1 (ih h.2)

/-- BATCHSET is in `KW` order, the widest first (00_scope.md R5, R6). -/
theorem pairwise_batchSet {c : Config} (h : Config.wf c = true) :
    (batchSet c).Pairwise fun v w => w.regs < v.regs := by
  simp only [Config.wf, Bool.and_eq_true] at h
  exact (pairwise_of_widthsDecreasing h.2).filter _

/-- In decreasing order the first width that fits is the widest that fits. -/
theorem find?_eq_some_of_widest {l : List Width} {p : Width → Bool} {w : Width}
    (hl : l.Pairwise fun v w => w.regs < v.regs) (hw : w ∈ l) (hp : p w = true)
    (hmax : ∀ v ∈ l, p v = true → v.regs ≤ w.regs) : l.find? p = some w := by
  cases hf : l.find? p with
  | none => exact absurd hp (List.find?_eq_none.mp hf w hw)
  | some v =>
    obtain ⟨hpv, before, after, rfl, hbefore⟩ := List.find?_eq_some_iff_append.mp hf
    have hv : v.regs ≤ w.regs := hmax v (by simp) hpv
    obtain hw | rfl | hw : w ∈ before ∨ w = v ∨ w ∈ after := by simpa using hw
    · exact absurd hp (by simpa using hbefore w hw)
    · rfl
    · obtain ⟨-, hafter, -⟩ := List.pairwise_append.mp hl
      exact absurd hv (Nat.not_le.mpr ((List.pairwise_cons.mp hafter).1 w hw))

/-- ARB picks the widest member of BATCHSET that LENREM allows. -/
theorem arbBatch_eq_some_of_widest {s : State} {w : Width} (hc : Config.wf s.cfg = true) (hw : w ∈ batchSet s.cfg)
    (htail : s.tailMode = false) (hP : flagP s = true) (hfits : w.regs * vecBytes ≤ s.lenRem.toNat)
    (hmax : ∀ v ∈ batchSet s.cfg, v.regs * vecBytes ≤ s.lenRem.toNat → v.regs ≤ w.regs) : arbBatch s = some w := by
  rw [arbBatch, if_pos ⟨htail, hP⟩]
  exact find?_eq_some_of_widest (pairwise_batchSet hc) hw (by simpa using hfits)
    fun v hv h => hmax v hv (by simpa using h)

/-- ARB picks no batch once in the tail, without `P`, or where none fits. -/
theorem arbBatch_eq_none {s : State}
    (h : s.tailMode = true ∨ flagP s = false ∨ ∀ v ∈ batchSet s.cfg, s.lenRem.toNat < v.regs * vecBytes) :
    arbBatch s = none := by
  refine Option.eq_none_iff_forall_ne_some.mpr fun w hw => ?_
  obtain ⟨hmem, htail, hP, hfits⟩ := arbBatch_some hw
  obtain h | h | h := h
  · exact absurd (h.symm.trans htail) (by decide)
  · exact absurd (h.symm.trans hP) (by decide)
  · exact absurd hfits (Nat.not_le.mpr (h w hmem))

theorem exec_arb_of_batch {s : State} {w : Width} (h : arbBatch s = some w) :
    exec .arb s = .next (setUop (setW s w) (if flagC s then .ctrgen w else .ldin w)) := by
  simp only [exec, execArb, h]

theorem exec_arb_of_tail {s : State} (h : arbBatch s = none) (hl : blockBytes s.cfg ≤ s.lenRem.toNat) :
    exec .arb s = .next (setUop (setW s (narrowest s.cfg)) (if s.tailMode = false then .tadj
      else if flagC s then .ctrgenT (narrowest s.cfg) else .ldinT (narrowest s.cfg))) := by
  simp only [exec, execArb, h, if_pos hl]

/-- A data operation as successor, its word as the map lists it (30_encoding.md R107). -/
theorem setUop_data {i : Instr} {op : BitVec 4} {t : Bool} {w : Width}
    (h : encodeUop i = some (uopWord op t (widthField w))) (s : State) :
    setUop s i = { s with uop := uopWord op t 0#3 + BitVec.ofNat 8 w.regs } := by
  rw [← uopWord_widthField, setUop, h, Option.getD_some]

theorem setUop_batchStart (s : State) (w : Width) :
    setUop s (if flagC s then .ctrgen w else .ldin w) =
      { s with uop := (if s.f.getLsbD 0 = true then 0x50#8 else 0x40#8) + BitVec.ofNat 8 w.regs } := by
  rw [flagC]
  split
  · exact setUop_data (op := 0x5#4) (t := false) rfl s
  · exact setUop_data (op := 0x4#4) (t := false) rfl s

theorem setUop_tailStart (s : State) (w : Width) :
    setUop s (if flagC s then .ctrgenT w else .ldinT w) =
      { s with uop := (if s.f.getLsbD 0 = true then 0x58#8 else 0x48#8) + BitVec.ofNat 8 w.regs } := by
  rw [flagC]
  split
  · exact setUop_data (op := 0x5#4) (t := true) rfl s
  · exact setUop_data (op := 0x4#4) (t := true) rfl s

/-- Settles O26: the three ways of ARB, each successor by its word. -/
theorem arbPicksTheWidestBatch : Obligations.ArbPicksTheWidestBatch := by
  refine fun s hc => ⟨decodeUop_encodeUop rfl, fun w hw htail hP hfits hmax => ?_,
    fun hnone => ⟨fun hl => ?_, fun hl => ?_⟩⟩
  · rw [exec_arb_of_batch (arbBatch_eq_some_of_widest hc hw htail hP hfits hmax)]
    exact congrArg _ (setUop_batchStart (setW s w) w)
  · rw [exec_arb_of_tail (arbBatch_eq_none hnone) hl]
    by_cases htail : s.tailMode = false
    · rw [if_pos htail, if_pos htail]
      rfl
    · rw [if_neg htail, if_neg htail]
      exact congrArg _ (setUop_tailStart (setW s (narrowest s.cfg)) (narrowest s.cfg))
  · exact exec_arb_of_short hl

/-! ### The length left (R144, R192) -/

/-- The length left is LENGTH less whole blocks. -/
def LengthLeft (s : State) : Prop :=
  s.lenRem.toNat ≤ s.length.toNat ∧ s.lenRem.toNat % blockBytes s.cfg = s.length.toNat % blockBytes s.cfg

theorem lengthInv_iff (s : State) : LengthInv s ↔ (Running s → LengthLeft s) := Iff.rfl

/-- A fault is taken and nothing runs (60_exceptions.md R214). -/
def Faulted (s : State) : Prop := s.uop = 0xF0#8 ∧ s.fault = true ∧ s.busy = false

theorem faulted_raiseFault (s : State) (c : Cause) (a : Addr) : Faulted (raiseFault s c a) := ⟨rfl, rfl, rfl⟩

/-- A width consumes a whole number of blocks (41_arbiter.md R140). -/
theorem regs_mul_vecBytes (c : Config) (w : Width) :
    w.regs * vecBytes = blockBytes c * (w.regs * lanesPerReg c) := by
  rw [Nat.mul_left_comm, Nat.mul_comm (blockBytes c), lanes_mul_block, vecBytes]

/-- An advance by what is there lowers LENREM without wrapping. -/
theorem lenRem_advance_toNat {s : State} {bytes : Nat} (n : Nat) (h : bytes ≤ s.lenRem.toNat) :
    (advance s n bytes).lenRem.toNat = s.lenRem.toNat - bytes := by
  have hlt : bytes < 2 ^ 64 := Nat.lt_of_le_of_lt h s.lenRem.isLt
  rw [advance_lenRem]
  bv_omega

/-- An advance by whole blocks keeps the remainder. -/
theorem LengthLeft.advance {s : State} {k : Nat} (n : Nat) (hs : LengthLeft s)
    (h : blockBytes s.cfg * k ≤ s.lenRem.toNat) : LengthLeft (advance s n (blockBytes s.cfg * k)) := by
  obtain ⟨hle, hmod⟩ := hs
  refine ⟨?_, ?_⟩ <;> rw [lenRem_advance_toNat n h]
  · exact (Nat.sub_le _ _).trans hle
  · exact (Nat.sub_mul_mod h).trans hmod

/-- SETUP sets the length left to LENGTH, the two advances lower it by whole blocks, every other micro-operation leaves it, or
takes a fault. -/
theorem UopTo.lengthLeft {s t : State} {i : Instr} (hp : PositionInv s i) (hl : i ≠ .setup → LengthLeft s)
    (h : UopTo s t i) : LengthLeft t ∨ Faulted t := by
  cases h with
  | setupFault c hf h => subst h; exact .inr (faulted_raiseFault _ _ _)
  | setup hf h => subst h; exact .inl ⟨Nat.le_refl _, rfl⟩
  | idle h | fault h | finish h => subst h; exact .inl (hl nofun)
  | arbBatch w hw h | arbTail hw hB h | arbFinish hw hB h => subst h; exact .inl (hl nofun)
  | tadj h => cases h; exact .inl (hl nofun)
  | data _ succ hs h =>
    obtain ⟨v, m, -, rfl | ⟨a, rfl⟩⟩ := h
    · exact .inl (hl (dataSuccessor_setup hs))
    · exact .inr (faulted_raiseFault _ _ _)
  | adv w h =>
    obtain ⟨-, -, -, -, hfits⟩ := hp
    rw [regs_mul_vecBytes s.cfg] at h hfits
    exact .inl (h ▸ (hl nofun).advance w.regs hfits)
  | advT w h =>
    obtain ⟨-, -, -, hB⟩ := hp
    rw [← Nat.mul_one (blockBytes s.cfg)] at h hB
    exact .inl (h ▸ (hl nofun).advance 1 hB)

/-- No micro-operation sets BUSY (10_state.md R49). -/
theorem UopTo.busy_before {s t : State} {i : Instr} (h : UopTo s t i) (hb : t.busy = true) : s.busy = true := by
  cases h with
  | setupFault c hf h | finish h => subst h; cases hb
  | data _ succ hs h =>
    obtain ⟨v, m, -, rfl | ⟨a, rfl⟩⟩ := h
    · exact hb
    · cases hb
  | tadj h => cases h; exact hb
  | idle h | fault h | setup hf h | adv w h | advT w h => subst h; exact hb
  | arbBatch w hw h | arbTail hw hB h | arbFinish hw hB h => subst h; exact hb

theorem UopTo.lengthInv {s t : State} {i : Instr} (hp : PositionInv s i) (hs : LengthInv s)
    (hd : decodeUop s.uop = .ok i) (h : UopTo s t i) : LengthInv t := by
  refine (lengthInv_iff t).mpr fun ⟨hb, _⟩ => ?_
  have hbs : s.busy = true := h.busy_before hb
  obtain hl | ⟨-, -, hidle⟩ := h.lengthLeft hp fun hi => hs (running_of_decode hd hi hbs)
  · exact hl
  · exact absurd (hb.symm.trans hidle) (by decide)

/-- While BUSY a write of the host is dropped, else no command runs (10_state.md R22). -/
theorem hostWrite_eq_of_running {s : State} {o b : Nat} {v : BitVec 64} (h : Running (hostWrite s o b v)) :
    hostWrite s o b v = s := by
  cases hb : s.busy with
  | true => exact hostWrite_busy hb o b v
  | false =>
    obtain ⟨hbusy, -⟩ := h
    obtain ⟨_, _, _, _, _, _, _, hw⟩ := hostWrite_frame s o b v
    rw [hw] at hbusy
    exact absurd (hb.symm.trans hbusy) (by decide)

/-- A START that is accepted leaves the command at its SETUP (40_command_setup.md R121). -/
theorem startCommand_eq_of_running {s : State} (h : Running (startCommand s)) : startCommand s = s := by
  obtain ⟨-, -, hs⟩ | hs := startCommand_cases s
  · rw [hs] at h
    exact absurd rfl h.2
  · exact hs

theorem LengthInv.of_eq_of_running {s t : State} (hs : LengthInv s) (h : Running t → t = s) : LengthInv t := by
  intro hr
  cases h hr
  exact hs hr

/-- Settles O56: the sequencer consumes whole blocks that are there, the host cannot change LENGTH of a running command, and a
start, a fault and a reset leave none running past SETUP. -/
theorem lengthLeftKeepsTheRemainder : Obligations.LengthLeftKeepsTheRemainder := by
  intro s t hseq hs h
  obtain ⟨q, h⟩ := step_next h
  have hseq' : SequencerInv { s with hostq := q } := hseq
  have hs' : LengthInv { s with hostq := q } := hs
  cases h with
  | uop i hd h => exact (uop_next hd h).lengthInv (hseq'.position hd) hs' hd
  | process d hf h =>
    exact execProcess_next h (fun _ _ _ _ hi => hi.of_eq_of_running hostWrite_eq_of_running)
      (fun _ hi => hi.of_eq_of_running startCommand_eq_of_running) hs'
  | start hf h => subst h; exact hs'.of_eq_of_running startCommand_eq_of_running
  | srst hf h => subst h; exact fun ⟨hb, _⟩ => nomatch hb
  | write o b v h => subst h; exact hs'.of_eq_of_running hostWrite_eq_of_running
  | read v h | nothing h | store a v hb h => subst h; exact hs'

/-! ### How long a command takes (R260) -/

/-- The whole blocks of the length left. -/
def blocksLeft (s : State) : Nat := s.lenRem.toNat / blockBytes s.cfg

theorem blocksLeft_pos {s : State} (h : blockBytes s.cfg ≤ s.lenRem.toNat) : 0 < blocksLeft s := by
  refine Nat.div_pos h ?_
  obtain hB | hB := blockBytes_cases s.cfg <;> omega

theorem blocksLeft_advance {s : State} {k : Nat} (n : Nat) (h : blockBytes s.cfg * k ≤ s.lenRem.toNat) :
    blocksLeft (advance s n (blockBytes s.cfg * k)) = blocksLeft s - k := by
  rw [blocksLeft, lenRem_advance_toNat n h]
  exact Nat.sub_mul_div _ _ _

/-- The most micro-operations from ARB with `n` blocks left to the end: six a block, ARB and FINISH, and TADJ where it is
still to come. -/
def opsFromArb (tail : Bool) (n : Nat) : Nat := 6 * n + if tail then 2 else 3

/-- The most micro-operations from one of an iteration to its ADV, both counted: one of the two masks at most is applied
(00_scope.md R12, 41_arbiter.md R143). -/
def opsToAdv (s : State) : Instr → Nat
  | .ldin _ | .ldinT _ | .ctrgen _ | .ctrgenT _ => 5
  | .xorin _ | .xorinT _ => 4
  | .kcall _ | .kcallT _ => if xorOut s then 4 else 3
  | .xorout _ | .xoroutT _ => 3
  | .stout _ | .stoutT _ => 2
  | .adv _ | .advT _ => 1
  | _ => 0

/-- The most micro-operations that the command standing at `i` still takes. An iteration in progress consumes one block or
more. -/
def opsLeft (s : State) : Instr → Nat
  | .setup => 6 * (s.length.toNat / blockBytes s.cfg) + 4
  | .arb => opsFromArb s.tailMode (blocksLeft s)
  | .tadj => opsFromArb true (blocksLeft s)
  | .finish => 1
  | i => opsFromArb s.tailMode (blocksLeft s - 1) + opsToAdv s i

theorem opsFromArb_pos (tail : Bool) (n : Nat) : 0 < opsFromArb tail n := by
  unfold opsFromArb
  split <;> omega

theorem opsLeft_pos (s : State) (i : Instr) : 0 < opsLeft s i := by
  cases i
  case setup => exact Nat.succ_pos _
  case finish => exact Nat.one_pos
  case arb | tadj => exact opsFromArb_pos _ _
  all_goals exact Nat.add_pos_left (opsFromArb_pos _ _) _

theorem xorOut_eq_false_of_xorIn {s : State} (h : xorIn s = true) : xorOut s = false := by
  simp only [xorIn, Bool.and_eq_true] at h
  simp [xorOut, h.1]

/-- Within an iteration each micro-operation leaves less to do, and its successor is still to come. -/
theorem opsToAdv_dataSuccessor {s : State} {i succ : Instr} (hp : PositionInv s i)
    (h : dataSuccessor s i = some succ) : 0 < opsToAdv s succ ∧ opsToAdv s succ < opsToAdv s i := by
  cases i <;> cases h
  case ldin | ctrgen | ldinT | ctrgenT =>
    simp only [afterLoad, afterLoadT]
    split
    · simp [opsToAdv]
    · cases hx : xorOut s <;> simp [opsToAdv, hx]
  case xorin | xorinT =>
    obtain ⟨-, hx⟩ := hp
    simp [opsToAdv, xorOut_eq_false_of_xorIn hx]
  case kcall | kcallT => cases hx : xorOut s <;> simp [opsToAdv, hx]
  all_goals simp [opsToAdv]

/-- An iteration in progress has its blocks still to consume. -/
theorem opsLeft_of_opsToAdv_pos {s : State} {i : Instr} (h : 0 < opsToAdv s i) :
    opsLeft s i = opsFromArb s.tailMode (blocksLeft s - 1) + opsToAdv s i := by
  cases i
  case setup | arb | tadj | finish => exact absurd h (Nat.lt_irrefl 0)
  all_goals rfl

theorem opsLeft_dataSuccessor {s : State} {i succ : Instr} (hp : PositionInv s i)
    (h : dataSuccessor s i = some succ) : opsLeft s succ < opsLeft s i := by
  obtain ⟨hpos, hlt⟩ := opsToAdv_dataSuccessor hp h
  rw [opsLeft_of_opsToAdv_pos hpos, opsLeft_of_opsToAdv_pos (hpos.trans hlt)]
  exact Nat.add_lt_add_left hlt _

/-- An iteration is shorter than the six micro-operations of the block it consumes at least. -/
theorem opsFromArb_pred_lt (tail : Bool) {n : Nat} (h : 0 < n) : opsFromArb tail (n - 1) + 5 < opsFromArb tail n := by
  unfold opsFromArb
  omega

theorem opsLeft_batchStart (s : State) (w : Width) :
    opsLeft s (if flagC s then .ctrgen w else .ldin w) = opsFromArb s.tailMode (blocksLeft s - 1) + 5 := by
  split <;> rfl

theorem opsLeft_tailStart (s : State) (w : Width) :
    opsLeft s (if flagC s then .ctrgenT w else .ldinT w) = opsFromArb s.tailMode (blocksLeft s - 1) + 5 := by
  split <;> rfl

/-- An advance by one block or more leaves no more to do than an advance by one. -/
theorem opsLeft_arb_advance {s : State} {k : Nat} (n : Nat) (hk : 0 < k) (h : blockBytes s.cfg * k ≤ s.lenRem.toNat) :
    opsLeft (advance s n (blockBytes s.cfg * k)) .arb < opsFromArb s.tailMode (blocksLeft s - 1) + 1 := by
  rw [opsLeft, blocksLeft_advance n h, advance_tailMode]
  unfold opsFromArb
  omega

/-- The command goes on from `i` in `t`, at a micro-operation with less left to do. -/
def GoesOn (s t : State) (i : Instr) : Prop :=
  ∃ j, decodeUop t.uop = .ok j ∧ runsCommand j = true ∧ opsLeft t j < opsLeft s i

theorem exists_word_of_runsCommand {i : Instr} (h : runsCommand i = true) : ∃ u, encodeUop i = some u := by
  simp only [runsCommand, Bool.and_eq_true, Option.isSome_iff_exists] at h
  exact h.1.1

/-- With such a micro-operation as successor the command goes on. -/
theorem goesOn_setUop {s u : State} {i j : Instr} (hj : runsCommand j = true) (hlt : opsLeft u j < opsLeft s i) :
    GoesOn s (setUop u j) i := by
  obtain ⟨w, hw⟩ := exists_word_of_runsCommand hj
  exact ⟨j, decodeUop_setUop hw u, hj, hlt⟩

/-- A micro-operation of a running command other than FINISH takes a fault or brings the command's end nearer. -/
theorem UopTo.goesOn {s t : State} {i : Instr} (hp : PositionInv s i) (hi : runsCommand i = true) (hne : i ≠ .finish)
    (h : UopTo s t i) : Faulted t ∨ GoesOn s t i := by
  cases h with
  | idle h | fault h => cases hi
  | finish h => exact absurd rfl hne
  | setupFault c hf h => subst h; exact .inl (faulted_raiseFault _ _ _)
  | setup hf h => subst h; exact .inr (goesOn_setUop rfl (Nat.lt_succ_self _))
  | arbBatch w hw h =>
    subst h
    obtain ⟨hmem, -, -, hfits⟩ := arbBatch_some hw
    have hB : blockBytes s.cfg ≤ s.lenRem.toNat := (blockBytes_lt_of_mem_batchSet hmem).le.trans hfits
    refine .inr (goesOn_setUop (by split <;> rfl) ?_)
    exact (opsLeft_batchStart (setW s w) w).trans_lt (opsFromArb_pred_lt _ (blocksLeft_pos hB))
  | arbTail hw hB h =>
    subst h
    refine .inr (goesOn_setUop (by split; rfl; split <;> rfl) ?_)
    cases htail : s.tailMode with
    | false =>
      simp only [if_true, opsLeft, htail]
      exact Nat.lt_succ_self _
    | true =>
      exact (opsLeft_tailStart (setW s (narrowest s.cfg)) (narrowest s.cfg)).trans_lt
        (opsFromArb_pred_lt _ (blocksLeft_pos hB))
  | arbFinish hw hB h =>
    subst h
    refine .inr (goesOn_setUop rfl ?_)
    simp only [opsLeft, opsFromArb]
    split <;> omega
  | tadj h =>
    cases h
    obtain ⟨-, -, hB⟩ := hp
    refine .inr (goesOn_setUop (by split <;> rfl) ?_)
    exact (opsLeft_tailStart _ (narrowest s.cfg)).trans_lt (opsFromArb_pred_lt true (blocksLeft_pos hB))
  | data _ succ hs h =>
    obtain ⟨v, m, -, rfl | ⟨a, rfl⟩⟩ := h
    · exact .inr (goesOn_setUop (runsCommand_dataSuccessor hs).2 (opsLeft_dataSuccessor hp hs))
    · exact .inl (faulted_raiseFault _ _ _)
  | adv w h =>
    obtain ⟨-, -, -, -, hfits⟩ := hp
    rw [regs_mul_vecBytes s.cfg] at h hfits
    subst h
    exact .inr (goesOn_setUop rfl (opsLeft_arb_advance _ (Nat.mul_pos (regs_pos w) (lanes_pos _)) hfits))
  | advT w h =>
    obtain ⟨-, -, -, hB⟩ := hp
    rw [← Nat.mul_one (blockBytes s.cfg)] at h hB
    subst h
    exact .inr (goesOn_setUop rfl (opsLeft_arb_advance _ Nat.one_pos hB))

/-- No micro-operation touches the host's queue (entry 7). -/
theorem UopTo.hostq {s t : State} {i : Instr} (h : UopTo s t i) : t.hostq = s.hostq := by
  cases h with
  | data _ succ hs h => obtain ⟨v, m, -, rfl | ⟨a, rfl⟩⟩ := h <;> rfl
  | tadj h => cases h; rfl
  | idle h | fault h | finish h | adv w h | advT w h => subst h; rfl
  | setupFault c hf h | setup hf h => subst h; rfl
  | arbBatch w hw h | arbTail hw hB h | arbFinish hw hB h => subst h; rfl

/-- The command of `s` stands at `i`, with nothing of the host pending and no device memory. -/
structure UnderWay (s : State) (i : Instr) : Prop where
  alone : s.hostq = []
  noDevice : NoDevice s
  word : decodeUop s.uop = .ok i
  works : runsCommand i = true
  position : PositionInv s i
  length : i ≠ .setup → LengthLeft s

/-- The command of `s` is over in `t`: faulted, or finished with its remainder and the operands as they were. -/
def CommandOver (s t : State) : Prop :=
  Faulted t ∨ (t.uop = 0x00#8 ∧ t.done = true ∧ t.busy = false ∧
    t.remainder.toNat = s.length.toNat % blockBytes s.cfg ∧ SameOperands s t)

theorem SameOperands.trans {r s t : State} (h : SameOperands r s) (h' : SameOperands s t) : SameOperands r t := by
  obtain ⟨h1, h2, h3, h4, h5, h6, h7⟩ := h
  obtain ⟨g1, g2, g3, g4, g5, g6, g7⟩ := h'
  exact ⟨g1.trans h1, g2.trans h2, g3.trans h3, g4.trans h4, g5.trans h5, g6.trans h6, g7.trans h7⟩

/-- The end of the same command, seen from an earlier state of it. -/
theorem CommandOver.of_sameOperands {r s t : State} (ho : SameOperands r s) (hc : s.cfg = r.cfg) (h : CommandOver s t) :
    CommandOver r t := by
  obtain hf | ⟨hu, hd, hb, hr, hst⟩ := h
  · exact .inl hf
  · have ⟨_, _, _, _, _, hlen, _⟩ := ho
    exact .inr ⟨hu, hd, hb, by rw [hr, hlen, hc], ho.trans hst⟩

/-- FINISH hands over what is left, which is LENGTH mod `B` (44_tail.md R190, R192). -/
theorem UnderWay.commandOver_finish {s t : State} (hs : UnderWay s .finish) (h : exec .finish s = .next t) :
    CommandOver s t := by
  cases h
  obtain ⟨-, hmod⟩ := hs.length nofun
  have hlt : s.lenRem.toNat < blockBytes s.cfg := hs.position
  exact .inr ⟨rfl, rfl, rfl, (Nat.mod_eq_of_lt hlt).symm.trans hmod, .refl _⟩

/-- One step of a command under way ends it or brings its end nearer. -/
theorem UnderWay.step {s : State} {i : Instr} (hs : UnderWay s i) :
    ∃ t, step s = .next t ∧ SameOperands s t ∧ t.cfg = s.cfg ∧
      (CommandOver s t ∨ ∃ j, UnderWay t j ∧ opsLeft t j < opsLeft s i) := by
  obtain ⟨t, ht⟩ := exec_goes_on hs.noDevice i
  have hto : UopTo s t i := uop_next hs.word ht
  obtain ⟨hcfg, hport⟩ := hto.sameWiring
  refine ⟨t, (step_position hs.alone hs.word hs.position).trans ht, hto.sameOperands, hcfg, ?_⟩
  by_cases hne : i = .finish
  · subst hne
    exact .inl (hs.commandOver_finish ht)
  obtain hf | ⟨j, hj, hjw, hlt⟩ := hto.goesOn hs.position hs.works hne
  · exact .inl (.inl hf)
  obtain hl | hf := hto.lengthLeft hs.position hs.length
  · have hseq : SequencerInv t := hto.sequencerInv ⟨i, hs.word, hs.position⟩ hs.position
    exact .inr ⟨j, ⟨hto.hostq.trans hs.alone, by rw [NoDevice, hport]; exact hs.noDevice, hj, hjw, hseq.position hj,
      fun _ => hl⟩, hlt⟩
  · exact .inl (.inl hf)

/-- A command under way is over within the micro-operations it has left. -/
theorem UnderWay.run {m : Nat} {s : State} {i : Instr} (hs : UnderWay s i) (hm : opsLeft s i ≤ m) :
    ∃ n t, n ≤ m ∧ Host.Core.run Sys2Proof.core n s = .next t ∧ CommandOver s t := by
  induction m generalizing s i with
  | zero => exact absurd (opsLeft_pos s i) (Nat.not_lt.mpr hm)
  | succ m ih =>
    obtain ⟨u, hstep, ho, hc, hover | ⟨j, hu, hlt⟩⟩ := hs.step
    · exact ⟨1, u, by omega, run_succ hstep, hover⟩
    · obtain ⟨n, t, hn, hrun, hover⟩ := ih hu (by omega)
      exact ⟨n + 1, t, by omega, (run_succ hstep).trans hrun, hover.of_sameOperands ho hc⟩

/-- Settles O60: SETUP starts a command with `6 * floor(LENGTH / B) + 4` micro-operations left. -/
theorem startedCommandFaultsOrEndsWithItsRemainder : Obligations.StartedCommandFaultsOrEndsWithItsRemainder := by
  intro s hq hu hnd
  have hs : UnderWay s .setup := ⟨hq, hnd, hu ▸ decodeUop_encodeUop rfl, rfl, trivial, fun h => absurd rfl h⟩
  exact hs.run (Nat.le_refl _)

end Sys2Proof.Machine
end

section
/-! SUPPORT. The batch iteration (42_batch_datapath.md R150 to R160): what the registers and memory hold after the first
units of an iteration, the successor's word, and the statements O27 to O32. -/

namespace Sys2Proof.Machine

/-! ### The operations as loops over their units -/

theorem exec_ldin (w : Width) (s : State) :
    exec (.ldin w) s = endUop (forUnits loadUnit w.regs s) (afterLoad s w) := rfl

theorem exec_xorin (w : Width) (s : State) : exec (.xorin w) s = endUop (forUnits maskUnit w.regs s) (.kcall w) := rfl

theorem exec_xorout (w : Width) (s : State) : exec (.xorout w) s = endUop (forUnits maskUnit w.regs s) (.stout w) := rfl

theorem exec_stout (w : Width) (s : State) : exec (.stout w) s = endUop (forUnits storeUnit w.regs s) (.adv w) := rfl

theorem exec_kcall (w : Width) (s : State) :
    exec (.kcall w) s = .next (setUop (kernelCall s w.regs) (if xorOut s then .xorout w else .stout w)) := rfl

/-! ### The first units of an iteration -/

theorem loadedUpTo_updateVregs (s : State) {n : Nat} (hn : n ≤ 6) :
    LoadedUpTo s (updateVregs (loadedReg s) n s) n := by
  refine ⟨fun i hi k hk => ?_, fun i hi => ?_⟩ <;> rw [vreg_updateVregs _ _ _ hn]
  · rw [if_pos hi, regByte_loadedReg _ _ _ _ hk]
  · rw [if_neg hi.not_gt]

theorem maskedUpTo_updateVregs (s : State) {n : Nat} (hn : n ≤ 6) :
    MaskedUpTo s (updateVregs (maskedReg s) n s) n := by
  refine ⟨fun i hi k hk => ?_, fun i hi => ?_⟩ <;> rw [vreg_updateVregs _ _ _ hn]
  · rw [if_pos hi, regByte_maskedReg _ _ _ _ hk]
  · rw [if_neg hi.not_gt]

theorem storedUpTo_storedMem {s : State} (hw : Memory.wf s.mem = true) (n : Nat) :
    StoredUpTo s { s with mem := storedMem s n } n :=
  ⟨fun i hi k hk hlast => byteAt_storedMem_of_last s n i k hw hi hk hlast,
    fun a hout => byteAt_storedMem_of_ne s n a hw hout⟩

/-- The reply of the kernel port, lane by lane (45_kernel_port.md R196). -/
theorem kernelLanes_kernelCall (s : State) {n : Nat} (hn : n ≤ 6) : KernelLanes s (kernelCall s n) n := by
  refine ⟨fun j hj => ?_, fun i hi => ?_⟩
  · have hi : j / lanesPerReg s.cfg < n := Nat.div_lt_of_lt_mul (Nat.mul_comm n _ ▸ hj)
    have hreg := vreg_updateVregs (fun _ => kernelReg s.cfg (bytesAt s.mem s.sk (tableBytes s.cfg s.rnd)) s.rnd) n s hn
      (j / lanesPerReg s.cfg)
    rw [if_pos hi, kernelReg] at hreg
    have hlane := laneOf_eq (updateVregs_cfg _ n s)
      (fun k => blockE_length (regSlice_length _ _ _) (bytesAt_length _ _ _)) hreg
    exact hlane
  · rw [kernelCall, vreg_updateVregs _ _ _ hn, if_neg hi.not_gt]

/-! ### The successor's word -/

theorem setUop_afterLoad (s t : State) (w : Width) :
    setUop t (afterLoad s w) =
      { t with uop := (if xorIn s = true then 0x60#8 else 0x70#8) + BitVec.ofNat 8 w.regs } := by
  rw [afterLoad]
  split
  · exact setUop_data (op := 0x6#4) (t := false) rfl t
  · exact setUop_data (op := 0x7#4) (t := false) rfl t

theorem setUop_afterKernel (s t : State) (w : Width) :
    setUop t (if xorOut s then .xorout w else .stout w) =
      { t with uop := (if xorOut s = true then 0x80#8 else 0x90#8) + BitVec.ofNat 8 w.regs } := by
  split
  · exact setUop_data (op := 0x8#4) (t := false) rfl t
  · exact setUop_data (op := 0x9#4) (t := false) rfl t

/-- Beside UOP only registers have changed. -/
theorem updateVregs_withUop (g : Nat → VReg → VReg) (n : Nat) (s : State) (u : BitVec 8) :
    { updateVregs g n s with uop := u } = { s with vr := (updateVregs g n s).vr, uop := u } := by
  rw [updateVregs_frame g n s]

/-- No byte of memory has changed, as no register is one. -/
theorem byteAt_setUop_updateVregs (g : Nat → VReg → VReg) (n : Nat) (s : State) (i : Instr) (a : Addr) :
    byteAt (setUop (updateVregs g n s) i).mem a = byteAt s.mem a := by
  rw [setUop_mem, updateVregs_mem]

/-! ### The loop of mask units, before and after the kernel (R152, R153, R156) -/

theorem maskUnits_accepted {s : State} {w : Width} {i : Instr} {op : BitVec 4}
    (hi : encodeUop i = some (uopWord op false (widthField w)))
    (h : UnitsAccepted s .read s.xorCur s.xorStr w.regs) :
    ∃ t, endUop (forUnits maskUnit w.regs s) i = .next t ∧ MaskedUpTo s t w.regs ∧
      (∀ a, byteAt t.mem a = byteAt s.mem a) ∧
      t = { s with vr := t.vr, uop := uopWord op false 0#3 + BitVec.ofNat 8 w.regs } := by
  rw [maskUnits_done s _ h, endUop_done]
  exact ⟨_, rfl, maskedUpTo_updateVregs s (regs_le_six w), byteAt_setUop_updateVregs _ _ _ _,
    (setUop_data hi _).trans (updateVregs_withUop _ _ _ _)⟩

theorem maskUnits_refused {s : State} {w : Width} {j : Nat} (i : Instr) (hj : j < w.regs)
    (h : FirstRefused s .read s.xorCur s.xorStr j) :
    ∃ u t, endUop (forUnits maskUnit w.regs s) i = .next t ∧ MaskedUpTo s u j ∧ u = { s with vr := u.vr } ∧
      t = raiseFault u .bus (unitAddr s.xorCur s.xorStr j) := by
  obtain ⟨hacc, herr⟩ := h
  rw [maskUnits_bus s _ j hj hacc herr, endUop_bus]
  exact ⟨_, _, rfl, maskedUpTo_updateVregs s (hj.le.trans (regs_le_six w)), updateVregs_frame _ _ _,
    rfl⟩

/-! ### The statements -/

/-- Settles O27: the loop leaves `loadedReg` in each register it reaches, and ends or faults there. -/
theorem ldinLoadsTheUnits : Obligations.LdinLoadsTheUnits := by
  refine fun s w => ⟨fun hacc => ?_, fun j hj ⟨hacc, herr⟩ => ?_⟩ <;> rw [exec_ldin]
  · rw [loadUnits_done s _ hacc, endUop_done]
    exact ⟨_, rfl, loadedUpTo_updateVregs s (regs_le_six w), byteAt_setUop_updateVregs _ _ _ _,
      (setUop_afterLoad s _ w).trans (updateVregs_withUop _ _ _ _)⟩
  · rw [loadUnits_bus s _ j hj hacc herr, endUop_bus]
    exact ⟨_, _, rfl, loadedUpTo_updateVregs s (hj.le.trans (regs_le_six w)), updateVregs_frame _ _ _, rfl⟩

/-- Settles O28: the mask loop, with KCALL next. -/
theorem xorinMasksTheUnits : Obligations.XorinMasksTheUnits := by
  intro s w
  rw [exec_xorin]
  exact ⟨maskUnits_accepted (op := 0x7#4) rfl, fun _ hj => maskUnits_refused (.kcall w) hj⟩

/-- Settles O29: the mask loop, with STOUT next. -/
theorem xoroutMasksTheUnits : Obligations.XoroutMasksTheUnits := by
  intro s w
  rw [exec_xorout]
  exact ⟨maskUnits_accepted (op := 0x9#4) rfl, fun _ hj => maskUnits_refused (.stout w) hj⟩

/-- Settles O30: one kernel call, each register answered as the blocks of its lanes. -/
theorem kcallTransformsEachLane : Obligations.KcallTransformsEachLane :=
  fun s w => ⟨_, exec_kcall w s, kernelLanes_kernelCall s (regs_le_six w), byteAt_setUop_updateVregs _ _ _ _,
    (setUop_afterKernel s _ w).trans (updateVregs_withUop _ _ _ _)⟩

/-- Settles O31: the loop leaves `storedMem`, in which the last store to an address wins, up to where it ends or
faults. -/
theorem stoutStoresTheUnits : Obligations.StoutStoresTheUnits := by
  refine fun s w hw => ⟨decodeUop_data_row (op := 0x9#4) (t := false) rfl, fun hacc => ?_,
    fun j hj ⟨hacc, herr⟩ => ?_⟩ <;> rw [exec_stout]
  · rw [storeUnits_done s _ hacc, endUop_done]
    exact ⟨_, rfl, storedUpTo_storedMem hw _, setUop_data (op := 0xA#4) (t := false) rfl _⟩
  · rw [storeUnits_bus s _ j hj hacc herr, endUop_bus]
    exact ⟨_, _, rfl, storedUpTo_storedMem hw _, rfl, rfl⟩

/-- Settles O32: `advance` by `w` units, each cursor by its `unitAddr`. -/
theorem advMovesTheCursors : Obligations.AdvMovesTheCursors :=
  fun _ _ => ⟨decodeUop_data_row (op := 0xA#4) (t := false) rfl, rfl⟩

end Sys2Proof.Machine
end

section
/-! SUPPORT. The counter synthesizer (43_counter.md R170 to R176): the adder on the two parts of a block, and what both
forms of CTRGEN share, with the statements O33, O35 and O36. -/

namespace Sys2Proof.Machine

/-! ### The adder on the leading and on the trailing bytes (R170) -/

/-- The leading bytes stay. -/
theorem take_ctrAdd {c : Config} {blk : List Byte} (n : Nat) (h : blk.length = blockBytes c) :
    (ctrAdd c blk n).take (blockBytes c - counterBytes c) = blk.take (blockBytes c - counterBytes c) :=
  List.take_left' (by simp [h])

/-- The trailing bytes are the sum's, most significant first. -/
theorem drop_ctrAdd {c : Config} {blk : List Byte} (n : Nat) (h : blk.length = blockBytes c) :
    (ctrAdd c blk n).drop (blockBytes c - counterBytes c) = beBytes (counterBytes c)
      ((beInt (blk.drop (blockBytes c - counterBytes c)) + n) % 2 ^ (8 * counterBytes c)) :=
  List.drop_left' (by simp [h])

theorem beInt_drop_ctrAdd {c : Config} {blk : List Byte} (n : Nat) (h : blk.length = blockBytes c) :
    beInt ((ctrAdd c blk n).drop (blockBytes c - counterBytes c)) =
      (beInt (blk.drop (blockBytes c - counterBytes c)) + n) % 2 ^ (8 * counterBytes c) := by
  have hpow : 256 ^ counterBytes c = 2 ^ (8 * counterBytes c) := by rw [pow_mul]; norm_num
  rw [drop_ctrAdd n h, beInt_beBytes, hpow, Nat.mod_mod]

/-- Two additions are one: the reduction in between does not change the sum modulo `2^(8*CTRW)`. -/
theorem ctrAdd_ctrAdd {c : Config} {blk : List Byte} (m n : Nat) (h : blk.length = blockBytes c) :
    ctrAdd c (ctrAdd c blk m) n = ctrAdd c blk (m + n) := by
  rw [ctrAdd, take_ctrAdd m h, beInt_drop_ctrAdd m h, Nat.mod_add_mod, Nat.add_assoc]
  rfl

theorem counterBytes_b16 {c : Config} (h : c.block = .b16) : counterBytes c = 16 := by rw [counterBytes, h]

theorem counterBytes_b8 {c : Config} (h : c.block = .b8) : counterBytes c = if c.ctr8w8 = true then 8 else 4 := by
  rw [counterBytes, h]

/-- Settles O33: the adder taken apart where the leading bytes end. -/
theorem counterAdderIsBigEndianModular : Obligations.CounterAdderIsBigEndianModular :=
  fun _ _ m n h => ⟨counterBytes_b16, counterBytes_b8, ctrAdd_length h, take_ctrAdd n h, beInt_drop_ctrAdd n h,
    ctrAdd_ctrAdd m n h⟩

/-! ### Both forms of CTRGEN: read the counter, fill registers, write the next counter back (R172, R175, R176) -/

/-- `fill` of the counter at INCUR goes into the first `n` registers, and the counter plus `k` back to INCUR. -/
def synthesize (fill : List Byte → Nat → VReg → VReg) (n k : Nat) (succ : Instr) (s : State) :
    Host.Outcome State Fault Refusal :=
  endUop (memRead s s.inCur (blockBytes s.cfg) fun ctr =>
    memWrite (updateVregs (fill ctr) n s) s.inCur (ctrAdd s.cfg ctr k)) succ

theorem exec_ctrgen (w : Width) (s : State) :
    exec (.ctrgen w) s = synthesize (fun ctr i _ => counterReg s.cfg ctr i) w.regs (w.regs * lanesPerReg s.cfg)
      (afterLoad s w) s := rfl

theorem exec_ctrgenT (w : Width) (s : State) :
    exec (.ctrgenT w) s = synthesize
      (fun ctr i _ => if i = 0 then regOfBytes (ctr ++ zeros (vecBytes - ctr.length)) else 0) w.regs 1
      (afterLoadT s w) s := rfl

/-- The counter block at INCUR. -/
def storedCounter (s : State) : List Byte := bytesAt s.mem s.inCur (blockBytes s.cfg)

theorem storedCounter_length (s : State) : (storedCounter s).length = blockBytes s.cfg := bytesAt_length _ _ _

/-- A stored block stands at its address, and no other byte of memory has changed. -/
theorem wroteBlock_storeBytes {s t : State} {a : Addr} {blk : List Byte} (hw : Memory.wf s.mem = true)
    (hl : blk.length = blockBytes s.cfg) (ht : t.mem = storeBytes s.mem a blk) : WroteBlock s t a blk := by
  have hB := blockBytes_cases s.cfg
  unfold WroteBlock
  rw [ht, ← hl]
  exact ⟨fun k hk => byteAt_storeBytes_of_lt _ _ _ _ hw hk (by omega),
    fun x hx => byteAt_storeBytes_of_ne _ _ _ _ hw (by omega) hx⟩

section
variable {s : State} {fill : List Byte → Nat → VReg → VReg} {n k : Nat} {succ : Instr}

/-- A refused read changes nothing but the fault record. -/
theorem synthesize_read_refused (hr : portAnswer s.port .read s.inCur (blockBytes s.cfg) = .error) :
    synthesize fill n k succ s = .next (raiseFault s .bus s.inCur) := by
  rw [synthesize, memRead_error hr, endUop_bus]

/-- The write-back's request, from the state with the registers filled. -/
theorem synthesize_of_read (hr : portAnswer s.port .read s.inCur (blockBytes s.cfg) = .accept) :
    synthesize fill n k succ s = endUop (memWrite (updateVregs (fill (storedCounter s)) n s) s.inCur
      (ctrAdd s.cfg (storedCounter s) k)) succ := by
  rw [synthesize, memRead_accept hr]; rfl

/-- The port is asked for the write-back of one block, whatever the registers hold. -/
theorem portAnswer_writeBack (g : Nat → VReg → VReg) {ans : PortAnswer}
    (h : portAnswer s.port .write s.inCur (blockBytes s.cfg) = ans) :
    portAnswer (updateVregs g n s).port .write s.inCur (ctrAdd s.cfg (storedCounter s) k).length = ans := by
  rwa [updateVregs_port, ctrAdd_length (storedCounter_length s)]

/-- A refused write-back: the registers are filled, and the fault is taken with memory as before. -/
theorem synthesize_write_refused {Filled : State → Prop} (hfill : Filled (updateVregs (fill (storedCounter s)) n s))
    (hr : portAnswer s.port .read s.inCur (blockBytes s.cfg) = .accept)
    (hwr : portAnswer s.port .write s.inCur (blockBytes s.cfg) = .error) :
    ∃ u t, synthesize fill n k succ s = .next t ∧ Filled u ∧ u = { s with vr := u.vr } ∧
      t = raiseFault u .bus s.inCur := by
  rw [synthesize_of_read hr, memWrite_error (portAnswer_writeBack _ hwr), endUop_bus]
  exact ⟨_, _, rfl, hfill, updateVregs_frame _ _ _, rfl⟩

/-- Both accesses accepted: the registers are filled, the next counter stands at INCUR, and `word` is UOP. -/
theorem synthesize_accepted {Filled : State → Prop} {word : BitVec 8} (hw : Memory.wf s.mem = true)
    (hfill : ∀ m u, Filled { updateVregs (fill (storedCounter s)) n s with mem := m, uop := u })
    (hsucc : ∀ t, setUop t succ = { t with uop := word })
    (hr : portAnswer s.port .read s.inCur (blockBytes s.cfg) = .accept)
    (hwr : portAnswer s.port .write s.inCur (blockBytes s.cfg) = .accept) :
    ∃ t, synthesize fill n k succ s = .next t ∧ Filled t ∧
      WroteBlock s t s.inCur (ctrAdd s.cfg (storedCounter s) k) ∧
      t = { s with vr := t.vr, mem := t.mem, uop := word } := by
  rw [synthesize_of_read hr, memWrite_accept (portAnswer_writeBack _ hwr), endUop_done, hsucc]
  refine ⟨_, rfl, hfill _ _, wroteBlock_storeBytes hw (ctrAdd_length (storedCounter_length s)) ?_, ?_⟩
  · simp only [updateVregs_mem]
  · rw [updateVregs_frame]

end

/-! ### The registers of a counter batch (R174) -/

/-- Lane `j` stands in register `j / BPV` at place `j mod BPV`, and holds the counter plus their sum, `j`. -/
theorem counterLanes_updateVregs (s : State) (ctr : List Byte) {n : Nat} (hn : n ≤ 6)
    (hl : ctr.length = blockBytes s.cfg) :
    CounterLanes s (updateVregs (fun i _ => counterReg s.cfg ctr i) n s) ctr n := by
  refine ⟨fun j hj => ?_, fun i hi => ?_⟩
  · have hi : j / lanesPerReg s.cfg < n := Nat.div_lt_of_lt_mul (Nat.mul_comm n _ ▸ hj)
    have hreg := vreg_updateVregs (fun i _ => counterReg s.cfg ctr i) n s hn (j / lanesPerReg s.cfg)
    rw [if_pos hi, counterReg] at hreg
    rw [laneOf_eq (updateVregs_cfg _ n s) (fun k => ctrAdd_length hl) hreg, Nat.div_add_mod']
  · rw [vreg_updateVregs _ _ _ hn, if_neg hi.not_gt]

/-! ### The tail form's successor -/

theorem setUop_afterLoadT (s t : State) (w : Width) :
    setUop t (afterLoadT s w) =
      { t with uop := (if xorIn s = true then 0x68#8 else 0x78#8) + BitVec.ofNat 8 w.regs } := by
  rw [afterLoadT]
  split
  · exact setUop_data (op := 0x6#4) (t := true) rfl t
  · exact setUop_data (op := 0x7#4) (t := true) rfl t

/-! ### The statements -/

/-- Settles O35: the batch form fills the lanes with consecutive counters. -/
theorem ctrgenSynthesizesTheCounters : Obligations.CtrgenSynthesizesTheCounters := by
  intro s w hw
  have hfill := counterLanes_updateVregs s (storedCounter s) (regs_le_six w) (storedCounter_length s)
  rw [exec_ctrgen]
  exact ⟨synthesize_accepted (Filled := fun t => CounterLanes s t (storedCounter s) w.regs) hw
      (fun _ _ => hfill) (setUop_afterLoad s · w),
    synthesize_read_refused,
    synthesize_write_refused (Filled := fun t => CounterLanes s t (storedCounter s) w.regs) hfill⟩

/-- Settles O36: the tail form fills lane 0 with one counter and pads the rest. -/
theorem ctrgenTailSynthesizesOneCounter : Obligations.CtrgenTailSynthesizesOneCounter := by
  intro s w hw
  have hfill := paddedBlock_padTail w (storedCounter_length s)
  rw [exec_ctrgenT]
  exact ⟨synthesize_accepted (Filled := fun t => PaddedBlock s t (storedCounter s) w.regs) hw
      (fun _ _ => hfill) (setUop_afterLoadT s · w),
    synthesize_read_refused,
    synthesize_write_refused (Filled := fun t => PaddedBlock s t (storedCounter s) w.regs) hfill⟩

end Sys2Proof.Machine
end

section
/-! SUPPORT. The partial-block handler (44_tail.md R181 to R190): each tail form, lane 0 of `VR[0]` over the
micro-operations of an iteration, and the statements O25 and O37 to O44. -/

namespace Sys2Proof.Machine

/-! ### The tail forms by the requests they make -/

theorem exec_ldinT (w : Width) (s : State) : exec (.ldinT w) s =
    endUop (memRead s s.inCur (blockBytes s.cfg) fun bs => .done (padTail bs w.regs s)) (afterLoadT s w) := rfl

theorem exec_xorinT (w : Width) (s : State) : exec (.xorinT w) s = endUop (maskBlock s) (.kcallT w) := rfl

theorem exec_xoroutT (w : Width) (s : State) : exec (.xoroutT w) s = endUop (maskBlock s) (.stoutT w) := rfl

theorem exec_kcallT (w : Width) (s : State) : exec (.kcallT w) s =
    .next (setUop (kernelCall s w.regs) (if xorOut s then .xoroutT w else .stoutT w)) := rfl

theorem exec_stoutT (w : Width) (s : State) : exec (.stoutT w) s =
    endUop (memWrite s s.outCur (regSlice (vreg s 0) 0 (blockBytes s.cfg))) (.advT w) := rfl

theorem setUop_afterKernelT (s t : State) (w : Width) :
    setUop t (if xorOut s then .xoroutT w else .stoutT w) =
      { t with uop := (if xorOut s = true then 0x88#8 else 0x98#8) + BitVec.ofNat 8 w.regs } := by
  split
  · exact setUop_data (op := 0x8#4) (t := true) rfl t
  · exact setUop_data (op := 0x9#4) (t := true) rfl t

/-! ### The mask on one block, before and after the kernel (R184, R186) -/

theorem maskBlock_accepted {s : State} {w : Width} {i : Instr} {op : BitVec 4}
    (hi : encodeUop i = some (uopWord op true (widthField w)))
    (h : portAnswer s.port .read s.xorCur (blockBytes s.cfg) = .accept) :
    ∃ t, endUop (maskBlock s) i = .next t ∧ MaskedBlock s t ∧ (∀ a, byteAt t.mem a = byteAt s.mem a) ∧
      t = { s with vr := t.vr, uop := uopWord op true 0#3 + BitVec.ofNat 8 w.regs } := by
  obtain ⟨v, hv, hmasked⟩ := maskBlock_accept h
  rw [hv, endUop_done, setUop_data hi]
  exact ⟨_, rfl, hmasked, fun _ => rfl, rfl⟩

theorem maskBlock_refused {s : State} (i : Instr)
    (h : portAnswer s.port .read s.xorCur (blockBytes s.cfg) = .error) :
    endUop (maskBlock s) i = .next (raiseFault s .bus s.xorCur) := by
  rw [maskBlock, memRead_error h, endUop_bus]

/-! ### The statements about one micro-operation -/

/-- Settles O25: the strides and cursors are `tailStride` and `tailCursor` of the old ones. -/
theorem tadjChangesTheUnit : Obligations.TadjChangesTheUnit :=
  fun _ => ⟨decodeUop_encodeUop rfl, congrArg Host.Outcome.next (setUop_tailStart _ _)⟩

/-- Settles O37: the request is one block, and `padTail` places what it answers. -/
theorem ldinTailLoadsOneBlock : Obligations.LdinTailLoadsOneBlock := by
  refine fun s w => ⟨fun hacc => ?_, fun herr => ?_⟩ <;> rw [exec_ldinT]
  · rw [memRead_accept hacc, endUop_done, padTail]
    exact ⟨_, rfl, paddedBlock_padTail w (bytesAt_length _ _ _), byteAt_setUop_updateVregs _ _ _ _,
      (setUop_afterLoadT s _ w).trans (updateVregs_withUop _ _ _ _)⟩
  · rw [memRead_error herr, endUop_bus]

/-- Settles O38: the mask on one block, with KCALL.T next. -/
theorem xorinTailMasksOneBlock : Obligations.XorinTailMasksOneBlock := by
  intro s w
  rw [exec_xorinT]
  exact ⟨maskBlock_accepted (op := 0x7#4) rfl, maskBlock_refused (.kcallT w)⟩

/-- Settles O39: the mask on one block, with STOUT.T next. -/
theorem xoroutTailMasksOneBlock : Obligations.XoroutTailMasksOneBlock := by
  intro s w
  rw [exec_xoroutT]
  exact ⟨maskBlock_accepted (op := 0x9#4) rfl, maskBlock_refused (.stoutT w)⟩

/-- Settles O40: KCALL's kernel call, with the tail's successor. -/
theorem kcallTailTransformsEachLane : Obligations.KcallTailTransformsEachLane :=
  fun s w => ⟨_, exec_kcallT w s, kernelLanes_kernelCall s (regs_le_six w), byteAt_setUop_updateVregs _ _ _ _,
    (setUop_afterKernelT s _ w).trans (updateVregs_withUop _ _ _ _)⟩

/-- Settles O41: the request writes the `B` bytes of lane 0 and no more. -/
theorem stoutTailStoresOneBlock : Obligations.StoutTailStoresOneBlock := by
  refine fun s w hw => ⟨decodeUop_data_row (op := 0x9#4) (t := true) rfl, fun hacc => ?_, fun herr => ?_⟩ <;>
    rw [exec_stoutT]
  · rw [memWrite_accept (by rwa [regSlice_length]), endUop_done]
    exact ⟨_, rfl, wroteBlock_storeBytes hw (regSlice_length _ _ _) rfl,
      setUop_data (op := 0xA#4) (t := true) rfl _⟩
  · rw [memWrite_error (by rwa [regSlice_length]), endUop_bus]

theorem unitAddr_one (cur str : Addr) : unitAddr cur str 1 = cur + str := by rw [unitAddr, BitVec.one_mul]

/-- Settles O42: `advance` by one unit is one stride per cursor. -/
theorem advTailMovesTheCursors : Obligations.AdvTailMovesTheCursors := by
  refine fun s w => ⟨decodeUop_data_row (op := 0xA#4) (t := true) rfl, ?_⟩
  rw [← unitAddr_one s.inCur, ← unitAddr_one s.xorCur, ← unitAddr_one s.outCur]
  rfl

/-- Settles O43: FINISH is these four assignments. -/
theorem finishReturnsTheRemainder : Obligations.FinishReturnsTheRemainder :=
  fun _ => ⟨decodeUop_encodeUop rfl, rfl⟩

/-! ### Lane 0 after each tail form -/

theorem laneOf_zero_of_paddedBlock {s t : State} {blk : List Byte} {n : Nat} (hc : t.cfg = s.cfg)
    (hl : blk.length = blockBytes s.cfg) (h : PaddedBlock s t blk n) : laneOf t 0 = blk := by
  have hB := blockBytes_cases s.cfg
  obtain ⟨hlane, -, -⟩ := h
  rw [laneOf_zero, hc]
  refine regSlice_eq hl fun k hk => ?_
  rw [hlane k (by omega), if_pos hk]

theorem laneOf_zero_of_maskedBlock {s t : State} (hc : t.cfg = s.cfg) (h : MaskedBlock s t) :
    laneOf t 0 = xorBytes (laneOf s 0) (bytesAt s.mem s.xorCur (blockBytes s.cfg)) := by
  have hB := blockBytes_cases s.cfg
  obtain ⟨hlane, -⟩ := h
  rw [laneOf_zero, laneOf_zero, hc]
  refine regSlice_eq (by simp) fun k hk => ?_
  rw [hlane k (by omega), if_pos hk, xorBytes_getD _ _ _ (by simpa using hk) (by simpa using hk),
    regSlice_getD _ _ _ _ hk, bytesAt_getD _ _ _ _ hk, Nat.zero_add]

theorem laneOf_zero_of_kernelLanes {s t : State} {n : Nat} (hn : 0 < n) (h : KernelLanes s t n) :
    laneOf t 0 = blockE s.cfg (bytesAt s.mem s.sk (tableBytes s.cfg s.rnd)) s.rnd (laneOf s 0) := by
  obtain ⟨hlanes, -⟩ := h
  exact hlanes 0 (Nat.mul_pos hn (lanes_pos _))

/-! ### The micro-operations of a tail iteration (R189) -/

/-- A run in two parts. -/
theorem run_add {m n : Nat} {s t : State} (h : Host.Core.run Sys2Proof.core m s = .next t) :
    Host.Core.run Sys2Proof.core (m + n) s = Host.Core.run Sys2Proof.core n t := by
  induction m generalizing s with
  | zero => cases h; rw [Nat.zero_add]
  | succ m ih =>
    rw [Nat.add_right_comm]
    cases hs : step s with
    | next u => rw [run_succ hs] at h ⊢; exact ih h
    | fault f => simp only [Host.Core.run, show Sys2Proof.core.step s = .fault f from hs] at h; cases h
    | refused r => simp only [Host.Core.run, show Sys2Proof.core.step s = .refused r from hs] at h; cases h

theorem run_one {s t : State} (h : step s = .next t) : Host.Core.run Sys2Proof.core 1 s = .next t := run_succ h

/-- A tail iteration that began in `s` has come to the micro-operation whose row of the map is `row`, with a block in
lane 0 of `VR[0]`: only registers and UOP have changed. -/
def TailAt (s : State) (row : BitVec 8) (blk : List Byte) (t : State) : Prop :=
  ∃ v, t = { s with vr := v, uop := row + BitVec.ofNat 8 (narrowest s.cfg).regs } ∧ laneOf t 0 = blk

/-- The source block of an iteration. -/
def sourceBlock (s : State) : List Byte := bytesAt s.mem s.inCur (blockBytes s.cfg)

/-- The mask block of an iteration. -/
def maskingBlock (s : State) : List Byte := bytesAt s.mem s.xorCur (blockBytes s.cfg)

/-- `E` of a block under the subkey table as memory holds it. -/
def cipherBlock (s : State) (blk : List Byte) : List Byte :=
  blockE s.cfg (bytesAt s.mem s.sk (tableBytes s.cfg s.rnd)) s.rnd blk

section
variable {s t : State} {blk : List Byte}

/-- The sequencer's turn at a tail word of width `WN`, `op` its operation nibble. -/
theorem step_tailWord (op : BitVec 4) {i : Instr} (hq : s.hostq = [])
    (hu : s.uop = uopWord op true 0#3 + BitVec.ofNat 8 (narrowest s.cfg).regs)
    (hi : encodeUop i = some (uopWord op true (widthField (narrowest s.cfg))))
    (hhas : instanceHas s.cfg i = true) : step s = exec i s :=
  step_uop hq (decodeUopFor_ok.mpr ⟨hu ▸ decodeUop_data_row hi, hhas⟩)

/-- The sequencer's turn within an iteration. -/
theorem step_tailAt (op : BitVec 4) {i : Instr} (hq : s.hostq = []) (h : TailAt s (uopWord op true 0#3) blk t)
    (hi : encodeUop i = some (uopWord op true (widthField (narrowest s.cfg))))
    (hhas : instanceHas s.cfg i = true) : step t = exec i t := by
  obtain ⟨v, rfl, -⟩ := h
  exact step_tailWord op hq rfl hi hhas

theorem step_tail_ldinT (hq : s.hostq = []) (hu : s.uop = 0x48#8 + BitVec.ofNat 8 (narrowest s.cfg).regs)
    (hr : portAnswer s.port .read s.inCur (blockBytes s.cfg) = .accept) :
    ∃ t, step s = .next t ∧ TailAt s (if xorIn s = true then 0x68#8 else 0x78#8) (sourceBlock s) t := by
  obtain ⟨hload, -⟩ := ldinTailLoadsOneBlock s (narrowest s.cfg)
  obtain ⟨t, ht, hpad, -, hframe⟩ := hload hr
  exact ⟨t, (step_tailWord 0x4#4 hq hu rfl (beq_self_eq_true _)).trans ht, t.vr, hframe,
    laneOf_zero_of_paddedBlock (by rw [hframe]) (bytesAt_length _ _ _) hpad⟩

/-- A mask micro-operation, XORIN.T or XOROUT.T, given what the statement about it says of an accepted read. -/
theorem step_tail_mask (op : BitVec 4) {i : Instr} {next : BitVec 8} (hq : s.hostq = [])
    (hr : portAnswer s.port .read s.xorCur (blockBytes s.cfg) = .accept)
    (hi : encodeUop i = some (uopWord op true (widthField (narrowest s.cfg))))
    (hhas : instanceHas s.cfg i = true)
    (hexec : portAnswer t.port .read t.xorCur (blockBytes t.cfg) = .accept →
      ∃ t', exec i t = .next t' ∧ MaskedBlock t t' ∧ (∀ a, byteAt t'.mem a = byteAt t.mem a) ∧
        t' = { t with vr := t'.vr, uop := next + BitVec.ofNat 8 (narrowest s.cfg).regs })
    (h : TailAt s (uopWord op true 0#3) blk t) :
    ∃ t', step t = .next t' ∧ TailAt s next (xorBytes blk (maskingBlock s)) t' := by
  rw [step_tailAt op hq h hi hhas]
  obtain ⟨v, rfl, rfl⟩ := h
  obtain ⟨t', ht, hmasked, -, hframe⟩ := hexec hr
  exact ⟨t', ht, t'.vr, hframe, laneOf_zero_of_maskedBlock (by rw [hframe]) hmasked⟩

theorem step_tail_kcallT (hq : s.hostq = []) (h : TailAt s 0x78#8 blk t) :
    ∃ t', step t = .next t' ∧ TailAt s (if xorOut s = true then 0x88#8 else 0x98#8) (cipherBlock s blk) t' := by
  obtain ⟨t', ht, hlanes, -, hframe⟩ := kcallTailTransformsEachLane t (narrowest s.cfg)
  refine ⟨t', (step_tailAt 0x7#4 hq h rfl (beq_self_eq_true _)).trans ht, ?_⟩
  obtain ⟨v, rfl, rfl⟩ := h
  exact ⟨t'.vr, hframe, laneOf_zero_of_kernelLanes (regs_pos _) hlanes⟩

/-- A mask micro-operation that is only there if `c`. -/
theorem run_mask_if {c : Bool} {row next : BitVec 8}
    (hmask : c = true → TailAt s row blk t →
      ∃ t', step t = .next t' ∧ TailAt s next (xorBytes blk (maskingBlock s)) t')
    (h : TailAt s (if c = true then row else next) blk t) :
    ∃ t', Host.Core.run Sys2Proof.core (if c = true then 1 else 0) t = .next t' ∧
      TailAt s next (if c = true then xorBytes blk (maskingBlock s) else blk) t' := by
  cases c with
  | false => exact ⟨t, rfl, h⟩
  | true =>
    obtain ⟨t', ht, hat⟩ := hmask rfl h
    exact ⟨t', run_one ht, hat⟩

/-- STOUT.T and ADV.T end the iteration. -/
theorem run_tail_end (hq : s.hostq = []) (hw : Memory.wf s.mem = true)
    (hwr : portAnswer s.port .write s.outCur (blockBytes s.cfg) = .accept) (h : TailAt s 0x98#8 blk t) :
    ∃ t', Host.Core.run Sys2Proof.core 2 t = .next t' ∧ WroteBlock s t' s.outCur blk ∧
      t' = { s with vr := t'.vr, mem := t'.mem, uop := 0x20#8
                    inCur := s.inCur + s.inStr, xorCur := s.xorCur + s.xorStr, outCur := s.outCur + s.outStr
                    lenRem := s.lenRem - BitVec.ofNat 64 (blockBytes s.cfg) } := by
  have hturn := step_tailAt 0x9#4 hq h (i := .stoutT (narrowest s.cfg)) rfl (beq_self_eq_true _)
  have hstout := stoutTailStoresOneBlock t (narrowest s.cfg)
  obtain ⟨v, rfl, rfl⟩ := h
  obtain ⟨-, hstore, -⟩ := hstout hw
  obtain ⟨u, hu, hwrote, hframe⟩ := hstore hwr
  obtain ⟨-, hadv⟩ := advTailMovesTheCursors u (narrowest s.cfg)
  have hturn' : step u = exec (.advT (narrowest s.cfg)) u := by
    rw [hframe]
    exact step_tailWord 0xA#4 hq rfl rfl (beq_self_eq_true _)
  refine ⟨_, (run_succ (hturn.trans hu)).trans (run_one (hturn'.trans hadv)), ?_, ?_⟩
  · rw [laneOf_zero]
    exact hwrote
  · rw [hframe]

end

/-- Without a mask neither mask micro-operation is there, with one exactly one of the two is. -/
theorem tail_iteration_steps (s : State) :
    1 + ((if xorIn s = true then 1 else 0) + (1 + ((if xorOut s = true then 1 else 0) + 2))) =
      if s.xNull = true then 4 else 5 := by
  unfold xorIn xorOut
  cases flagX s <;> cases s.xNull <;> rfl

theorem xNull_of_xorIn {s : State} (h : xorIn s = true) : s.xNull = false := by simp_all [xorIn]

theorem xNull_of_xorOut {s : State} (h : xorOut s = true) : s.xNull = false := by simp_all [xorOut]

/-- Settles O44: LDIN.T, the mask if it comes before, KCALL.T, the mask if it comes after, STOUT.T and ADV.T, lane 0
followed through them. -/
theorem tailIterationIsOneFunction : Obligations.TailIterationIsOneFunction := by
  intro s hq hu hw hsrc hmask hdst
  obtain ⟨t₁, hload, h₁⟩ := step_tail_ldinT hq hu hsrc
  obtain ⟨t₂, hin, h₂⟩ := run_mask_if (fun hx => step_tail_mask 0x6#4 hq (hmask (xNull_of_xorIn hx)) rfl
    (beq_self_eq_true _) (xorinTailMasksOneBlock t₁ (narrowest s.cfg)).1) h₁
  obtain ⟨t₃, hkernel, h₃⟩ := step_tail_kcallT hq h₂
  obtain ⟨t₄, hout, h₄⟩ := run_mask_if (fun hx => step_tail_mask 0x8#4 hq (hmask (xNull_of_xorOut hx)) rfl
    (beq_self_eq_true _) (xoroutTailMasksOneBlock t₃ (narrowest s.cfg)).1) h₃
  obtain ⟨t₅, hend, hwrote, hframe⟩ := run_tail_end hq hw hdst h₄
  refine ⟨t₅, ?_, hwrote, hframe⟩
  rw [← tail_iteration_steps, run_add (run_one hload), run_add hin, run_add (run_one hkernel), run_add hout, hend]

end Sys2Proof.Machine
end

section
/-! SUPPORT. The kernel port (45_kernel_port.md R196, R201, R202): the test kernels undone, lane 0 through KCALL.T as a
function of lane 0, and the statements O45 and O46. -/

namespace Sys2Proof.Machine

/-! ### Byte-by-byte operations that undo each other -/

/-- An operation undone byte by byte, with the same second argument, gives the first list back. -/
theorem zipWith_zipWith_cancel {α β : Type} {f g : α → β → α} (hfg : ∀ x k, g (f x k) k = x) {xs : List α}
    {ks : List β} (hl : xs.length = ks.length) : List.zipWith g (List.zipWith f xs ks) ks = xs := by
  apply List.ext_getElem (by simp [hl])
  intro i h₁ h₂
  simp only [List.getElem_zipWith, hfg]

theorem byte_xor_cancel (x k : Byte) : x ^^^ k ^^^ k = x := by
  rw [BitVec.xor_assoc, BitVec.xor_self, BitVec.xor_zero]

/-- Settles O45: each kernel works byte by byte, and each byte of the table is undone by itself. -/
theorem testKernelsInvert : Obligations.TestKernelsInvert := fun _ _ _ _ hl =>
  ⟨zipWith_zipWith_cancel byte_xor_cancel hl, zipWith_zipWith_cancel BitVec.add_sub_cancel hl⟩

/-! ### Lane 0 through KCALL.T -/

/-- Whatever the padding lanes hold, lane 0 of the reply is `E` of lane 0 of the request (R196). -/
theorem laneOf_zero_of_exec_kcallT {s t : State} {w : Width} (h : exec (.kcallT w) s = .next t) :
    laneOf t 0 = cipherBlock s (laneOf s 0) := by
  obtain ⟨u, hu, hlanes, -⟩ := kcallTailTransformsEachLane s w
  obtain rfl : u = t := Host.Outcome.next.inj (hu.symm.trans h)
  exact laneOf_zero_of_kernelLanes (regs_pos w) hlanes

/-- `E` is chosen and keyed by fields other than the registers (R196, R200). -/
theorem cipherBlock_eq_of_vr_frame {s s' : State} (hs : s' = { s with vr := s'.vr }) (blk : List Byte) :
    cipherBlock s' blk = cipherBlock s blk := by
  obtain ⟨v, rfl⟩ : ∃ v, s' = { s with vr := v } := ⟨_, hs⟩
  rfl

/-- Settles O46: on both sides lane 0 becomes `E` of the same block, and `E` is the same in both states. -/
theorem paddingLanesDoNotReachTheBlock : Obligations.PaddingLanesDoNotReachTheBlock := by
  intro s s' t t' w hs hlane ht ht'
  calc laneOf t 0 = cipherBlock s (laneOf s 0) := laneOf_zero_of_exec_kcallT ht
    _ = cipherBlock s (laneOf s' 0) := by rw [hlane]
    _ = cipherBlock s' (laneOf s' 0) := (cipherBlock_eq_of_vr_frame hs _).symm
    _ = laneOf t' 0 := (laneOf_zero_of_exec_kcallT ht').symm

end Sys2Proof.Machine
end

section
/-! SUPPORT. Faults (60_exceptions.md R211, R214, R216): fault entry by its cause, what no step in the fault state but a reset
can change, and the statements O18 and O19. -/

namespace Sys2Proof.Machine

/-! ### Fault entry (R214) -/

/-- BUS alone records an address. -/
theorem raiseFault_of_ne_bus (s : State) (c : Cause) (info : Addr) (hc : c ≠ .bus) :
    raiseFault s c info = { s with
      cause := causeCode c, fAddr := 0, fault := true, busy := false, done := false, uop := 0xF0#8 } := by
  rw [raiseFault, if_neg hc]

theorem raiseFault_bus (s : State) (info : Addr) :
    raiseFault s .bus info = { s with
      cause := 6, fAddr := info, fault := true, busy := false, done := false, uop := 0xF0#8 } := by
  rw [raiseFault, if_pos rfl, causeCode]

/-- Settles O18: the six causes of SETUP record no address, BUS records the refused one. -/
theorem faultEntryRecordsAndHalts : Obligations.FaultEntryRecordsAndHalts := fun s info =>
  ⟨raiseFault_of_ne_bus s .nullSubkeys info nofun, raiseFault_of_ne_bus s .nullIn info nofun,
    raiseFault_of_ne_bus s .nullOut info nofun, raiseFault_of_ne_bus s .lenShort info nofun,
    raiseFault_of_ne_bus s .badFlags info nofun, raiseFault_bus s info,
    raiseFault_of_ne_bus s .crRefused info nofun⟩

/-! ### The fault state (R216) -/

/-- `t` is `s` but for what the host can reach in the fault state: its queue and read data, memory and the operand
registers. -/
def SameSequencer (s t : State) : Prop :=
  t = { s with hostq := t.hostq, hostData := t.hostData, mem := t.mem, subkeys := t.subkeys, rounds := t.rounds,
               inPtr := t.inPtr, xorPtr := t.xorPtr, outPtr := t.outPtr, length := t.length, flags := t.flags }

theorem SameSequencer.refl (s : State) : SameSequencer s s := rfl

theorem sameSequencer_hostWrite (s : State) (o b : Nat) (v : BitVec 64) : SameSequencer s (hostWrite s o b v) := by
  obtain ⟨_, _, _, _, _, _, _, h⟩ := hostWrite_frame s o b v
  rw [h]; rfl

/-- The halted sequencer takes no step (41_arbiter.md R143). -/
theorem Faulted.eq_of_exec {s t : State} {i : Instr} (hs : Faulted s) (hd : decodeUop s.uop = .ok i)
    (h : exec i s = .next t) : t = s := by
  obtain ⟨hu, -, -⟩ := hs
  have hfault : decodeUop 0xF0#8 = .ok .fault := decodeUop_encodeUop rfl
  rw [hu, hfault] at hd
  cases hd
  cases h
  rfl

/-- PROCESS writes its operands, and its START is dropped. -/
theorem Faulted.sameSequencer_execProcess {s t : State} {d : Descriptor} (hs : Faulted s)
    (h : execProcess d s = .next t) : SameSequencer s t := by
  obtain ⟨-, hf, hb⟩ := hs
  rw [execProcess_idle hb] at h
  cases h
  rw [startCommand_drop]
  · rfl
  · exact .inr hf

theorem StepTo.reset_or_sameSequencer {s u t : State} (hu : Faulted u) (h : StepTo s u t) :
    fetch s = .run .srst u ∨ SameSequencer u t := by
  cases h with
  | srst hf h => exact .inl hf
  | uop i hd h => exact .inr (hu.eq_of_exec hd h ▸ .refl u)
  | process d hf h => exact .inr (hu.sameSequencer_execProcess h)
  | start hf h =>
    obtain ⟨-, hfault, -⟩ := hu
    rw [h, startCommand_drop (.inr hfault)]
    exact .inr (.refl u)
  | write o b v h => exact .inr (h ▸ sameSequencer_hostWrite u o b v)
  | read v h | nothing h | store a v hb h => subst h; exact .inr rfl

/-- Settles O19: the sequencer is halted, START is dropped, and an access of the host reaches no register of the sequencer;
a reset alone is left. -/
theorem onlyResetLeavesTheFaultState : Obligations.OnlyResetLeavesTheFaultState := by
  intro s t hu hf hb h
  obtain ⟨q, h⟩ := step_next h
  have hs : Faulted { s with hostq := q } := ⟨hu, hf, hb⟩
  obtain hreset | hkept := h.reset_or_sameSequencer hs
  · exact .inl ⟨_, hreset⟩
  · exact .inr hkept

end Sys2Proof.Machine
end

section
/-! SUPPORT. Reset and hazards (70_reset_and_hazards.md R241, R250, R253): a host's store against the bytes of a running
command, the two widths of the counter adder, the reset action, and the statements O7, O16 and O34. -/

namespace Sys2Proof.Machine

/-! ### A store of the host (R250) -/

theorem step_refuse {s : State} {r : Refusal} (h : fetch s = .refuse r) : step s = .refused r := by simp [step, h]

/-- Read after write of one byte at addresses of `AW` bits (20_memory.md R61, R62). -/
theorem byteAt_write {m : Memory} (hm : Memory.wf m = true) (a : Addr) (v : Byte) (x : Addr) :
    byteAt (Memory.write m a.toNat v) x = if x = a then v else byteAt m x := by
  simp only [byteAt, Memory.read_write m a.toNat v x.toNat hm, BitVec.toNat_inj]

/-- A store to a byte of the running command has no meaning. -/
theorem step_store_of_owned {s : State} {a : Addr} {v : Byte} {q : List HostEvent} (hq : s.hostq = .store a v :: q)
    (hb : s.busy = true) (ho : OwnedByte s a) : step s = .refused (.hostStoreDuringCommand a) := by
  have hrefuse : (s.busy && commandOwns s a) = true := by rw [hb, commandOwns_iff.mpr ho]; rfl
  exact step_refuse ((fetch_store hq).trans (if_pos hrefuse))

/-- A store reaches memory where no command runs, and at any byte the command does not own. -/
theorem step_store_of_not_owned {s : State} {a : Addr} {v : Byte} {q : List HostEvent} (hq : s.hostq = .store a v :: q)
    (h : s.busy = false ∨ ¬OwnedByte s a) :
    step s = .next { s with hostq := q, mem := Memory.write s.mem a.toNat v } := by
  have hland : ¬(s.busy && commandOwns s a) = true := by
    rw [Bool.and_eq_true, commandOwns_iff]
    rintro ⟨hb, ho⟩
    obtain hidle | hfree := h
    · exact absurd hb (by simp [hidle])
    · exact hfree ho
  exact step_host ((fetch_store hq).trans (if_neg hland))

/-- Settles O7: what the step asks of the address is that the command owns it, and a store that lands writes that one
byte. -/
theorem hostStoreRefusedOnTheCommandsBytes : Obligations.HostStoreRefusedOnTheCommandsBytes := by
  intro s q a v hq hm
  refine ⟨step_store_of_owned hq, fun h => ⟨_, step_store_of_not_owned hq h, rfl, ?stored, fun x hx => ?kept⟩⟩
  case stored => exact (byteAt_write hm a v a).trans (if_pos rfl)
  case kept => exact (byteAt_write hm a v x).trans (if_neg hx)

/-! ### The two widths of the counter adder (R253, 43_counter.md R171) -/

/-- A big-endian number, cut where its last bytes begin. -/
theorem beInt_eq_take_drop (bs : List Byte) (k : Nat) :
    beInt bs = beInt (bs.drop k) + 256 ^ (bs.length - k) * beInt (bs.take k) := by
  conv_lhs => rw [← List.take_append_drop k bs]
  rw [beInt, List.reverse_append, leNat_append, List.length_reverse, List.length_drop]
  rfl

/-- Where the counter field does not wrap, the adder adds to the number of the whole block. -/
theorem beInt_ctrAdd_of_no_wrap {c : Config} {blk : List Byte} {n : Nat} (hl : blk.length = blockBytes c)
    (h : beInt (blk.drop (blockBytes c - counterBytes c)) + n < 2 ^ (8 * counterBytes c)) :
    beInt (ctrAdd c blk n) = beInt blk + n := by
  rw [beInt_eq_take_drop (ctrAdd c blk n) (blockBytes c - counterBytes c), take_ctrAdd n hl, beInt_drop_ctrAdd n hl,
    Nat.mod_eq_of_lt h, ctrAdd_length hl, beInt_eq_take_drop blk (blockBytes c - counterBytes c), hl]
  exact Nat.add_right_comm _ _ _

/-- A sum that stays within the last four bytes of a block stays within its eight. -/
theorem beInt_add_lt_of_drop {blk : List Byte} {n : Nat} (hl : blk.length = 8) (h : beInt (blk.drop 4) + n < 2 ^ 32) :
    beInt blk + n < 2 ^ 64 := by
  have hcut := beInt_eq_take_drop blk 4
  have hhead : beInt (blk.take 4) < 2 ^ 32 := by simpa [hl] using beInt_lt (blk.take 4)
  rw [hl] at hcut
  omega

theorem blockBytes_b8 {c : Config} (h : c.block = .b8) : blockBytes c = 8 := by rw [blockBytes, h]; rfl

/-- Where the last four bytes of an 8-byte block do not wrap, the adder adds to the block as one number, whatever CTR8W
is. -/
theorem ctrAdd_b8_of_no_wrap {c : Config} {blk : List Byte} {n : Nat} (hb : c.block = .b8) (hl : blk.length = 8)
    (h : beInt (blk.drop 4) + n < 2 ^ 32) : ctrAdd c blk n = beBytes 8 (beInt blk + n) := by
  have hB := blockBytes_b8 hb
  have hlB : blk.length = blockBytes c := hl.trans hB.symm
  have hfield : beInt (blk.drop (blockBytes c - counterBytes c)) + n < 2 ^ (8 * counterBytes c) := by
    rw [hB, counterBytes_b8 hb]
    split
    case isTrue => exact beInt_add_lt_of_drop hl h
    case isFalse => exact h
  rw [← beInt_ctrAdd_of_no_wrap hlB hfield, ← hB, ← ctrAdd_length hlB, beBytes_beInt]

/-- Settles O34: the block under either setting is `be_bytes` of one sum, in which CTR8W has no part. -/
theorem counterWidthsAgreeWithoutWrap : Obligations.CounterWidthsAgreeWithoutWrap := by
  intro c blk n hb hl h
  calc ctrAdd { c with ctr8w8 := false } blk n
    _ = beBytes 8 (beInt blk + n) := ctrAdd_b8_of_no_wrap hb hl h
    _ = ctrAdd { c with ctr8w8 := true } blk n := .symm (ctrAdd_b8_of_no_wrap hb hl h)

/-! ### The reset action (R241) -/

/-- Settles O16: the reset action draws the contents of VR afresh. -/
theorem srstResetsEveryRegister : Obligations.SrstResetsEveryRegister :=
  fun s => ⟨Vector.ofFn fun i => Config.freeVReg (s.freeIx + i.val), s.freeIx + 6, rfl⟩

end Sys2Proof.Machine
end
